-- ==== Sys2Proof/Word.lean ====
section
/-! DEFINITION. The word types of the block: bytes, the 16-bit words of the registers, the 32-bit accumulators of the
`m` packet (00_scope.md R10, R13; 46_rsp_framer.md R225). -/

namespace Sys2Proof

/-- One byte of memory, of the instruction stream or of the wire. -/
abbrev Byte := BitVec 8

/-- A 16-bit register, segment or offset (R10). -/
abbrev Word := BitVec 16

/-- The width of the hex accumulators `acc_addr` and `acc_len` (R225). -/
abbrev DWord := BitVec 32

end Sys2Proof
end

