-- ==== Sys2Proof/Config.lean ====
section
/-! DEFINITION. The parameters of the block (00_scope.md R8, R9; 10_state.md R50). They are constant after reset, and
State holds them in one field that no step writes, so that a statement about every state is a statement about every
admissible parameter value (log 5). There is no free value: where the spec leaves a value open, it names a parameter. -/

namespace Sys2Proof

/-- `REG_WIDTH_MODE`, the register-width mode of the register dump (R8). -/
inductive RegWidth where
  | w32
  | w64
  deriving DecidableEq, Repr

/-- `ERRCODE`: the negative result of `step` for each error class (R9, R281). -/
structure ErrCodes where
  opcode : Int
  addrMode : Int
  regOp : Int
  subOp : Int
  noMem : Int
  prefixPair : Int
  deriving DecidableEq, Repr

/-- Presence of each DebugBridge slot (R50, R260). -/
structure Slots where
  question : Bool
  getRegs : Bool
  readMem : Bool
  stepi : Bool
  cont : Bool
  kill : Bool
  intr : Bool
  deriving DecidableEq, Repr

/-- The parameters of one instance (R8, R9, R50). `ROM_IMAGE` and `RAM_INIT` are the two further arguments of
`State.resetWith`. `dump64Len = none` says that no value of `DUMP64_LEN` is given (R262). -/
structure Config where
  ramSize : Nat
  regWidth : RegWidth
  stopStatus : List Byte
  slots : Slots
  incAxAfClears : Bool
  xorOpcode : Byte
  movRROpcode : Byte
  dump64Len : Option Nat
  errCodes : ErrCodes
  resetGpr : Word
  resetFlags : Word
  resetIp : Word
  resetCs : Word
  resetSs : Word
  resetDs : Word
  resetEs : Word
  deriving DecidableEq, Repr

/-- The defaults of R8 and R9. DESIGN CHOICE (log 5): every slot is present, the spec gives no default; unsafe. -/
def Config.default : Config where
  ramSize := 0x80000
  regWidth := .w32
  stopStatus := [0x53#8, 0x30#8, 0x35#8]
  slots := ⟨true, true, true, true, true, true, true⟩
  incAxAfClears := false
  xorOpcode := 0x33#8
  movRROpcode := 0x8B#8
  dump64Len := none
  errCodes := ⟨-1, -2, -3, -4, -5, -6⟩
  resetGpr := 0x0000#16
  resetFlags := 0x0000#16
  resetIp := 0x0000#16
  resetCs := 0xFFFF#16
  resetSs := 0x0000#16
  resetDs := 0x0000#16
  resetEs := 0x0000#16

end Sys2Proof
end

