-- ==== Sys2Proof/Syntax.lean ====
section
/-! DEFINITION. The instructions of the block as syntax: one constructor for each row of spec/opcode_table.json, the two
prefix rows and the four RSP rows among them (30_encoding.md R110, R113; 46_rsp_framer.md R245). -/

namespace Sys2Proof

/-- The eight 16-bit general registers, in number order (10_state.md R20). -/
inductive Reg16 where
  | ax | cx | dx | bx | sp | bp | si | di
  deriving DecidableEq, Repr

/-- The eight byte registers, in number order (10_state.md R22). -/
inductive Reg8 where
  | al | cl | dl | bl | ah | ch | dh | bh
  deriving DecidableEq, Repr

/-- The four segment registers, in number order (10_state.md R40). -/
inductive SReg where
  | es | cs | ss | ds
  deriving DecidableEq, Repr

/-- One constructor per row of the opcode table; each docstring names the row. -/
inductive Instr where
  /-- `ES:`, byte 26 (R140). -/
  | esOverride
  /-- `REPZ`, byte F3 (R141). -/
  | repz
  /-- `XOR AX,AX` (R150). -/
  | xorAxAx
  /-- `XOR DI,DI` (R151). -/
  | xorDiDi
  /-- `CMP r16,[DI]` (R152). -/
  | cmpRegDi (reg : Reg16)
  /-- `INC AX` (R153). -/
  | incAx
  /-- `INC AL` (R154). -/
  | incAl
  /-- `MOV [DI],DX` (R170). -/
  | movDiDx
  /-- `MOV SI,[imm16]` (R171). -/
  | movSiMem (disp : Word)
  /-- `MOV r16,r16` (R172). -/
  | movRegReg (dst src : Reg16)
  /-- `MOV ES,AX` (R173). -/
  | movEsAx
  /-- `MOV ES,BX` (R173). -/
  | movEsBx
  /-- `MOV DS,AX` (R173). -/
  | movDsAx
  /-- `MOV DS,BX` (R173). -/
  | movDsBx
  /-- `MOV r8,imm8` (R174). -/
  | movReg8Imm (dst : Reg8) (imm : Byte)
  /-- `MOV r16,imm16` (R175). -/
  | movReg16Imm (dst : Reg16) (imm : Word)
  /-- `JNZ rel8` (R190). -/
  | jnz (rel : Byte)
  /-- `JMP far ptr16:ptr16` (R191): the offset word, then the segment word. -/
  | jmpFar (off seg : Word)
  /-- `STOSW`, repeated when a repeat prefix is outstanding (R200). -/
  | stosw
  /-- `NOP` (R210). -/
  | nop
  /-- `OUT imm8,AL` (R211). -/
  | outImmAl (port : Byte)
  /-- `OUT DX,AL` (R212). -/
  | outDxAl
  /-- `CLI` (R213). -/
  | cli
  /-- `CLD` (R214). -/
  | cld
  /-- RSP verb `?` (46_rsp_framer.md R228). -/
  | rspQuestion
  /-- RSP verb `g` (R229). -/
  | rspGetRegs
  /-- RSP verb `m` (R230); its two numbers stand in the accumulators of State. -/
  | rspReadMem
  /-- Any other RSP verb (R231), with its first payload byte. -/
  | rspUnknown (verb : Byte)
  deriving DecidableEq, Repr

end Sys2Proof
end

