-- ==== Sys2Proof/WellFormed.lean ====
section
/-! DEFINITION. What a term of `Instr` and a `Config` must satisfy to stand for something the spec admits. The operand
types admit no bad register number, so the one check on an instruction is the excluded first bytes of the row
`RSP_unknown` (spec/opcode_table.json, `excluded_first_bytes`); the checks on the parameters are those of R8, R9, R281
and D30. -/

namespace Sys2Proof

/-- The three verbs with a row of their own: `?`, `g`, `m` (46_rsp_framer.md R245). -/
def knownVerbs : List Byte := [0x3F#8, 0x67#8, 0x6D#8]

/-- A well-formed instruction: the row `RSP_unknown` excludes the three known verbs (R226, R245). -/
def Instr.wf : Instr → Bool
  | .rspUnknown v => !knownVerbs.contains v
  | _ => true

/-- The instruction is carried out by the RSP engine, not by the interpreter. -/
def Instr.isRsp : Instr → Bool
  | .rspQuestion | .rspGetRegs | .rspReadMem | .rspUnknown _ => true
  | _ => false

/-- The bytes a stop-status string may not contain: `$`, `#`, `}`, `*` (46_rsp_framer.md R240). -/
def framingBytes : List Byte := [0x24#8, 0x23#8, 0x7D#8, 0x2A#8]

/-- The payload holds none of the four bytes of R240. -/
def frameable (p : List Byte) : Bool := p.all fun b => !framingBytes.contains b

/-- The codes as a list, to say that they are distinct and negative (60_exceptions.md R280, R281). -/
def ErrCodes.toList (c : ErrCodes) : List Int :=
  [c.opcode, c.addrMode, c.regOp, c.subOp, c.noMem, c.prefixPair]

/-- Every code is negative and no two are equal (R281: "each result is negative and ... classes are distinct"). -/
def ErrCodes.wf (c : ErrCodes) : Bool :=
  c.toList.all (fun n => decide (n < 0)) && decide c.toList.Nodup

/-- `DUMP64_LEN`, where given, is at least 128 (R9). -/
def dump64LenWf : Option Nat → Bool
  | none => true
  | some n => decide (128 ≤ n)

/-- The ranges of R8 and R9. -/
def Config.wf (c : Config) : Bool :=
  decide (1 ≤ c.ramSize) && decide (c.ramSize ≤ 0x80000) &&
  (c.xorOpcode == 0x33#8 || c.xorOpcode == 0x31#8) &&
  (c.movRROpcode == 0x8B#8 || c.movRROpcode == 0x89#8) &&
  frameable c.stopStatus && c.errCodes.wf && dump64LenWf c.dump64Len

end Sys2Proof
end

