-- ==== Sys2Proof/Decode.lean ====
section
/-! DEFINITION. The decoder, total on any bytes and rejecting by the error class of the spec, and after it the encoder,
both written from 30_encoding.md R102 to R122. The RSP verbs are decoded from the first payload byte of a packet
(46_rsp_framer.md R226, R245). Every byte value but FE is the spec's own choice of the x86 encoding (log 21). -/

namespace Sys2Proof

/-! ### Bytes and words (R75, R106) -/

/-- The low byte of a word. -/
def Word.lo (w : Word) : Byte := w.extractLsb' 0 8

/-- The high byte of a word. -/
def Word.hi (w : Word) : Byte := w.extractLsb' 8 8

/-- A word from its low and its high byte: `lo + 256*hi` (R75, R106). -/
def mkWord (lo hi : Byte) : Word := hi ++ lo

/-! ### Register numbers -/

/-- Register number of a 16-bit register (10_state.md R20). -/
def Reg16.num : Reg16 → BitVec 3
  | .ax => 0#3 | .cx => 1#3 | .dx => 2#3 | .bx => 3#3
  | .sp => 4#3 | .bp => 5#3 | .si => 6#3 | .di => 7#3

/-- The 16-bit register with a given number (R20). -/
def Reg16.ofNum (n : BitVec 3) : Reg16 :=
  if n = 0#3 then .ax else if n = 1#3 then .cx else if n = 2#3 then .dx else if n = 3#3 then .bx
  else if n = 4#3 then .sp else if n = 5#3 then .bp else if n = 6#3 then .si else .di

/-- Register number of a byte register (10_state.md R22). -/
def Reg8.num : Reg8 → BitVec 3
  | .al => 0#3 | .cl => 1#3 | .dl => 2#3 | .bl => 3#3
  | .ah => 4#3 | .ch => 5#3 | .dh => 6#3 | .bh => 7#3

/-- The byte register with a given number (R22). -/
def Reg8.ofNum (n : BitVec 3) : Reg8 :=
  if n = 0#3 then .al else if n = 1#3 then .cl else if n = 2#3 then .dl else if n = 3#3 then .bl
  else if n = 4#3 then .ah else if n = 5#3 then .ch else if n = 6#3 then .dh else .bh

/-! ### The ModRM byte (R107) -/

/-- `mod`, bits 7:6. -/
def modOf (m : Byte) : BitVec 2 := m.extractLsb' 6 2

/-- `reg`, bits 5:3. -/
def regOf (m : Byte) : BitVec 3 := m.extractLsb' 3 3

/-- `rm`, bits 2:0. -/
def rmOf (m : Byte) : BitVec 3 := m.extractLsb' 0 3

/-- A ModRM byte from its three fields. -/
def mkModRM (md : BitVec 2) (reg rm : BitVec 3) : Byte := (md ++ reg) ++ rm

/-- The `[DI]` addressing mode: mod 0, rm 5 (R107). -/
def isMemDi (m : Byte) : Bool := modOf m == 0#2 && rmOf m == 5#3

/-- The direct 16-bit offset: mod 0, rm 6 (R107). -/
def isMemDirect (m : Byte) : Bool := modOf m == 0#2 && rmOf m == 6#3

/-- The register form: mod 3 (R107). -/
def isRegForm (m : Byte) : Bool := modOf m == 3#2

/-! ### Decoding -/

/-- Why bytes decode to no instruction: the classes of R112 and R120 with the bytes they carry (60_exceptions.md R281),
and `short` for a needed byte beyond the fetched view, which the interpreter reports as `E_NOMEM` (20_memory.md R74). -/
inductive DecodeError where
  | opcode (b0 : Byte) (next : List Byte)
  | addrMode (b0 modrm : Byte)
  | regOp (b0 modrm : Byte)
  | subOp (b0 modrm : Byte)
  | short
  deriving DecidableEq, Repr

/-- What decoding answers. -/
abbrev Decoded := Except DecodeError Instr

/-- Hands the next byte on, or reports that the view ends before it (R74). -/
def needByte (rest : List Byte) (k : Byte → List Byte → Decoded) : Decoded :=
  match rest with
  | [] => .error .short
  | b :: rest' => k b rest'

/-- Hands the next little-endian word on (R106). -/
def needWord (rest : List Byte) (k : Word → List Byte → Decoded) : Decoded :=
  needByte rest fun lo rest' => needByte rest' fun hi rest'' => k (mkWord lo hi) rest''

/-- Opcode `XOR_OPCODE`: only AX,AX and DI,DI (R108, R112). -/
def decodeXor (b0 m : Byte) : Decoded :=
  if isRegForm m then
    if regOf m = 0#3 ∧ rmOf m = 0#3 then .ok .xorAxAx
    else if regOf m = 7#3 ∧ rmOf m = 7#3 then .ok .xorDiDi
    else .error (.regOp b0 m)
  else .error (.addrMode b0 m)

/-- Opcode 3B: only `[DI]`, any register (R108, R112). -/
def decodeCmp (b0 m : Byte) : Decoded :=
  if isMemDi m then .ok (.cmpRegDi (Reg16.ofNum (regOf m))) else .error (.addrMode b0 m)

/-- Opcode 89: `MOV [DI],DX`, and the register form when `MOV_RR_OPCODE` is 89, whose destination is `x[rm]`
(R108, R112, R122). -/
def decode89 (cfg : Config) (b0 m : Byte) : Decoded :=
  if isMemDi m then
    if regOf m = 2#3 then .ok .movDiDx else .error (.regOp b0 m)
  else if isRegForm m && cfg.movRROpcode == 0x89#8 then
    .ok (.movRegReg (Reg16.ofNum (rmOf m)) (Reg16.ofNum (regOf m)))
  else .error (.addrMode b0 m)

/-- Opcode 8B: `MOV SI,[imm16]`, and the register form when `MOV_RR_OPCODE` is 8B (R108, R112, R122). -/
def decode8B (cfg : Config) (b0 m : Byte) (rest : List Byte) : Decoded :=
  if isMemDirect m then
    if regOf m = 6#3 then needWord rest fun d _ => .ok (.movSiMem d) else .error (.regOp b0 m)
  else if isRegForm m && cfg.movRROpcode == 0x8B#8 then
    .ok (.movRegReg (Reg16.ofNum (regOf m)) (Reg16.ofNum (rmOf m)))
  else .error (.addrMode b0 m)

/-- Opcode 8E: ES or DS from AX or BX (R108, R112). -/
def decode8E (b0 m : Byte) : Decoded :=
  if isRegForm m then
    if regOf m = 0#3 ∧ rmOf m = 0#3 then .ok .movEsAx
    else if regOf m = 0#3 ∧ rmOf m = 3#3 then .ok .movEsBx
    else if regOf m = 3#3 ∧ rmOf m = 0#3 then .ok .movDsAx
    else if regOf m = 3#3 ∧ rmOf m = 3#3 then .ok .movDsBx
    else .error (.regOp b0 m)
  else .error (.addrMode b0 m)

/-- Opcode FE: the INC member on AL; sub-opcode first, then mode, then register (R112). -/
def decodeFE (b0 m : Byte) : Decoded :=
  if regOf m = 0#3 then
    if isRegForm m then
      if rmOf m = 0#3 then .ok .incAl else .error (.regOp b0 m)
    else .error (.addrMode b0 m)
  else .error (.subOp b0 m)

/-- The decode procedure of R111 on a fetched view, keyed by its first byte (R110). Total: any bytes give an instruction
or an error. An empty view never arises (R74). -/
def decode (cfg : Config) (view : List Byte) : Decoded :=
  needByte view fun b0 rest =>
    if b0 = 0x26#8 then .ok .esOverride
    else if b0 = 0xF3#8 then .ok .repz
    else if b0 = cfg.xorOpcode then needByte rest fun m _ => decodeXor b0 m
    else if b0 = 0x3B#8 then needByte rest fun m _ => decodeCmp b0 m
    else if b0 = 0x89#8 then needByte rest fun m _ => decode89 cfg b0 m
    else if b0 = 0x8B#8 then needByte rest fun m rest' => decode8B cfg b0 m rest'
    else if b0 = 0x8E#8 then needByte rest fun m _ => decode8E b0 m
    else if b0 = 0xFE#8 then needByte rest fun m _ => decodeFE b0 m
    else if b0 = 0x40#8 then .ok .incAx
    else if b0.extractLsb' 3 5 = 0b10110#5 then
      needByte rest fun v _ => .ok (.movReg8Imm (Reg8.ofNum (rmOf b0)) v)
    else if b0.extractLsb' 3 5 = 0b10111#5 then
      needWord rest fun v _ => .ok (.movReg16Imm (Reg16.ofNum (rmOf b0)) v)
    else if b0 = 0x75#8 then needByte rest fun r _ => .ok (.jnz r)
    else if b0 = 0xEA#8 then needWord rest fun off rest' => needWord rest' fun seg _ => .ok (.jmpFar off seg)
    else if b0 = 0xAB#8 then .ok .stosw
    else if b0 = 0x90#8 then .ok .nop
    else if b0 = 0xE6#8 then needByte rest fun p _ => .ok (.outImmAl p)
    else if b0 = 0xEE#8 then .ok .outDxAl
    else if b0 = 0xFA#8 then .ok .cli
    else if b0 = 0xFC#8 then .ok .cld
    else .error (.opcode b0 (rest.take 3))

/-- The verb a packet's first payload byte selects; the row `RSP_unknown` is the default (R113, R226, R245). -/
def decodeVerb (v : Byte) : Instr :=
  if v = 0x3F#8 then .rspQuestion
  else if v = 0x67#8 then .rspGetRegs
  else if v = 0x6D#8 then .rspReadMem
  else .rspUnknown v

/-! ### Encoding -/

/-- `ib(0)` of the register-to-register MOV and its ModRM byte under the parameter `MOV_RR_OPCODE` (R122). -/
def encodeMovRR (cfg : Config) (dst src : Reg16) : List Byte :=
  if cfg.movRROpcode = 0x89#8 then [0x89#8, mkModRM 3#2 src.num dst.num]
  else [0x8B#8, mkModRM 3#2 dst.num src.num]

/-- The bytes of an instruction (R105 to R110, R122); of an RSP verb, its first payload byte (R245). -/
def encode (cfg : Config) : Instr → List Byte
  | .esOverride => [0x26#8]
  | .repz => [0xF3#8]
  | .xorAxAx => [cfg.xorOpcode, 0xC0#8]
  | .xorDiDi => [cfg.xorOpcode, 0xFF#8]
  | .cmpRegDi r => [0x3B#8, mkModRM 0#2 r.num 5#3]
  | .incAx => [0x40#8]
  | .incAl => [0xFE#8, 0xC0#8]
  | .movDiDx => [0x89#8, 0x15#8]
  | .movSiMem d => [0x8B#8, 0x36#8, d.lo, d.hi]
  | .movRegReg dst src => encodeMovRR cfg dst src
  | .movEsAx => [0x8E#8, 0xC0#8]
  | .movEsBx => [0x8E#8, 0xC3#8]
  | .movDsAx => [0x8E#8, 0xD8#8]
  | .movDsBx => [0x8E#8, 0xDB#8]
  | .movReg8Imm r v => [0b10110#5 ++ r.num, v]
  | .movReg16Imm r v => [0b10111#5 ++ r.num, v.lo, v.hi]
  | .jnz rel => [0x75#8, rel]
  | .jmpFar off seg => [0xEA#8, off.lo, off.hi, seg.lo, seg.hi]
  | .stosw => [0xAB#8]
  | .nop => [0x90#8]
  | .outImmAl p => [0xE6#8, p]
  | .outDxAl => [0xEE#8]
  | .cli => [0xFA#8]
  | .cld => [0xFC#8]
  | .rspQuestion => [0x3F#8]
  | .rspGetRegs => [0x67#8]
  | .rspReadMem => [0x6D#8]
  | .rspUnknown v => [v]

/-- The length L of an instruction in bytes (R102); of an RSP verb, its one first payload byte. -/
def Instr.length : Instr → Nat
  | .esOverride | .repz | .incAx | .stosw | .nop | .outDxAl | .cli | .cld => 1
  | .xorAxAx | .xorDiDi | .cmpRegDi _ | .incAl | .movDiDx | .movRegReg _ _ => 2
  | .movEsAx | .movEsBx | .movDsAx | .movDsBx | .movReg8Imm _ _ | .jnz _ | .outImmAl _ => 2
  | .movReg16Imm _ _ => 3
  | .movSiMem _ => 4
  | .jmpFar _ _ => 5
  | .rspQuestion | .rspGetRegs | .rspReadMem | .rspUnknown _ => 1

/-! ### Words as the opcode table numbers them -/

/-- The five bytes, first byte first, of an instruction whose bits are `w` numbered from the least significant bit of
its first byte; every bit at or above `nbits` is 0. Five is the longest instruction (R100). -/
def tableBytes (nbits w : Nat) : List Byte :=
  (List.range 5).map fun i => BitVec.ofNat 8 ((w % 2 ^ nbits) / 2 ^ (8 * i))

/-- The instruction the table word stands for under the default parameters. A one-byte word that is no first byte of
R110 is read as the first payload byte of a packet, which is what the four RSP rows match on (R113, R245; log 8). -/
def decodeTableWord (nbits w : Nat) : Option Instr :=
  match decode Config.default (tableBytes nbits w) with
  | .ok i => some i
  | .error (.opcode b0 _) => if nbits = 8 then some (decodeVerb b0) else none
  | .error _ => none

end Sys2Proof
end

