-- ==== Sys2Proof/Machine/Memory.lean ====
section
/-! DEFINITION. The three byte arrays of the MemoryBus (10_state.md R51) as plain data. Each array is a list of
(offset, byte) cells in one canonical form: offsets strictly rising, and no cell equal to what an unlisted offset reads
as. -/

namespace Sys2Proof.Machine

/-- The three regions of R63 and R64. -/
inductive Region where
  | ram
  | rom
  | scratch
  deriving DecidableEq, Repr

/-- What an offset with no cell reads as. The scratch byte is the sentinel of 20_memory.md R69; RAM and ROM are 0x00,
which R9 allows a simulator for `RAM_INIT`, and for the ROM before an image is loaded (log 3).
DESIGN CHOICE for RAM and ROM; unsafe. -/
def Region.fill : Region → Byte
  | .ram => 0x00#8
  | .rom => 0x00#8
  | .scratch => 0xCC#8

/-- One byte array: its cells. -/
abbrev Mem := List Host.Cell

/-- The byte at offset `a`; `fill` where no cell lists it. -/
def Mem.lookup (fill : Byte) : Mem → Nat → Byte
  | [], _ => fill
  | (k, v) :: rest, a => if a = k then v else Mem.lookup fill rest a

/-- Writes `x` at offset `a`, keeping the canonical form: writing `fill` removes the cell. -/
def Mem.store (fill : Byte) : Mem → Nat → Byte → Mem
  | [], a, x => if x = fill then [] else [(a, x)]
  | (k, v) :: rest, a, x =>
    if a < k then (if x = fill then (k, v) :: rest else (a, x) :: (k, v) :: rest)
    else if a = k then (if x = fill then rest else (a, x) :: rest)
    else (k, v) :: Mem.store fill rest a x

/-- The canonical form from offset `lo` on: offsets strictly rising from `lo`, no cell equal to `fill`. -/
def Mem.wfFrom (fill : Byte) : Nat → Mem → Bool
  | _, [] => true
  | lo, (k, v) :: rest => decide (lo ≤ k) && v != fill && Mem.wfFrom fill (k + 1) rest

/-- The canonical form. -/
def Mem.wf (fill : Byte) (m : Mem) : Bool := Mem.wfFrom fill 0 m

/-- Every listed offset is below `n`. -/
def Mem.below (n : Nat) (m : Mem) : Bool := m.all fun c => decide (c.1 < n)

/-- The canonical array that holds the given cells, a later cell winning over an earlier one at the same offset; cells
at or beyond `size` are dropped. -/
def Mem.ofCells (fill : Byte) (size : Nat) (cells : List Host.Cell) : Mem :=
  cells.foldl (fun m c => if c.1 < size then Mem.store fill m c.1 c.2 else m) []

/-- The MemoryBus: `RAM`, `ROM`, `SCR` and `SCRLEN` (R51). -/
structure Bus where
  ram : Mem
  rom : Mem
  scr : Mem
  scrLen : Nat
  deriving DecidableEq, Repr

/-- The cells of a region. -/
def Bus.cells (b : Bus) : Region → Mem
  | .ram => b.ram
  | .rom => b.rom
  | .scratch => b.scr

/-- The byte at offset `k` of a region: the model's read of one byte. -/
def Bus.get (b : Bus) (r : Region) (k : Nat) : Byte := Mem.lookup r.fill (b.cells r) k

/-- Writes one byte at offset `k` of a region. -/
def Bus.put (b : Bus) (r : Region) (k : Nat) (x : Byte) : Bus :=
  match r with
  | .ram => { b with ram := Mem.store Region.ram.fill b.ram k x }
  | .rom => { b with rom := Mem.store Region.rom.fill b.rom k x }
  | .scratch => { b with scr := Mem.store Region.scratch.fill b.scr k x }

/-- The size of the ROM region: 65536 bytes (R10). -/
def romSize : Nat := 0x10000

/-- The canonical form of all three arrays, with every listed offset inside its region: RAM below `RAM_SIZE`, ROM below
65536, scratch below `SCRLEN` (R51). -/
def Bus.wf (cfg : Config) (b : Bus) : Bool :=
  Mem.wf Region.ram.fill b.ram && Mem.below cfg.ramSize b.ram &&
  Mem.wf Region.rom.fill b.rom && Mem.below romSize b.rom &&
  Mem.wf Region.scratch.fill b.scr && Mem.below b.scrLen b.scr

/-- The MemoryBus at reset: `RAM_INIT` and `ROM_IMAGE` as given, the scratch buffer empty (R52). -/
def Bus.init (cfg : Config) (ramInit romImage : List Host.Cell) : Bus where
  ram := Mem.ofCells Region.ram.fill cfg.ramSize ramInit
  rom := Mem.ofCells Region.rom.fill romSize romImage
  scr := []
  scrLen := 0

end Sys2Proof.Machine
end

