-- ==== Sys2Proof/Machine/State.lean ====
section
/-! DEFINITION. The state of the block, as plain data: everything 10_state.md, 20_memory.md and 46_rsp_framer.md name,
and six fields of the model's own for the inputs that wait, whose turn it is, and the outputs given out so far (logs 1, 6,
10, 16). -/

namespace Sys2Proof.Machine

/-- The eight 16-bit general registers (10_state.md R20). -/
structure Regs where
  ax : Word
  cx : Word
  dx : Word
  bx : Word
  sp : Word
  bp : Word
  si : Word
  di : Word
  deriving DecidableEq, Repr

/-- The four segment registers (10_state.md R40). -/
structure SRegs where
  es : Word
  cs : Word
  ss : Word
  ds : Word
  deriving DecidableEq, Repr

/-- `default_segment` (10_state.md R45). -/
inductive DataSeg where
  | ds
  | es
  deriving DecidableEq, Repr

/-- `default_repeat` (10_state.md R45); `repNZ` is unreachable (R47). -/
inductive Repeat where
  | none
  | repNZ
  | repZ
  deriving DecidableEq, Repr

/-- The error classes of `step` with the information each carries (60_exceptions.md R281). In `opcode`, `next` holds
`ib(1)` to `ib(3)` as far as they are available (30_encoding.md R120). -/
inductive StepError where
  | opcode (b0 : Byte) (next : List Byte)
  | addrMode (b0 modrm : Byte)
  | regOp (b0 modrm : Byte)
  | subOp (b0 modrm : Byte)
  | noMem (addr : Nat)
  | prefixPair (b0 : Byte)
  deriving DecidableEq, Repr

/-- The result of one `step` (30_encoding.md R103): 0, 1 or negative. -/
inductive StepResult where
  | done
  | prefixDone
  | error (e : StepError)
  deriving DecidableEq, Repr

/-- Session state `sess` (46_rsp_framer.md R221). -/
inductive Session where
  | listening
  | accepted
  deriving DecidableEq, Repr

/-- The verbs with a service of their own (46_rsp_framer.md R225). -/
inductive Verb where
  | question
  | getRegs
  | readMem
  deriving DecidableEq, Repr

/-- Receive state `rx` (46_rsp_framer.md R225); `trailer0 v` is `TRAILER(v, 0)` and so on. -/
inductive RxState where
  | idle
  | verb
  | delim (v : Verb)
  | mAddr
  | mLen
  | trailer0 (v : Verb)
  | trailer1 (v : Verb)
  | skip
  | skipTrailer0
  | skipTrailer1
  deriving DecidableEq, Repr

/-- The DebugBridge slots (47_debug_bridge.md R260). -/
inductive Slot where
  | question
  | getRegs
  | readMem
  | stepi
  | cont
  | kill
  | intr
  deriving DecidableEq, Repr

/-- What the host does at one boundary between steps (00_scope.md R12, 47_debug_bridge.md R260 to R268; log 25). `quiet`
is a boundary at which it does nothing, so a list of them places a call at any later boundary. The interpreter's own
`step` is no call of the host: the CPU runs only under `stepi` and `cont` (70_reset_and_hazards.md R311). -/
inductive HostCall where
  | quiet
  | kill
  | intr
  | stepi
  | cont
  | question
  | getRegs
  | readMem (addr len : DWord)
  deriving DecidableEq, Repr

/-- What reaches the RSP engine from the transport, in order (46_rsp_framer.md R220). `shortWriteAfter k`: from now on
the client takes `k` more bytes, and the write that exceeds them comes up short (R242; log 10). -/
inductive WireEvent where
  | connect
  | rx (b : Byte)
  | hangup
  | shortWriteAfter (k : Nat)
  deriving DecidableEq, Repr

/-- Which run loop is in progress (47_debug_bridge.md R265, R266). -/
inductive RunLoop where
  | idle
  | stepi
  | cont
  deriving DecidableEq, Repr

/-- What the block hands out: bytes to the client (R220), the trace event of OUT (45_system_io.md R211, R212), the value
a host call returns (R261 to R266), the log line of a call through an absent slot, the host's or a verb's (R228, R260;
log 18). -/
inductive Output where
  | tx (bytes : List Byte)
  | ioWrite (port : Word) (value : Byte)
  | returned (value : List Byte)
  | unsupported (slot : Slot)
  deriving DecidableEq, Repr

/-- The whole state. The fields from `run` on are the model's own. -/
structure State where
  /-- `x[0]` to `x[7]` (R20) -/
  regs : Regs
  /-- `s[0]` to `s[3]` (R40) -/
  sregs : SRegs
  /-- `IP`, `pc` (R25) -/
  ip : Word
  /-- `FLAGS` (R30) -/
  flags : Word
  /-- `default_segment` (R45) -/
  dseg : DataSeg
  /-- `default_repeat` (R45) -/
  drep : Repeat
  /-- the sticky flag `kill` (R49) -/
  kill : Bool
  /-- the sticky flag `intr` (R49) -/
  intr : Bool
  /-- `RAM`, `ROM`, `SCR`, `SCRLEN` (R51) -/
  bus : Bus
  /-- session state (R221) -/
  sess : Session
  /-- receive state (R225) -/
  rx : RxState
  /-- running checksum (R225) -/
  csum : Byte
  /-- `acc_addr` (R225) -/
  accAddr : DWord
  /-- `acc_len` (R225) -/
  accLen : DWord
  /-- first trailer byte (R225) -/
  t0 : Byte
  /-- the configuration inputs, constant after reset (R50; log 5) -/
  cfg : Config
  /-- which run loop is in progress (R265, R266; log 6) -/
  run : RunLoop
  /-- the host's schedule of calls (R264 to R268; logs 6, 25) -/
  calls : List HostCall
  /-- the events waiting in the transport (R220, R235; log 6) -/
  wire : List WireEvent
  /-- how many more bytes the client takes, where a write will come up short (R242; log 10) -/
  txRoom : Option Nat
  /-- what the last `step` returned to its caller (R103; log 1) -/
  res : Option StepResult
  /-- everything handed out so far, oldest first (log 16) -/
  out : List Output
  deriving DecidableEq, Repr

/-- Why the machine stops with a fault. -/
inductive Fault where
  /-- Raised by a host call of `stepi`, `cont`, `get_regs` or `read_mem` that lands while a run loop is in
  progress: R268 and R321 forbid it and the spec gives no order for it, a race (log 15). Safe: the model stops. -/
  | overlappingCall
  deriving DecidableEq, Repr

/-- Why the machine refuses. -/
inductive Refusal where
  /-- Raised by an arm of `exec` whose instruction has no meaning yet; no arm of this model does. Safe. -/
  | notModelled (mnemonic : String)
  /-- Raised by the register dump in 64-bit mode when no value of `DUMP64_LEN` is given: "a model that has no value for
  `DUMP64_LEN` must refuse 64-bit mode" (47_debug_bridge.md R262; log 13). Safe: the model stops. -/
  | dump64LenOpen
  deriving DecidableEq, Repr

/-- What an instruction's meaning and a step answer. -/
abbrev Result := Host.Outcome State Fault Refusal

/-- Reset is the creation of an instance with given parameters (70_reset_and_hazards.md R310): every field at the value
10_state.md R56 lists for it. The model's own fields start empty (logs 1, 6, 10, 16); `t0`, which R56 does not name, at
0 (log 12). -/
def State.resetWith (cfg : Config) (ramInit romImage : List Host.Cell) : State where
  regs := ⟨cfg.resetGpr, cfg.resetGpr, cfg.resetGpr, cfg.resetGpr, cfg.resetGpr, cfg.resetGpr, cfg.resetGpr,
    cfg.resetGpr⟩
  sregs := ⟨cfg.resetEs, cfg.resetCs, cfg.resetSs, cfg.resetDs⟩
  ip := cfg.resetIp
  flags := cfg.resetFlags
  dseg := .ds
  drep := .none
  kill := false
  intr := false
  bus := Bus.init cfg ramInit romImage
  sess := .listening
  rx := .idle
  csum := 0x00#8
  accAddr := 0#32
  accLen := 0#32
  t0 := 0x00#8
  cfg := cfg
  run := .idle
  calls := []
  wire := []
  txRoom := none
  res := none
  out := []

/-- The machine right after reset under the default parameters, no image loaded (R56, R310; logs 2, 3, 19). -/
def State.reset : State := State.resetWith Config.default [] []

end Sys2Proof.Machine
end

