-- ==== Sys2Proof/Machine/Ops.lean ====
section
/-! DEFINITION. The shared operations over memory and the outcome of a step: address formation and the MemoryBus
(20_memory.md R61 to R74), the epilogue of an instruction (30_encoding.md R104), and taking an error, the one exceptional
event of the block (60_exceptions.md R280 to R287). -/

namespace Sys2Proof.Machine

/-! ### Address formation and the MemoryBus -/

/-- `PA(seg, off) = seg*16 + off`, without truncation (R61). -/
def physAddr (seg off : Word) : Nat := seg.toNat * 16 + off.toNat

/-- The region the first address of a request selects (R64). -/
def regionOf (cfg : Config) (a : Nat) : Region :=
  if a < cfg.ramSize then .ram
  else if 0xF0000 ≤ a ∧ a ≤ 0xFFFFF then .rom
  else .scratch

/-- What `Resolve` returns: region, offset, effective length (R65). -/
structure View where
  region : Region
  offset : Nat
  len : Nat
  deriving DecidableEq, Repr

/-- `Resolve(a, n)` (R65). The growth of the scratch buffer that goes with it is `Bus.grow`. -/
def resolve (cfg : Config) (a n : Nat) : View :=
  match regionOf cfg a with
  | .ram => ⟨.ram, a, min n (cfg.ramSize - a)⟩
  | .rom => ⟨.rom, a - 0xF0000, min n (0x100000 - a)⟩
  | .scratch => ⟨.scratch, 0, n⟩

/-- `grow_scratch(n)` for a request resolved to the scratch region, nothing for another (R65, R69). New bytes are 0xCC,
which is what an unlisted scratch offset reads as. -/
def Bus.grow (v : View) (b : Bus) : Bus :=
  match v.region with
  | .scratch => { b with scrLen := max b.scrLen v.len }
  | .ram | .rom => b

/-- The `len` bytes from offset `off` of a region. -/
def Bus.readFrom (b : Bus) (r : Region) (off len : Nat) : List Byte :=
  (List.range len).map fun i => b.get r (off + i)

/-- Stores bytes from offset `off` of a region upward. -/
def Bus.writeFrom (b : Bus) (r : Region) (off : Nat) : List Byte → Bus
  | [] => b
  | x :: xs => (b.put r off x).writeFrom r (off + 1) xs

/-- `BusRead(a, n)` (R67): the bytes of the view, and the bus with the scratch buffer grown. -/
def busRead (cfg : Config) (b : Bus) (a n : Nat) : List Byte × Bus :=
  let v := resolve cfg a n
  ((b.grow v).readFrom v.region v.offset v.len, b.grow v)

/-- `BusWrite(a, bytes)` (R68): bytes beyond the effective length are dropped. -/
def busWrite (cfg : Config) (b : Bus) (a : Nat) (bytes : List Byte) : Bus :=
  let v := resolve cfg a bytes.length
  (b.grow v).writeFrom v.region v.offset (bytes.take v.len)

/-- The two widths of a checked access (R72, R73). -/
inductive Width where
  | byte
  | word
  deriving DecidableEq, Repr

/-- Number of bytes. -/
def Width.bytes : Width → Nat
  | .byte => 1
  | .word => 2

/-- The value of the bytes read, low byte first (R72, R75). -/
def littleEndian : List Byte → Word
  | [] => 0#16
  | [lo] => mkWord lo 0#8
  | lo :: hi :: _ => mkWord lo hi

/-- The bytes of a value, low byte first (R73, R75). -/
def Width.split (w : Width) (v : Word) : List Byte :=
  match w with
  | .byte => [v.lo]
  | .word => [v.lo, v.hi]

/-- `MemRead(a, n)` (R72): the value and the state after the access, or `E_NOMEM(a)` when the bus truncates. -/
def memRead (w : Width) (a : Nat) (s : State) : Except StepError (Word × State) :=
  let r := busRead s.cfg s.bus a w.bytes
  if r.1.length < w.bytes then .error (.noMem a) else .ok (littleEndian r.1, { s with bus := r.2 })

/-- `MemWrite(a, n, v)` (R73): the state after the store, or `E_NOMEM(a)` with nothing written. -/
def memWrite (w : Width) (a : Nat) (v : Word) (s : State) : Except StepError State :=
  if (resolve s.cfg a w.bytes).len < w.bytes then .error (.noMem a)
  else .ok { s with bus := busWrite s.cfg s.bus a (w.split v) }

/-! ### How a step ends -/

/-- A prefix is outstanding: `dseg != DS or drep != None` (30_encoding.md R111, 40_prefixes.md R142). -/
def State.prefixed (s : State) : Bool := s.dseg != .ds || s.drep != .none

/-- The epilogue of a step with result 0 whose instruction leaves `pc` at `target` (R104). -/
def finishAt (target : Word) (s : State) : State :=
  { s with ip := target, dseg := .ds, drep := .none, res := some .done }

/-- The epilogue of a step with result 0 whose instruction does not write `pc`: `pc <- IP + L` (R104), modulo 2^16
(10_state.md R27). -/
def finish (len : Nat) (s : State) : State := finishAt (s.ip + BitVec.ofNat 16 len) s

/-- The epilogue of a step with result 1: `pc <- IP + 1`, the prefix state left as the prefix set it (R104). -/
def finishPrefix (s : State) : State := { s with ip := s.ip + 1#16, res := some .prefixDone }

/-- Taking an error (60_exceptions.md R283, R285, R286): nothing is saved, no control is transferred and nothing of the
state changes; the class and its information go to the caller as the result. There is no return from it (R287). The run
loop that called `step` ends on seeing the result (`runLoopIteration`). -/
def raise (e : StepError) (s : State) : Result := .next { s with res := some (.error e) }

/-- `ERRCODE` (60_exceptions.md R281). -/
def StepError.code (c : ErrCodes) : StepError → Int
  | .opcode _ _ => c.opcode
  | .addrMode _ _ => c.addrMode
  | .regOp _ _ => c.regOp
  | .subOp _ _ => c.subOp
  | .noMem _ => c.noMem
  | .prefixPair _ => c.prefixPair

/-- The number `step` returns: 0, 1 or a negative code (30_encoding.md R103). -/
def StepResult.code (c : ErrCodes) : StepResult → Int
  | .done => 0
  | .prefixDone => 1
  | .error e => e.code c

/-- Hands something out (log 16). -/
def emit (o : Output) (s : State) : State := { s with out := s.out ++ [o] }

end Sys2Proof.Machine
end

