-- ==== Sys2Proof/Machine/Flags.lean ====
section
/-! DEFINITION. The flags word and every flag computation the spec gives (10_state.md R30 to R34). FLAGS is one 16-bit
word with named bits, so that the unnamed bits keep their value. -/

namespace Sys2Proof.Machine

/-- The nine named flags (R30). -/
inductive Flag where
  | carry | parity | auxCarry | zero | sign | trap | interrupt | direction | overflow
  deriving DecidableEq, Repr

/-- Bit number in FLAGS (R30). -/
def Flag.bit : Flag → Nat
  | .carry => 0 | .parity => 2 | .auxCarry => 4 | .zero => 6 | .sign => 7
  | .trap => 8 | .interrupt => 9 | .direction => 10 | .overflow => 11

/-- The flag's value in a flags word. -/
def flagOf (f : Flag) (w : Word) : Bool := w.getLsbD f.bit

/-- The flags word with one flag written and every other bit kept. -/
def withFlag (f : Flag) (b : Bool) (w : Word) : Word :=
  if b then w ||| (1#16 <<< f.bit) else w &&& ~~~(1#16 <<< f.bit)

/-- `popcount(v)` (R13). -/
def popcount (v : Word) : Nat := ((List.range 16).filter fun i => v.getLsbD i).length

/-- `parity16(v)`: the count of one bits is even, over all 16 bits (R31). -/
def parity16 (v : Word) : Bool := popcount v % 2 == 0

/-- The zero rule (R32). -/
def isZero (v : Word) : Bool := v == 0#16

/-- The zero and parity flags of a result (R31, R32). -/
def zeroParityOf (r : Word) (w : Word) : Word := withFlag .parity (parity16 r) (withFlag .zero (isZero r) w)

/-- The auxiliary-carry rule of INC AX (41_alu.md R153): set when the old low byte was FF, else kept, or cleared where
`INC_AX_AF_CLEARS` says so. -/
def auxCarryOfInc (clears : Bool) (old : Word) (w : Word) : Word :=
  if old.lo = 0xFF#8 then withFlag .auxCarry true w
  else if clears then withFlag .auxCarry false w else w

/-- Writes the flags word. -/
def setFlags (w : Word) (s : State) : State := { s with flags := w }

end Sys2Proof.Machine
end

