-- ==== Sys2Proof/Machine/Operands.lean ====
section
/-! DEFINITION. The operand forms: the general registers and their byte halves (10_state.md R20 to R22), the segment
registers (R40), and the memory operands `[DI]` and `[imm16]` in the segment the prefix state selects (20_memory.md R62).
-/

namespace Sys2Proof.Machine

/-- `x[i]` (R20). -/
def Regs.get (x : Regs) : Reg16 → Word
  | .ax => x.ax | .cx => x.cx | .dx => x.dx | .bx => x.bx
  | .sp => x.sp | .bp => x.bp | .si => x.si | .di => x.di

/-- `x[i] <- v` (R14, R20): exactly that register. -/
def Regs.set (x : Regs) (r : Reg16) (v : Word) : Regs :=
  match r with
  | .ax => { x with ax := v }
  | .cx => { x with cx := v }
  | .dx => { x with dx := v }
  | .bx => { x with bx := v }
  | .sp => { x with sp := v }
  | .bp => { x with bp := v }
  | .si => { x with si := v }
  | .di => { x with di := v }

/-- The register a byte register is a half of (R22). -/
def parentOf : Reg8 → Reg16
  | .al | .ah => .ax
  | .cl | .ch => .cx
  | .dl | .dh => .dx
  | .bl | .bh => .bx

/-- The byte register is the high half of its parent (R22). -/
def isHighHalf : Reg8 → Bool
  | .al | .cl | .dl | .bl => false
  | .ah | .ch | .dh | .bh => true

/-- `b[j]` (R14, R22). -/
def Regs.getByte (x : Regs) (r : Reg8) : Byte :=
  if isHighHalf r then (x.get (parentOf r)).hi else (x.get (parentOf r)).lo

/-- `b[j] <- v` (R14, R21): the other half of the parent is unchanged. -/
def Regs.setByte (x : Regs) (r : Reg8) (v : Byte) : Regs :=
  x.set (parentOf r)
    (if isHighHalf r then mkWord (x.get (parentOf r)).lo v else mkWord v (x.get (parentOf r)).hi)

/-- `s[k]` (R40). -/
def SRegs.get (x : SRegs) : SReg → Word
  | .es => x.es | .cs => x.cs | .ss => x.ss | .ds => x.ds

/-- `s[k] <- v` (R40, R42): any value, no check. -/
def SRegs.set (x : SRegs) (r : SReg) (v : Word) : SRegs :=
  match r with
  | .es => { x with es := v }
  | .cs => { x with cs := v }
  | .ss => { x with ss := v }
  | .ds => { x with ds := v }

/-- Writes a general register. -/
def setReg (r : Reg16) (v : Word) (s : State) : State := { s with regs := s.regs.set r v }

/-- Writes a byte register. -/
def setReg8 (r : Reg8) (v : Byte) (s : State) : State := { s with regs := s.regs.setByte r v }

/-- Writes a segment register. -/
def setSReg (r : SReg) (v : Word) (s : State) : State := { s with sregs := s.sregs.set r v }

/-- `SEGVAL`: the value of the segment register `dseg` names (R62). -/
def State.segVal (s : State) : Word :=
  match s.dseg with
  | .es => s.sregs.es
  | .ds => s.sregs.ds

/-- The physical address of the operand `[DI]` (R62, R107). -/
def addrDi (s : State) : Nat := physAddr s.segVal s.regs.di

/-- The physical address of the operand `[disp16]` (R62, R107). -/
def addrDirect (disp : Word) (s : State) : Nat := physAddr s.segVal disp

/-- The physical address STOSW stores to: always ES (R62, 44_string.md R200). -/
def addrStos (s : State) : Nat := physAddr s.sregs.es s.regs.di

/-- The physical address of the next fetch: always CS (R25, R62). -/
def addrFetch (s : State) : Nat := physAddr s.sregs.cs s.ip

end Sys2Proof.Machine
end

