-- ==== Sys2Proof/Machine/Alu.lean ====
section
/-! DEFINITION. Arithmetic and logic: XOR, CMP, INC (41_alu.md R150 to R156). -/

namespace Sys2Proof.Machine

/-- The two XOR forms: the register becomes 0, and ZF and PF are those of the result 0 (R150, R151). -/
def xorSelf (r : Reg16) (s : State) : Result :=
  let v := s.regs.get r ^^^ s.regs.get r
  .next (finish 2 (setFlags (zeroParityOf v s.flags) (setReg r v s)))

/-- `XOR AX,AX` (R150). -/
def execXorAxAx (s : State) : Result := xorSelf .ax s

/-- `XOR DI,DI` (R151). -/
def execXorDiDi (s : State) : Result := xorSelf .di s

/-- `CMP r16,[DI]` (R152): ZF from the difference of the register and the memory word; no other flag. -/
def execCmpRegDi (r : Reg16) (s : State) : Result :=
  match memRead .word (addrDi s) s with
  | .error e => raise e s
  | .ok (m, s') =>
    .next (finish 2 (setFlags (withFlag .zero (isZero (s.regs.get r - m)) s.flags) s'))

/-- `INC AX` (R153): AF by its own rule, PF of the new value over 16 bits. -/
def execIncAx (s : State) : Result :=
  let old := s.regs.ax
  let new := old + 1#16
  .next (finish 1 (setFlags
    (withFlag .parity (parity16 new) (auxCarryOfInc s.cfg.incAxAfClears old s.flags)) (setReg .ax new s)))

/-- `INC AL` (R154): no carry into AH, no flag. -/
def execIncAl (s : State) : Result :=
  .next (finish 2 (setReg8 .al (s.regs.getByte .al + 1#8) s))

end Sys2Proof.Machine
end

