-- ==== Sys2Proof/Machine/Control.lean ====
section
/-! DEFINITION. Control transfer (43_control_transfer.md R190, R191). -/

namespace Sys2Proof.Machine

/-- `JNZ rel8` (R190): the displacement is zero-extended and added to the offset of the next instruction. -/
def execJnz (rel : Byte) (s : State) : Result :=
  let next := s.ip + 2#16
  .next (finishAt (if flagOf .zero s.flags then next else next + rel.setWidth 16) s)

/-- `JMP far ptr16:ptr16` (R191). -/
def execJmpFar (off seg : Word) (s : State) : Result := .next (finishAt off (setSReg .cs seg s))

end Sys2Proof.Machine
end

