-- ==== Sys2Proof/Machine/Mov.lean ====
section
/-! DEFINITION. Data movement (42_mov.md R170 to R175). No MOV writes a flag. -/

namespace Sys2Proof.Machine

/-- `MOV [DI],DX` (R170). -/
def execMovDiDx (s : State) : Result :=
  match memWrite .word (addrDi s) s.regs.dx s with
  | .error e => raise e s
  | .ok s' => .next (finish 2 s')

/-- `MOV SI,[imm16]` (R171). -/
def execMovSiMem (disp : Word) (s : State) : Result :=
  match memRead .word (addrDirect disp s) s with
  | .error e => raise e s
  | .ok (v, s') => .next (finish 4 (setReg .si v s'))

/-- `MOV r16,r16` (R172). -/
def execMovRegReg (dst src : Reg16) (s : State) : Result :=
  .next (finish 2 (setReg dst (s.regs.get src) s))

/-- The four forms of `MOV sreg,r16` (R173). -/
def movSReg (dst : SReg) (src : Reg16) (s : State) : Result :=
  .next (finish 2 (setSReg dst (s.regs.get src) s))

/-- `MOV ES,AX` (R173). -/
def execMovEsAx (s : State) : Result := movSReg .es .ax s

/-- `MOV ES,BX` (R173). -/
def execMovEsBx (s : State) : Result := movSReg .es .bx s

/-- `MOV DS,AX` (R173). -/
def execMovDsAx (s : State) : Result := movSReg .ds .ax s

/-- `MOV DS,BX` (R173). -/
def execMovDsBx (s : State) : Result := movSReg .ds .bx s

/-- `MOV r8,imm8` (R174). -/
def execMovReg8Imm (dst : Reg8) (imm : Byte) (s : State) : Result :=
  .next (finish 2 (setReg8 dst imm s))

/-- `MOV r16,imm16` (R175). -/
def execMovReg16Imm (dst : Reg16) (imm : Word) (s : State) : Result :=
  .next (finish 3 (setReg dst imm s))

end Sys2Proof.Machine
end

