-- ==== Sys2Proof/Machine/Prefix.lean ====
section
/-! DEFINITION. The two prefix bytes (40_prefixes.md R140 to R143). -/

namespace Sys2Proof.Machine

/-- At most one prefix may be outstanding: the second raises `E_PREFIX` and changes nothing (R142). -/
def takePrefix (b0 : Byte) (set : State → State) (s : State) : Result :=
  if s.prefixed then raise (.prefixPair b0) s else .next (finishPrefix (set s))

/-- `ES:` (R140). -/
def execEsOverride (s : State) : Result := takePrefix 0x26#8 (fun s => { s with dseg := .es }) s

/-- `REPZ` (R141). -/
def execRepz (s : State) : Result := takePrefix 0xF3#8 (fun s => { s with drep := .repZ }) s

end Sys2Proof.Machine
end

