-- ==== Sys2Proof/Machine/Bridge.lean ====
section
/-! DEFINITION. The DebugBridge operations that only report (47_debug_bridge.md R261 to R263), and the hex text they are
written in (46_rsp_framer.md R224). -/

namespace Sys2Proof.Machine

/-- `hexdigit(n)`, lowercase (R224). -/
def hexDigit (n : BitVec 4) : Byte :=
  if n.toNat < 10 then BitVec.ofNat 8 (0x30 + n.toNat) else BitVec.ofNat 8 (0x57 + n.toNat)

/-- `Hex2(v)`: the two digits of a byte, the more significant first (R224). -/
def hex2 (v : Byte) : List Byte := [hexDigit (v.extractLsb' 4 4), hexDigit (v.extractLsb' 0 4)]

/-- `Field(v)`: low byte, high byte, four zero digits (R262). -/
def dumpField (v : Word) : List Byte := hex2 v.lo ++ hex2 v.hi ++ List.replicate 4 0x30#8

/-- The sixteen values of the dump in their order; FS and GS are reported as zero (R262). -/
def dumpValues (s : State) : List Word :=
  [s.regs.ax, s.regs.cx, s.regs.dx, s.regs.bx, s.regs.sp, s.regs.bp, s.regs.si, s.regs.di, s.ip, s.flags,
    s.sregs.cs, s.sregs.ss, s.sregs.ds, s.sregs.es, 0#16, 0#16]

/-- `DUMP32` (R262). -/
def dump32 (s : State) : List Byte := (dumpValues s).flatMap dumpField

/-- The slot is present (10_state.md R50, R260). -/
def hasSlot (c : Slots) : Slot → Bool
  | .question => c.question
  | .getRegs => c.getRegs
  | .readMem => c.readMem
  | .stepi => c.stepi
  | .cont => c.cont
  | .kill => c.kill
  | .intr => c.intr

/-- A call through a slot: `call` where the slot is present; where it is absent the call is logged as unsupported, and its
caller goes on with `otherwise` (R260; 46_rsp_framer.md R228; log 18). -/
def withSlot (slot : Slot) (call otherwise : State → Result) (s : State) : Result :=
  match hasSlot s.cfg.slots slot with
  | true => call s
  | false => otherwise (emit (.unsupported slot) s)

/-- `question()`: the configured status string (R261). -/
def question (s : State) : List Byte := s.cfg.stopStatus

/-- `get_regs()` (R262). `none` where the dump is in 64-bit mode and no value of `DUMP64_LEN` is given, which "a model
that has no value for `DUMP64_LEN` must refuse" (log 13). -/
def getRegs (s : State) : Option (List Byte) :=
  match s.cfg.regWidth with
  | .w32 => some (dump32 s)
  | .w64 => s.cfg.dump64Len.map fun n => dump32 s ++ List.replicate (n - 128) 0x30#8

/-- `read_mem(addr, len)`: the dump, and the state with the scratch buffer grown by the request (R263). -/
def readMemory (addr len : DWord) (s : State) : List Byte × State :=
  let r := busRead s.cfg s.bus addr.toNat len.toNat
  (r.1.flatMap hex2, { s with bus := r.2 })

end Sys2Proof.Machine
end

