-- ==== Sys2Proof/Machine/Rsp.lean ====
section
/-! DEFINITION. The RSP engine's session, checksum and transmit framer (46_rsp_framer.md R220 to R224, R240 to R242), and
the meaning of the four RSP rows: what the engine does when the last trailer byte of a packet has arrived (R227 to R231;
log 9). -/

namespace Sys2Proof.Machine

/-- `Csum(p)`: the sum of the byte values modulo 256 (R224). -/
def checksum (p : List Byte) : Byte := p.foldl (fun acc b => acc + b) 0#8

/-- `Frame(p)` (R240). -/
def frame (p : List Byte) : List Byte := 0x24#8 :: p ++ 0x23#8 :: hex2 (checksum p)

/-- The acknowledgement `+` (R223). -/
def ackBytes : List Byte := [0x2B#8]

/-- `Connect` (R221): in state Accepted it has no effect. -/
def connect (s : State) : State :=
  match s.sess with
  | .listening => { s with sess := .accepted, rx := .idle }
  | .accepted => s

/-- `Hangup` (R222): back to Listening, the parser state discarded (log 12). The CPU, the memory and the two sticky flags
are not touched. -/
def hangup (s : State) : State :=
  { s with
    sess := .listening
    rx := .idle
    csum := 0x00#8
    accAddr := 0#32
    accLen := 0#32
    t0 := 0x00#8
    txRoom := none }

/-- `Tx(bytes)` (R220). A write the client takes only in part is a hang-up, and after a hang-up nothing further is
transmitted (R222, R242; log 10). -/
def tx (bytes : List Byte) (s : State) : State :=
  match s.sess with
  | .listening => s
  | .accepted =>
    match s.txRoom with
    | none => emit (.tx bytes) s
    | some room =>
      if bytes.length ≤ room then emit (.tx bytes) { s with txRoom := some (room - bytes.length) }
      else hangup (emit (.tx (bytes.take room)) s)

/-- The default empty reply `$#00` (R226, R240). -/
def emptyReply (s : State) : State := tx (frame []) s

/-- `Validate(csum, t0, t1)`: the comparison of the running sum with the two trailer bytes (R232). -/
def validate (csum t0 t1 : Byte) : Bool := hex2 csum == [t0, t1]

/-- A service begins with `Tx("+")` and ends in state IDLE (R227). If the `+` already came up short, no handler is called
(R222). -/
def serve (handler : State → Result) (s : State) : Result :=
  match (tx ackBytes s).sess with
  | .listening => .next (tx ackBytes s)
  | .accepted => handler { tx ackBytes s with rx := .idle }

/-- A service whose reply comes from a slot: without the slot the engine logs the verb as unsupported and falls through to
the empty reply (R228 to R230, 47_debug_bridge.md R260). -/
def serveSlot (slot : Slot) (handler : State → Result) (s : State) : Result :=
  serve (withSlot slot handler fun s => .next (emptyReply s)) s

/-- Verb `?` (R228). -/
def execRspQuestion (s : State) : Result :=
  serveSlot .question (fun s => .next (tx (frame (question s)) s)) s

/-- Verb `g` (R229). -/
def execRspGetRegs (s : State) : Result :=
  serveSlot .getRegs (fun s =>
    match getRegs s with
    | none => .refused .dump64LenOpen
    | some p => .next (tx (frame p) s)) s

/-- Verb `m` (R230): the two numbers are in the accumulators. -/
def execRspReadMem (s : State) : Result :=
  serveSlot .readMem (fun s =>
    .next (tx (frame (readMemory s.accAddr s.accLen s).1) (readMemory s.accAddr s.accLen s).2)) s

/-- Any other verb (R231): one `+`, one `$#00`, no handler. The verb byte does not matter. -/
def execRspUnknown (_verb : Byte) (s : State) : Result := serve (fun s => .next (emptyReply s)) s

end Sys2Proof.Machine
end

