-- ==== Sys2Proof/Machine/Str.lean ====
section
/-! DEFINITION. The string store (44_string.md R200). -/

namespace Sys2Proof.Machine

/-- One store of AX at `ES:DI`, then `DI <- DI + 2` modulo 2^16 (R200). DF is not read. -/
def stosOnce (s : State) : Except StepError State :=
  match memWrite .word (addrStos s) s.regs.ax s with
  | .error e => .error e
  | .ok s' => .ok (setReg .di (s.regs.di + 2#16) s')

/-- At most `n` iterations of the repeated form: CX is tested before each store and counted down after it (R200). On an
error the completed iterations stay, and the error is answered with the state they left (60_exceptions.md R285). -/
def stosLoop : Nat → State → State × Option StepError
  | 0, s => (s, none)
  | n + 1, s =>
    if s.regs.cx = 0#16 then (s, none)
    else
      match stosOnce s with
      | .error e => (s, some e)
      | .ok s' => stosLoop n (setReg .cx (s'.regs.cx - 1#16) s')

/-- `STOSW`, alone or repeated (R200). The repeated form runs until CX is 0, which takes as many iterations as CX holds
(log 22). -/
def execStosw (s : State) : Result :=
  match s.drep with
  | .none =>
    match stosOnce s with
    | .error e => raise e s
    | .ok s' => .next (finish 1 s')
  | .repNZ | .repZ =>
    match stosLoop s.regs.cx.toNat s with
    | (s', none) => .next (finish 1 s')
    | (s', some e) => raise e s'

end Sys2Proof.Machine
end

