-- ==== Sys2Proof/Machine/Sys.lean ====
section
/-! DEFINITION. NOP, port output and flag control (45_system_io.md R210 to R214). -/

namespace Sys2Proof.Machine

/-- `NOP` (R210). -/
def execNop (s : State) : Result := .next (finish 1 s)

/-- The port write of OUT: no actual I/O, only the event `IoWrite(port, AL)` (R211, R212; log 16). -/
def portWrite (port : Word) (s : State) : State := emit (.ioWrite port (s.regs.getByte .al)) s

/-- `OUT imm8,AL` (R211). -/
def execOutImmAl (port : Byte) (s : State) : Result := .next (finish 2 (portWrite (port.setWidth 16) s))

/-- `OUT DX,AL` (R212). -/
def execOutDxAl (s : State) : Result := .next (finish 1 (portWrite s.regs.dx s))

/-- `CLI` (R213). -/
def execCli (s : State) : Result := .next (finish 1 (setFlags (withFlag .interrupt false s.flags) s))

/-- `CLD` (R214). -/
def execCld (s : State) : Result := .next (finish 1 (setFlags (withFlag .direction false s.flags) s))

end Sys2Proof.Machine
end

