-- ==== Sys2Proof/Machine/Dispatch.lean ====
section
/-! DEFINITION. One arm per constructor of Instr, each one direct call of that instruction's own meaning. -/

namespace Sys2Proof.Machine

def exec (i : Instr) (s : State) : Host.Outcome State Fault Refusal :=
  match i with
  | .esOverride => Sys2Proof.Machine.execEsOverride s
  | .repz => Sys2Proof.Machine.execRepz s
  | .xorAxAx => Sys2Proof.Machine.execXorAxAx s
  | .xorDiDi => Sys2Proof.Machine.execXorDiDi s
  | .cmpRegDi reg => Sys2Proof.Machine.execCmpRegDi reg s
  | .incAx => Sys2Proof.Machine.execIncAx s
  | .incAl => Sys2Proof.Machine.execIncAl s
  | .movDiDx => Sys2Proof.Machine.execMovDiDx s
  | .movSiMem disp => Sys2Proof.Machine.execMovSiMem disp s
  | .movRegReg dst src => Sys2Proof.Machine.execMovRegReg dst src s
  | .movEsAx => Sys2Proof.Machine.execMovEsAx s
  | .movEsBx => Sys2Proof.Machine.execMovEsBx s
  | .movDsAx => Sys2Proof.Machine.execMovDsAx s
  | .movDsBx => Sys2Proof.Machine.execMovDsBx s
  | .movReg8Imm dst imm => Sys2Proof.Machine.execMovReg8Imm dst imm s
  | .movReg16Imm dst imm => Sys2Proof.Machine.execMovReg16Imm dst imm s
  | .jnz rel => Sys2Proof.Machine.execJnz rel s
  | .jmpFar off seg => Sys2Proof.Machine.execJmpFar off seg s
  | .stosw => Sys2Proof.Machine.execStosw s
  | .nop => Sys2Proof.Machine.execNop s
  | .outImmAl port => Sys2Proof.Machine.execOutImmAl port s
  | .outDxAl => Sys2Proof.Machine.execOutDxAl s
  | .cli => Sys2Proof.Machine.execCli s
  | .cld => Sys2Proof.Machine.execCld s
  | .rspQuestion => Sys2Proof.Machine.execRspQuestion s
  | .rspGetRegs => Sys2Proof.Machine.execRspGetRegs s
  | .rspReadMem => Sys2Proof.Machine.execRspReadMem s
  | .rspUnknown verb => Sys2Proof.Machine.execRspUnknown verb s

end Sys2Proof.Machine
end

