-- ==== Sys2Proof/Machine/Interp.lean ====
section
/-! DEFINITION. One call of the interpreter's `step`: fetch, decode, execute (30_encoding.md R101, R103, R111;
20_memory.md R74), and the placing of a word where the next step finds it. -/

namespace Sys2Proof.Machine

/-- The longest instruction in bytes, which is the length of a fetch request (R74, R100). -/
def fetchLen : Nat := 5

/-- The view `F` at `CS:IP` (R74), and the state after the request. -/
def fetch (s : State) : List Byte × State :=
  let r := busRead s.cfg s.bus (addrFetch s) fetchLen
  (r.1, { s with bus := r.2 })

/-- The error a failed decode raises (R112, R120). A needed byte beyond the view is `E_NOMEM` with the address of the
fetch request (R74, 60_exceptions.md R281; log 17). -/
def toStepError (fetchAddr : Nat) : DecodeError → StepError
  | .opcode b0 next => .opcode b0 next
  | .addrMode b0 m => .addrMode b0 m
  | .regOp b0 m => .regOp b0 m
  | .subOp b0 m => .subOp b0 m
  | .short => .noMem fetchAddr

/-- One call of `step` (R103, R111). -/
def interp (s : State) : Result :=
  match decode s.cfg (fetch s).1 with
  | .ok i => exec i (fetch s).2
  | .error e => raise (toStepError (addrFetch s) e) (fetch s).2

/-! ### Placing a word for the next step (log 7) -/

/-- The instruction's bytes at `CS:IP`, and a `cont` in progress that nothing pauses, so that the next step is its next
iteration: the CPU runs only under a run loop (70_reset_and_hazards.md R311). -/
def placeInstr (bytes : List Byte) (s : State) : State :=
  { s with
    bus := busWrite s.cfg s.bus (addrFetch s) bytes
    calls := []
    run := .cont
    kill := false
    intr := false }

/-- A packet with first payload byte `v` received up to its last trailer byte, and that byte first on the wire. -/
def placeVerb (v : Byte) (s : State) : State :=
  { s with
    calls := []
    run := .idle
    sess := .accepted
    txRoom := none
    csum := v
    rx := match decodeVerb v with
      | .rspQuestion => .trailer1 .question
      | .rspGetRegs => .trailer1 .getRegs
      | .rspReadMem => .trailer1 .readMem
      | _ => .skipTrailer1
    wire := .rx 0x00#8 :: s.wire }

/-- The table word where the next step finds it: an RSP row on the wire, any other at `CS:IP` (log 8). -/
def placeWord (nbits w : Nat) (s : State) : State :=
  match decode s.cfg (tableBytes nbits w) with
  | .error (.opcode b0 _) =>
    if nbits = 8 then placeVerb b0 s else placeInstr (tableBytes nbits w) s
  | _ => placeInstr (tableBytes nbits w) s

end Sys2Proof.Machine
end

