-- ==== Sys2Proof/Machine/Receive.lean ====
section
/-! DEFINITION. The receive state machine of the RSP engine, one byte or one transport event at a time
(46_rsp_framer.md R221, R222, R225 to R235). -/

namespace Sys2Proof.Machine

/-- The value of a hex digit, in either case (R230). -/
def hexValue (b : Byte) : Option Nat :=
  if 0x30 ≤ b.toNat ∧ b.toNat ≤ 0x39 then some (b.toNat - 0x30)
  else if 0x61 ≤ b.toNat ∧ b.toNat ≤ 0x66 then some (b.toNat - 0x57)
  else if 0x41 ≤ b.toNat ∧ b.toNat ≤ 0x46 then some (b.toNat - 0x37)
  else none

/-- `acc*16 + digit` modulo 2^32 (R230). -/
def pushDigit (acc : DWord) (d : Nat) : DWord := acc * 16#32 + BitVec.ofNat 32 d

/-- A parse failure, and an unrecognised lead byte: no `+`, no handler, `$#00`, back to IDLE (R233, R234). -/
def rejectByte (s : State) : State := emptyReply { s with rx := .idle }

/-- State IDLE (R226). -/
def rxIdle (b : Byte) (s : State) : State :=
  if b = 0x2B#8 then s
  else if b = 0x24#8 then { s with rx := .verb }
  else rejectByte s

/-- State VERB (R226). -/
def rxVerb (v : Byte) (s : State) : State :=
  match decodeVerb v with
  | .rspQuestion => { s with csum := v, rx := .delim .question }
  | .rspGetRegs => { s with csum := v, rx := .delim .getRegs }
  | .rspReadMem => { s with csum := v, accAddr := 0#32, accLen := 0#32, rx := .mAddr }
  | _ => { s with csum := v, rx := .skip }

/-- State `DELIM(v)` (R227). -/
def rxDelim (v : Verb) (b : Byte) (s : State) : State :=
  if b = 0x23#8 then { s with rx := .trailer0 v } else rejectByte s

/-- State `M_ADDR` (R230). -/
def rxMAddr (b : Byte) (s : State) : State :=
  match hexValue b with
  | some d => { s with accAddr := pushDigit s.accAddr d, csum := s.csum + b }
  | none => if b = 0x2C#8 then { s with csum := s.csum + b, rx := .mLen } else rejectByte s

/-- State `M_LEN` (R230). -/
def rxMLen (b : Byte) (s : State) : State :=
  match hexValue b with
  | some d => { s with accLen := pushDigit s.accLen d, csum := s.csum + b }
  | none => if b = 0x23#8 then { s with rx := .trailer0 .readMem } else rejectByte s

/-- The row of the opcode table a verb stands for (R245). -/
def Verb.instr : Verb → Instr
  | .question => .rspQuestion
  | .getRegs => .rspGetRegs
  | .readMem => .rspReadMem

/-- State `TRAILER(v, 1)`: the verb is serviced whatever `Validate` finds, its failure branch being a no-op (R227, R232). -/
def rxTrailer1 (v : Verb) (b : Byte) (s : State) : Result :=
  if validate s.csum s.t0 b then exec v.instr s else exec v.instr s

/-- `Rx(b)` in each receive state (R226 to R231). The verb byte of an unknown packet is what `csum` was set to. -/
def rxByte (b : Byte) (s : State) : Result :=
  match s.rx with
  | .idle => .next (rxIdle b s)
  | .verb => .next (rxVerb b s)
  | .delim v => .next (rxDelim v b s)
  | .mAddr => .next (rxMAddr b s)
  | .mLen => .next (rxMLen b s)
  | .trailer0 v => .next { s with t0 := b, rx := .trailer1 v }
  | .trailer1 v => rxTrailer1 v b s
  | .skip => .next (if b = 0x23#8 then { s with rx := .skipTrailer0 } else s)
  | .skipTrailer0 => .next { s with rx := .skipTrailer1 }
  | .skipTrailer1 => exec (.rspUnknown s.csum) s

/-- One event from the transport (R220). Bytes and short writes belong to a connection: in state Listening there is none
(R221; log 11). -/
def receive (e : WireEvent) (s : State) : Result :=
  match e with
  | .connect => .next (connect s)
  | .hangup => .next (hangup s)
  | .rx b =>
    match s.sess with
    | .accepted => rxByte b s
    | .listening => .next s
  | .shortWriteAfter k =>
    match s.sess with
    | .accepted => .next { s with txRoom := some k }
    | .listening => .next s

end Sys2Proof.Machine
end

