-- ==== Sys2Proof/Machine/RunControl.lean ====
section
/-! DEFINITION. Run control and the host's calls (47_debug_bridge.md R260 to R268), and the choice of who moves next
(00_scope.md R12; log 6). -/

namespace Sys2Proof.Machine

/-- A run loop ends: it reports the status `question` returns, whatever stopped it (R265, R266, R267). -/
def endRun (s : State) : State := emit (.returned (question s)) { s with run := .idle }

/-- What a run loop does with the result of the `step` it called: `stepi` ends on result 0, both end on a negative
result, and neither on result 1 (R265, R266). -/
def afterStep (s : State) : State :=
  match s.res with
  | some (.error _) => endRun s
  | some .done => if s.run = .stepi then endRun s else s
  | some .prefixDone | none => s

/-- One iteration of `stepi` or `cont`: the two sticky flags are looked at before the step (R264 to R266). -/
def runLoopIteration (s : State) : Result :=
  if s.kill || s.intr then .next (endRun s)
  else
    match interp s with
    | .next t => .next (afterStep t)
    | .fault r => .fault r
    | .refused r => .refused r

/-- A host call through a slot: an absent slot is logged as unsupported and does nothing else (R260; log 18). -/
def throughSlot (slot : Slot) (call : State → Result) (s : State) : Result :=
  withSlot slot call (fun s => .next s) s

/-- A call that must not land while a run loop is in progress (R268, R321; log 15). -/
def exclusive (call : State → Result) (s : State) : Result :=
  match s.run with
  | .idle => call s
  | .stepi | .cont => .fault .overlappingCall

/-- Who moves when the host does nothing: a run loop in progress, which lets the transport wait (R266); else the RSP
engine, if an event waits; else nobody: the CPU runs only when `stepi` or `cont` is called (70_reset_and_hazards.md
R311). -/
def advance (s : State) : Result :=
  match s.run, s.wire with
  | .stepi, _ => runLoopIteration s
  | .cont, _ => runLoopIteration s
  | .idle, e :: rest => receive e { s with wire := rest }
  | .idle, [] => .next s

/-- One call of the host (R261 to R266). -/
def hostCall (c : HostCall) (s : State) : Result :=
  match c with
  | .quiet => advance s
  | .kill => throughSlot .kill (fun s => .next { s with kill := true }) s
  | .intr => throughSlot .intr (fun s => .next { s with intr := true }) s
  | .stepi => throughSlot .stepi (exclusive fun s => .next { s with run := .stepi }) s
  | .cont => throughSlot .cont (exclusive fun s => .next { s with run := .cont }) s
  | .question => throughSlot .question (fun s => .next (emit (.returned (question s)) s)) s
  | .getRegs =>
    throughSlot .getRegs (exclusive fun s =>
      match getRegs s with
      | none => .refused .dump64LenOpen
      | some p => .next (emit (.returned p) s)) s
  | .readMem addr len =>
    throughSlot .readMem (exclusive fun s =>
      .next (emit (.returned (readMemory addr len s).1) (readMemory addr len s).2)) s

/-- One step of the whole block: the host's next scheduled call, and with none scheduled, whoever moves then (log 6). -/
def blockStep (s : State) : Result :=
  match s.calls with
  | c :: rest => hostCall c { s with calls := rest }
  | [] => advance s

end Sys2Proof.Machine
end

