-- ==== Sys2Proof/Safety.lean ====
section
/-! DEFINITION. The vocabulary of the statements: what a legal state is, what a completed instruction leaves, and what a
part of the block leaves alone. -/

namespace Sys2Proof.Machine

/-! ### Legal states -/

/-- At most one prefix is outstanding, and it is no `RepNZ` (10_state.md R46, R47; 40_prefixes.md R142). -/
def State.prefixOk (s : State) : Bool := (s.dseg == .ds || s.drep == .none) && s.drep != .repNZ

/-- In state Listening no packet is in progress and no write is measured (46_rsp_framer.md R221, R222); the verb `m` has
no state `DELIM` (R225). -/
def State.sessionOk (s : State) : Bool :=
  (s.sess == .accepted || (s.rx == .idle && s.txRoom == none)) && s.rx != .delim .readMem

/-- A legal state: admissible parameters, canonical memory inside its regions, legal prefix and session state. -/
def State.Inv (s : State) : Prop :=
  s.cfg.wf = true ∧ s.bus.wf s.cfg = true ∧ s.prefixOk = true ∧ s.sessionOk = true

/-- A run loop is in progress, neither sticky flag is set and the host does nothing now: the next step is one call of the
interpreter by `stepi` or `cont` (47_debug_bridge.md R265, R266; log 6). -/
def State.running (s : State) : Prop := s.calls = [] ∧ s.run ≠ .idle ∧ s.kill = false ∧ s.intr = false

/-- The host does nothing now and no run loop is in progress: the next step takes the first waiting wire event. -/
def State.hears (s : State) (e : WireEvent) (rest : List WireEvent) : Prop :=
  s.calls = [] ∧ s.run = .idle ∧ s.wire = e :: rest

/-! ### What a step leaves alone -/

/-- Every byte of memory reads as before. -/
def SameBytes (s t : State) : Prop := ∀ r k, t.bus.get r k = s.bus.get r k

/-- Every byte reads as before and the scratch buffer has its old length. -/
def SameMemory (s t : State) : Prop := SameBytes s t ∧ t.bus.scrLen = s.bus.scrLen

/-- Exactly the bytes of `bytes`, from the offset of view `v` upward, are stored; every other byte reads as before. -/
def Stores (v : View) (bytes : List Byte) (s t : State) : Prop :=
  ∀ r k, t.bus.get r k =
    if r = v.region ∧ v.offset ≤ k ∧ k < v.offset + bytes.length then bytes.getD (k - v.offset) 0#8
    else s.bus.get r k

/-- Every general register outside `rs` is unchanged. -/
def RegsOnly (rs : List Reg16) (s t : State) : Prop := ∀ r, r ∉ rs → t.regs.get r = s.regs.get r

/-- Every segment register outside `rs` is unchanged. -/
def SRegsOnly (rs : List SReg) (s t : State) : Prop := ∀ r, r ∉ rs → t.sregs.get r = s.sregs.get r

/-- Every bit of FLAGS that is not the bit of a flag in `fs` is unchanged, the unnamed bits among them. -/
def FlagsOnly (fs : List Flag) (s t : State) : Prop :=
  ∀ k, (∀ f ∈ fs, k ≠ f.bit) → t.flags.getLsbD k = s.flags.getLsbD k

/-- The RSP engine's own state is unchanged (46_rsp_framer.md R221, R225). -/
def SameEngine (s t : State) : Prop :=
  t.sess = s.sess ∧ t.rx = s.rx ∧ t.csum = s.csum ∧ t.accAddr = s.accAddr ∧ t.accLen = s.accLen ∧ t.t0 = s.t0 ∧
    t.txRoom = s.txRoom

/-- Run control, the parameters and the waiting inputs are unchanged. -/
def SameControl (s t : State) : Prop :=
  t.kill = s.kill ∧ t.intr = s.intr ∧ t.cfg = s.cfg ∧ t.run = s.run ∧ t.calls = s.calls ∧ t.wire = s.wire

/-- The CPU is unchanged: registers, segment registers, IP, FLAGS, prefix state and the last result. -/
def SameCpu (s t : State) : Prop :=
  t.regs = s.regs ∧ t.sregs = s.sregs ∧ t.ip = s.ip ∧ t.flags = s.flags ∧ t.dseg = s.dseg ∧ t.drep = s.drep ∧
    t.res = s.res

/-- The frame of an instruction: it may write the listed registers, segment registers and flags; the engine and the
control state it leaves alone. Memory and outputs are said separately. -/
def Frame (rs : List Reg16) (ss : List SReg) (fs : List Flag) (s t : State) : Prop :=
  RegsOnly rs s t ∧ SRegsOnly ss s t ∧ FlagsOnly fs s t ∧ SameEngine s t ∧ SameControl s t

/-- A step with result 0 that leaves `IP` at `target`: the prefix state is back at its default (30_encoding.md R104). -/
def Completed (target : Word) (t : State) : Prop :=
  t.ip = target ∧ t.dseg = .ds ∧ t.drep = .none ∧ t.res = some .done

/-- A call of the interpreter with a negative result: the class and its information are the result, and nothing of the CPU,
of any byte of memory, of the engine, of the control state and of the outputs has changed (60_exceptions.md R283, R285).
The length of the scratch buffer may have grown (20_memory.md R67). -/
def Raised (e : StepError) (s t : State) : Prop :=
  t = { s with res := some (.error e), bus := { s.bus with scrLen := t.bus.scrLen } } ∧ s.bus.scrLen ≤ t.bus.scrLen

/-- A run loop's call of the interpreter raised the error, and the loop ended and reported the status string
(60_exceptions.md R285, R286; 47_debug_bridge.md R265, R266). -/
def Halted (e : StepError) (s t : State) : Prop := ∃ u, Raised e s u ∧ t = endRun u

/-! ### Single instructions of one shape -/

/-- The first byte of every instruction and prefix (30_encoding.md R120). -/
def supportedFirstBytes (cfg : Config) : List Byte :=
  [0x26#8, 0xF3#8, cfg.xorOpcode, 0x3B#8, 0x40#8, 0xFE#8, 0x89#8, 0x8B#8, 0x8E#8, 0xB0#8, 0xB1#8, 0xB2#8, 0xB3#8,
    0xB4#8, 0xB5#8, 0xB6#8, 0xB7#8, 0xB8#8, 0xB9#8, 0xBA#8, 0xBB#8, 0xBC#8, 0xBD#8, 0xBE#8, 0xBF#8, 0x75#8, 0xEA#8,
    0xAB#8, 0x90#8, 0xE6#8, 0xEE#8, 0xFA#8, 0xFC#8]

/-- A request for a word is not clamped: both bytes are in the region of the first (20_memory.md R66). -/
abbrev wordFits (cfg : Config) (a : Nat) : Prop := (resolve cfg a 2).len = 2

/-- The word the bus returns for a request of two bytes at physical address `a` (20_memory.md R72). -/
def wordAt (s : State) (a : Nat) : Word :=
  mkWord (s.bus.get (resolve s.cfg a 2).region (resolve s.cfg a 2).offset)
    (s.bus.get (resolve s.cfg a 2).region ((resolve s.cfg a 2).offset + 1))

/-- The value of a run of hex digits, modulo 2^32 (46_rsp_framer.md R230). -/
def hexRun (digits : List Byte) : DWord := digits.foldl (fun acc b => pushDigit acc ((hexValue b).getD 0)) 0#32

/-- `k` steps of the block, stopping at the first fault or refusal. -/
def steps : Nat → State → Result
  | 0, s => .next s
  | k + 1, s =>
    match step s with
    | .next t => steps k t
    | .fault r => .fault r
    | .refused r => .refused r

/-- The view the `j`-th store of a repeated STOSW resolves to: DI has advanced by 2 modulo 2^16 for each store before it
(44_string.md R200). -/
def stosView (s : State) (j : Nat) : View :=
  resolve s.cfg (physAddr s.sregs.es (s.regs.di + BitVec.ofNat 16 (2 * j))) 2

/-- The first `n` stores of a repeated STOSW have happened: each stored word holds AX, low byte first, and every byte
outside all of them reads as before. -/
def StosFilled (n : Nat) (s t : State) : Prop :=
  (∀ j < n, t.bus.get (stosView s j).region (stosView s j).offset = s.regs.ax.lo ∧
    t.bus.get (stosView s j).region ((stosView s j).offset + 1) = s.regs.ax.hi) ∧
  ∀ r k, (∀ j < n, ¬ (r = (stosView s j).region ∧ (stosView s j).offset ≤ k ∧ k < (stosView s j).offset + 2)) →
    t.bus.get r k = s.bus.get r k

/-- The general registers an instruction may write (10_state.md R23). -/
def regTargets : Instr → List Reg16
  | .xorAxAx => [.ax]
  | .incAx => [.ax]
  | .incAl => [.ax]
  | .xorDiDi => [.di]
  | .movSiMem _ => [.si]
  | .movRegReg dst _ => [dst]
  | .movReg16Imm dst _ => [dst]
  | .movReg8Imm dst _ => [parentOf dst]
  | .stosw => [.di, .cx]
  | .esOverride | .repz | .cmpRegDi _ | .movDiDx | .movEsAx | .movEsBx | .movDsAx | .movDsBx | .jnz _ => []
  | .jmpFar _ _ | .nop | .outImmAl _ | .outDxAl | .cli | .cld => []
  | .rspQuestion | .rspGetRegs | .rspReadMem | .rspUnknown _ => []

/-- The segment registers an instruction may write (10_state.md R41). -/
def sregTargets : Instr → List SReg
  | .movEsAx => [.es]
  | .movEsBx => [.es]
  | .movDsAx => [.ds]
  | .movDsBx => [.ds]
  | .jmpFar _ _ => [.cs]
  | .esOverride | .repz | .xorAxAx | .xorDiDi | .cmpRegDi _ | .incAx | .incAl | .movDiDx | .movSiMem _ => []
  | .movRegReg _ _ | .movReg8Imm _ _ | .movReg16Imm _ _ | .jnz _ | .stosw | .nop | .outImmAl _ | .outDxAl => []
  | .cli | .cld | .rspQuestion | .rspGetRegs | .rspReadMem | .rspUnknown _ => []

/-- The flags an instruction may write (10_state.md R34). -/
def flagTargets : Instr → List Flag
  | .xorAxAx => [.zero, .parity]
  | .xorDiDi => [.zero, .parity]
  | .cmpRegDi _ => [.zero]
  | .incAx => [.auxCarry, .parity]
  | .cli => [.interrupt]
  | .cld => [.direction]
  | .esOverride | .repz | .incAl | .movDiDx | .movSiMem _ | .movRegReg _ _ | .movEsAx | .movEsBx | .movDsAx => []
  | .movDsBx | .movReg8Imm _ _ | .movReg16Imm _ _ | .jnz _ | .jmpFar _ _ | .stosw | .nop | .outImmAl _ => []
  | .outDxAl | .rspQuestion | .rspGetRegs | .rspReadMem | .rspUnknown _ => []

/-- The bytes of an outbound packet or acknowledgement as the engine makes them (46_rsp_framer.md R241). -/
def wellFramed (bytes : List Byte) : Prop := bytes = ackBytes ∨ ∃ p, frameable p = true ∧ bytes = frame p

/-- All bytes transmitted, in order. -/
def txBytes (out : List Output) : List Byte := out.flatMap fun o => match o with | .tx bytes => bytes | _ => []

/-- The outputs of `t` are those of `s` and then `new`. -/
def Emits (new : List Output) (s t : State) : Prop := t.out = s.out ++ new

/-- The status a run loop that ends hands to its caller (47_debug_bridge.md R267). -/
def statusReport (s : State) : Output := .returned s.cfg.stopStatus

end Sys2Proof.Machine
end

