-- ==== Sys2Proof/Certificates/Slice0/Obligations.lean ====
section
/-! DEFINITION. The statements for the provers, about the machine and not about any program. R<n> are the rules of spec/,
"log <n>" the model's assumption log. The vocabulary is that of Sys2Proof/Safety.lean. -/

open Sys2Proof Sys2Proof.Machine

/-! ### Encoding -/

/-- For every parameter value and every instruction the interpreter carries out, decoding its bytes, whatever follows
them, gives it back with every operand; and each RSP verb's first payload byte gives the verb back. -/
def Obligations.DecodeOfEncodeIsTheInstruction : Prop :=
  ∀ cfg : Config, cfg.wf = true → ∀ (i : Instr) (rest : List Byte), i.wf = true →
    (i.isRsp = false → decode cfg (encode cfg i ++ rest) = .ok i) ∧
    (i.isRsp = true → ∃ v, encode cfg i = [v] ∧ decodeVerb v = i)

/-- Whatever bytes decode to an instruction begin with exactly the bytes its encoder writes: every instruction has one
encoding, and no bit of it is ignored. -/
def Obligations.EncodeOfDecodeIsTheBytes : Prop :=
  ∀ cfg : Config, cfg.wf = true → ∀ (bytes : List Byte) (i : Instr), decode cfg bytes = .ok i →
    i.isRsp = false ∧ i.length ≤ bytes.length ∧ encode cfg i = bytes.take i.length

/-- R120: exactly the first bytes outside the opcode map are `E_OPCODE`, with the opcode and up to three further bytes,
fewer where the view ends; they are 223 of the 256 values; a run loop that fetches one raises the error and ends. -/
def Obligations.UnlistedFirstByteIsOpcodeError : Prop :=
  ∀ cfg : Config, cfg.wf = true →
    (∀ (b0 : Byte) (rest : List Byte),
      decode cfg (b0 :: rest) = .error (.opcode b0 (rest.take 3)) ↔ b0 ∉ supportedFirstBytes cfg) ∧
    ((List.range 256).filter fun n => !(supportedFirstBytes cfg).contains (BitVec.ofNat 8 n)).length = 223 ∧
    ∀ (s : State) (b0 : Byte) (rest : List Byte), s.cfg = cfg → s.running → (fetch s).1 = b0 :: rest →
      b0 ∉ supportedFirstBytes cfg → ∃ t, step s = .next t ∧ Halted (.opcode b0 (rest.take 3)) s t

/-- R112: the error class of every ModRM byte that R108 does not accept, row by row, under the default parameters. -/
def Obligations.RejectedModRMClasses : Prop :=
  ∀ (cfg : Config) (m : Byte) (rest : List Byte), cfg.xorOpcode = 0x33#8 → cfg.movRROpcode = 0x8B#8 →
    (modOf m ≠ 3#2 → decode cfg (0x33#8 :: m :: rest) = .error (.addrMode 0x33#8 m)) ∧
    (modOf m = 3#2 → (regOf m, rmOf m) ∉ [(0#3, 0#3), (7#3, 7#3)] →
      decode cfg (0x33#8 :: m :: rest) = .error (.regOp 0x33#8 m)) ∧
    (¬ (modOf m = 0#2 ∧ rmOf m = 5#3) → decode cfg (0x3B#8 :: m :: rest) = .error (.addrMode 0x3B#8 m)) ∧
    (¬ (modOf m = 0#2 ∧ rmOf m = 5#3) → decode cfg (0x89#8 :: m :: rest) = .error (.addrMode 0x89#8 m)) ∧
    (modOf m = 0#2 → rmOf m = 5#3 → regOf m ≠ 2#3 → decode cfg (0x89#8 :: m :: rest) = .error (.regOp 0x89#8 m)) ∧
    (modOf m = 0#2 → rmOf m = 6#3 → regOf m ≠ 6#3 → decode cfg (0x8B#8 :: m :: rest) = .error (.regOp 0x8B#8 m)) ∧
    (modOf m ≠ 3#2 → ¬ (modOf m = 0#2 ∧ rmOf m = 6#3) →
      decode cfg (0x8B#8 :: m :: rest) = .error (.addrMode 0x8B#8 m)) ∧
    (modOf m ≠ 3#2 → decode cfg (0x8E#8 :: m :: rest) = .error (.addrMode 0x8E#8 m)) ∧
    (modOf m = 3#2 → (regOf m ∉ [0#3, 3#3] ∨ rmOf m ∉ [0#3, 3#3]) →
      decode cfg (0x8E#8 :: m :: rest) = .error (.regOp 0x8E#8 m)) ∧
    (regOf m ≠ 0#3 → decode cfg (0xFE#8 :: m :: rest) = .error (.subOp 0xFE#8 m)) ∧
    (regOf m = 0#3 → modOf m ≠ 3#2 → decode cfg (0xFE#8 :: m :: rest) = .error (.addrMode 0xFE#8 m)) ∧
    (regOf m = 0#3 → modOf m = 3#2 → rmOf m ≠ 0#3 → decode cfg (0xFE#8 :: m :: rest) = .error (.regOp 0xFE#8 m))

/-- R122: what the two opcode parameters select, and what the byte not selected decodes to. -/
def Obligations.OpcodeParametersSelect : Prop :=
  ∀ (cfg : Config) (m : Byte) (rest : List Byte),
    (cfg.xorOpcode = 0x31#8 → decode cfg (0x31#8 :: 0xC0#8 :: rest) = .ok .xorAxAx ∧
      decode cfg (0x31#8 :: 0xFF#8 :: rest) = .ok .xorDiDi ∧
      decode cfg (0x33#8 :: rest) = .error (.opcode 0x33#8 (rest.take 3))) ∧
    (cfg.xorOpcode = 0x33#8 → decode cfg (0x33#8 :: 0xC0#8 :: rest) = .ok .xorAxAx ∧
      decode cfg (0x33#8 :: 0xFF#8 :: rest) = .ok .xorDiDi ∧
      decode cfg (0x31#8 :: rest) = .error (.opcode 0x31#8 (rest.take 3))) ∧
    (cfg.xorOpcode ∈ [0x33#8, 0x31#8] → cfg.movRROpcode = 0x89#8 → modOf m = 3#2 →
      decode cfg (0x89#8 :: m :: rest) = .ok (.movRegReg (Reg16.ofNum (rmOf m)) (Reg16.ofNum (regOf m))) ∧
      decode cfg (0x8B#8 :: m :: rest) = .error (.addrMode 0x8B#8 m)) ∧
    (cfg.xorOpcode ∈ [0x33#8, 0x31#8] → cfg.movRROpcode = 0x8B#8 → modOf m = 3#2 →
      decode cfg (0x8B#8 :: m :: rest) = .ok (.movRegReg (Reg16.ofNum (regOf m)) (Reg16.ofNum (rmOf m))) ∧
      decode cfg (0x89#8 :: m :: rest) = .error (.addrMode 0x89#8 m))

/-- R74: an instruction of which the view holds only the first bytes does not decode, and is reported as a missing byte,
never as another instruction. -/
def Obligations.CutInstructionIsShort : Prop :=
  ∀ cfg : Config, cfg.wf = true → ∀ (i : Instr) (k : Nat), i.isRsp = false → k < i.length →
    decode cfg ((encode cfg i).take k) = .error .short

/-- A few words written out from R110 decode to the instructions they stand for. -/
def Obligations.WrittenWordsDecode : Prop :=
  decode Config.default [0x3B#8, 0x1D#8] = .ok (.cmpRegDi .bx) ∧
  decode Config.default [0x8B#8, 0x36#8, 0x34#8, 0x02#8] = .ok (.movSiMem 0x0234#16) ∧
  decode Config.default [0x8B#8, 0xC3#8] = .ok (.movRegReg .ax .bx) ∧
  decode Config.default [0xB6#8, 0xB8#8] = .ok (.movReg8Imm .dh 0xB8#8) ∧
  decode Config.default [0xBA#8, 0xD8#8, 0x03#8] = .ok (.movReg16Imm .dx 0x03D8#16) ∧
  decode Config.default [0xEA#8, 0x5B#8, 0xE0#8, 0x00#8, 0xF0#8] = .ok (.jmpFar 0xE05B#16 0xF000#16) ∧
  decodeVerb 0x6D#8 = .rspReadMem

/-! ### The step -/

/-- When a run loop is in progress, no flag is set and the view at `CS:IP` decodes to `i`, the step is `exec i` on the
state after the fetch, which differs from the state at most in the length of the scratch buffer; the loop then looks at
the result: `stepi` goes on after a prefix only, `cont` after 0 and 1, and a loop that ends reports the status string. -/
def Obligations.StepRunsDecodedInstruction : Prop :=
  ∀ (s : State) (i : Instr), s.running → decode s.cfg (fetch s).1 = .ok i →
    (∃ t, exec i (fetch s).2 = .next t ∧
      (t.res = some .prefixDone → step s = .next t) ∧
      (t.res = some .done → s.run = .cont → step s = .next t) ∧
      (t.res = some .done → s.run = .stepi → step s = .next { t with run := .idle, out := t.out ++ [statusReport s] }) ∧
      (∀ e, t.res = some (.error e) → step s = .next { t with run := .idle, out := t.out ++ [statusReport s] }) ∧
      t.res ≠ none) ∧
    (regionOf s.cfg (addrFetch s) ≠ .scratch → (fetch s).2 = s) ∧
    (fetch s).2 = { s with bus := { s.bus with scrLen := (fetch s).2.bus.scrLen } }

/-- When the last trailer byte of a packet is the next event, the step carries out the packet's verb. -/
def Obligations.StepServicesVerb : Prop :=
  ∀ (s : State) (b : Byte) (rest : List WireEvent), s.hears (.rx b) rest → s.sess = .accepted →
    (∀ v, s.rx = .trailer1 v → step s = exec v.instr { s with wire := rest }) ∧
    (s.rx = .skipTrailer1 → step s = exec (.rspUnknown s.csum) { s with wire := rest })

/-- When a run loop, `stepi` or `cont`, finds a view that does not decode, the step returns the error and changes nothing
else, and the loop ends and reports the status string (R266, R286); a missing byte is `E_NOMEM` with the address of the
fetch. -/
def Obligations.FailedDecodeRaises : Prop :=
  ∀ (s : State) (e : DecodeError), s.running → decode s.cfg (fetch s).1 = .error e →
    ∃ t, step s = .next t ∧ t.run = .idle ∧ t.out = s.out ++ [statusReport s] ∧
      match e with
      | .opcode b0 next => Halted (.opcode b0 next) s t
      | .addrMode b0 m => Halted (.addrMode b0 m) s t
      | .regOp b0 m => Halted (.regOp b0 m) s t
      | .subOp b0 m => Halted (.subOp b0 m) s t
      | .short => Halted (.noMem (physAddr s.sregs.cs s.ip)) s t

/-- The block stops only where the log says (logs 13, 15): with a fault exactly on a host call of `stepi`, `cont`,
`get_regs` or `read_mem` through a present slot that overlaps a run loop, and with a refusal exactly where a 64-bit register
dump without a length is asked for, by the host or by the last trailer byte of a `g` packet whose `+` the client takes. A
run loop's call of the interpreter always answers a next state with a result. -/
def Obligations.StepStopsOnlyAsLogged : Prop :=
  ∀ s : State,
    (s.running → ∃ t r, step s = .next t ∧ t.res = some r) ∧
    (∀ r, step s = .fault r ↔ r = .overlappingCall ∧ s.run ≠ .idle ∧ ∃ c rest, s.calls = c :: rest ∧
      ((c = .stepi ∧ s.cfg.slots.stepi = true) ∨ (c = .cont ∧ s.cfg.slots.cont = true) ∨
        (c = .getRegs ∧ s.cfg.slots.getRegs = true) ∨ (∃ a n, c = .readMem a n ∧ s.cfg.slots.readMem = true))) ∧
    (∀ r, step s = .refused r ↔ r = .dump64LenOpen ∧ s.cfg.regWidth = .w64 ∧ s.cfg.dump64Len = none ∧
      s.cfg.slots.getRegs = true ∧ s.run = .idle ∧
      ((∃ rest, s.calls = .getRegs :: rest) ∨
        (s.calls = [] ∨ ∃ rest, s.calls = .quiet :: rest) ∧ (∃ b rest, s.wire = .rx b :: rest) ∧
          s.sess = .accepted ∧ s.rx = .trailer1 .getRegs ∧ s.txRoom ≠ some 0))

/-! ### Prefixes -/

/-- A prefix byte with none outstanding is recorded: `dseg` or `drep`, `IP + 1`, result 1, and nothing else. -/
def Obligations.PrefixIsRecorded : Prop :=
  ∀ s : State, s.dseg = .ds → s.drep = .none →
    (∃ t, exec .esOverride s = .next t ∧ t.dseg = .es ∧ t.drep = .none ∧ t.ip = s.ip + 1#16 ∧
      t.res = some .prefixDone ∧ Frame [] [] [] s t ∧ SameMemory s t ∧ t.out = s.out) ∧
    (∃ t, exec .repz s = .next t ∧ t.dseg = .ds ∧ t.drep = .repZ ∧ t.ip = s.ip + 1#16 ∧
      t.res = some .prefixDone ∧ Frame [] [] [] s t ∧ SameMemory s t ∧ t.out = s.out)

/-- R142: a prefix byte fetched while a prefix is outstanding raises `E_PREFIX` with that byte and changes nothing; the run
loop ends. -/
def Obligations.SecondPrefixRaises : Prop :=
  ∀ (s : State) (b0 : Byte) (rest : List Byte), s.running → (fetch s).1 = b0 :: rest → b0 ∈ [0x26#8, 0xF3#8] →
    (s.dseg ≠ .ds ∨ s.drep ≠ .none) → ∃ t, step s = .next t ∧ Halted (.prefixPair b0) s t

/-- R46: after result 0 no prefix is outstanding; after result 1 exactly one is; after an error the prefix state is as
it was. -/
def Obligations.PrefixLastsOneOpcode : Prop :=
  ∀ s t : State, s.running → step s = .next t →
    (t.res = some .done → t.dseg = .ds ∧ t.drep = .none) ∧
    (t.res = some .prefixDone → (t.dseg ≠ .ds ∧ t.drep = .none) ∨ (t.dseg = .ds ∧ t.drep ≠ .none)) ∧
    (∀ e, t.res = some (.error e) → t.dseg = s.dseg ∧ t.drep = s.drep)

/-- R143: an instruction that does not consult `dseg` does the same whatever `dseg` is, and one that does not consult
`drep` the same whatever `drep` is; only an error leaves the prefix state as it was. -/
def Obligations.UnconsultedPrefixIsIgnored : Prop :=
  ∀ (i : Instr) (s : State), i.isRsp = false → i ≠ .esOverride → i ≠ .repz →
    ((∀ r, i ≠ .cmpRegDi r) → i ≠ .movDiDx → (∀ d, i ≠ .movSiMem d) →
      ∃ t u, exec i { s with dseg := .ds } = .next t ∧ exec i { s with dseg := .es } = .next u ∧
        { t with dseg := .ds } = { u with dseg := .ds } ∧
        (t.res = some .done → t = u ∧ t.dseg = .ds ∧ t.drep = .none) ∧ (t.res ≠ some .done → u.dseg = .es)) ∧
    (i ≠ .stosw → ∀ d,
      ∃ t u, exec i { s with drep := .none } = .next t ∧ exec i { s with drep := d } = .next u ∧
        { t with drep := .none } = { u with drep := .none } ∧
        (t.res = some .done → t = u ∧ t.dseg = .ds ∧ t.drep = .none) ∧ (t.res ≠ some .done → u.drep = d))

/-! ### Arithmetic and logic -/

/-- R150, R151: `33 C0` and `33 FF` are the two forms, a missing second byte is reported as missing; the register becomes
0, ZF and PF become 1, nothing else changes. -/
def Obligations.XorClearsRegisterSetsZeroAndParity : Prop :=
  ∀ s : State,
    (s.cfg.xorOpcode = 0x33#8 → decode s.cfg [0x33#8] = .error .short ∧ ∀ rest,
      decode s.cfg (0x33#8 :: 0xC0#8 :: rest) = .ok .xorAxAx ∧
      decode s.cfg (0x33#8 :: 0xFF#8 :: rest) = .ok .xorDiDi) ∧
    (∃ t, exec .xorAxAx s = .next t ∧ t.regs.ax = 0#16 ∧ flagOf .zero t.flags = true ∧ flagOf .parity t.flags = true ∧
      Frame [.ax] [] [.zero, .parity] s t ∧ Completed (s.ip + 2#16) t ∧ SameMemory s t ∧ t.out = s.out) ∧
    (∃ t, exec .xorDiDi s = .next t ∧ t.regs.di = 0#16 ∧ flagOf .zero t.flags = true ∧ flagOf .parity t.flags = true ∧
      Frame [.di] [] [.zero, .parity] s t ∧ Completed (s.ip + 2#16) t ∧ SameMemory s t ∧ t.out = s.out)

/-- R152: where the word at `SEGVAL:DI` is not cut, ZF becomes 1 exactly when the register equals it, and nothing else is
written; where it is cut, the step raises `E_NOMEM` and changes nothing. -/
def Obligations.CmpWritesZeroFlagOnly : Prop :=
  ∀ (s : State) (r : Reg16),
    (wordFits s.cfg (addrDi s) → ∃ t, exec (.cmpRegDi r) s = .next t ∧
      (flagOf .zero t.flags = true ↔ s.regs.get r = wordAt s (addrDi s)) ∧
      Frame [] [] [.zero] s t ∧ Completed (s.ip + 2#16) t ∧ SameBytes s t ∧ t.out = s.out) ∧
    (¬ wordFits s.cfg (addrDi s) → exec (.cmpRegDi r) s = .next { s with res := some (.error (.noMem (addrDi s))) })

/-- R153: AX is incremented modulo 2^16; PF is the parity of all 16 bits of the new value; AF becomes 1 when the old low
byte was FF, and is otherwise kept, or cleared under `INC_AX_AF_CLEARS`. -/
def Obligations.IncAxResultAndFlags : Prop :=
  ∀ s : State, ∃ t, exec .incAx s = .next t ∧ t.regs.ax.toNat = (s.regs.ax.toNat + 1) % 65536 ∧
    (flagOf .parity t.flags = true ↔ popcount t.regs.ax % 2 = 0) ∧
    (s.regs.ax.toNat % 256 = 255 → flagOf .auxCarry t.flags = true) ∧
    (s.regs.ax.toNat % 256 ≠ 255 → s.cfg.incAxAfClears = false → flagOf .auxCarry t.flags = flagOf .auxCarry s.flags) ∧
    (s.regs.ax.toNat % 256 ≠ 255 → s.cfg.incAxAfClears = true → flagOf .auxCarry t.flags = false) ∧
    Frame [.ax] [] [.auxCarry, .parity] s t ∧ Completed (s.ip + 1#16) t ∧ SameMemory s t ∧ t.out = s.out

/-- R154: AL is incremented modulo 2^8, AH is not touched, no flag is written. -/
def Obligations.IncAlResult : Prop :=
  ∀ s : State, ∃ t, exec .incAl s = .next t ∧
    (t.regs.getByte .al).toNat = ((s.regs.getByte .al).toNat + 1) % 256 ∧ t.regs.getByte .ah = s.regs.getByte .ah ∧
    Frame [.ax] [] [] s t ∧ Completed (s.ip + 2#16) t ∧ SameMemory s t ∧ t.out = s.out

/-! ### Data movement -/

/-- R170: where the word at `SEGVAL:DI` is not cut, DX is stored there, low byte first, and no other byte, no register
and no flag changes; where it is cut, `E_NOMEM` and nothing written. -/
def Obligations.MovDiDxStoresTheWord : Prop :=
  ∀ s : State,
    (s.bus.wf s.cfg = true → wordFits s.cfg (addrDi s) → ∃ t, exec .movDiDx s = .next t ∧
      Stores (resolve s.cfg (addrDi s) 2) [s.regs.dx.lo, s.regs.dx.hi] s t ∧
      Frame [] [] [] s t ∧ Completed (s.ip + 2#16) t ∧ t.out = s.out) ∧
    (¬ wordFits s.cfg (addrDi s) → exec .movDiDx s = .next { s with res := some (.error (.noMem (addrDi s))) })

/-- R171: where the word at `SEGVAL:disp16` is not cut, SI receives it; where it is cut, `E_NOMEM` and SI is unchanged. -/
def Obligations.MovSiLoadsTheWord : Prop :=
  ∀ (s : State) (disp : Word),
    (wordFits s.cfg (addrDirect disp s) → ∃ t, exec (.movSiMem disp) s = .next t ∧
      t.regs.si = wordAt s (addrDirect disp s) ∧
      Frame [.si] [] [] s t ∧ Completed (s.ip + 4#16) t ∧ SameBytes s t ∧ t.out = s.out) ∧
    (¬ wordFits s.cfg (addrDirect disp s) →
      exec (.movSiMem disp) s = .next { s with res := some (.error (.noMem (addrDirect disp s))) })

/-- R172, R175: exactly the destination register receives the source register or the immediate, for every pair of
registers, the same register twice among them. -/
def Obligations.MovWritesExactlyOneRegister : Prop :=
  ∀ (s : State) (dst src : Reg16) (imm : Word),
    (∃ t, exec (.movRegReg dst src) s = .next t ∧ t.regs.get dst = s.regs.get src ∧
      Frame [dst] [] [] s t ∧ Completed (s.ip + 2#16) t ∧ SameMemory s t ∧ t.out = s.out) ∧
    (∃ t, exec (.movReg16Imm dst imm) s = .next t ∧ t.regs.get dst = imm ∧
      Frame [dst] [] [] s t ∧ Completed (s.ip + 3#16) t ∧ SameMemory s t ∧ t.out = s.out)

/-- R174: `B0+j imm8` is the form that writes byte register `j`; a missing immediate is reported as missing. Exactly the
addressed half changes: its parent keeps the other half, and every other register and byte register is as before. -/
def Obligations.MovByteWritesExactlyOneHalf : Prop :=
  ∀ (s : State) (dst : Reg8) (imm : Byte),
    (s.cfg.wf = true → decode s.cfg [0xB0#8 + dst.num.setWidth 8] = .error .short ∧ ∀ rest,
      decode s.cfg ((0xB0#8 + dst.num.setWidth 8) :: imm :: rest) = .ok (.movReg8Imm dst imm)) ∧
    ∃ t, exec (.movReg8Imm dst imm) s = .next t ∧
    t.regs.getByte dst = imm ∧ (∀ q, q ≠ dst → t.regs.getByte q = s.regs.getByte q) ∧
    Frame [parentOf dst] [] [] s t ∧ Completed (s.ip + 2#16) t ∧ SameMemory s t ∧ t.out = s.out

/-- R173: ES or DS receives AX or BX, in each of the four forms. -/
def Obligations.MovSegmentForms : Prop :=
  ∀ s : State,
    (∃ t, exec .movEsAx s = .next t ∧ t.sregs.es = s.regs.ax ∧
      Frame [] [.es] [] s t ∧ Completed (s.ip + 2#16) t ∧ SameMemory s t ∧ t.out = s.out) ∧
    (∃ t, exec .movEsBx s = .next t ∧ t.sregs.es = s.regs.bx ∧
      Frame [] [.es] [] s t ∧ Completed (s.ip + 2#16) t ∧ SameMemory s t ∧ t.out = s.out) ∧
    (∃ t, exec .movDsAx s = .next t ∧ t.sregs.ds = s.regs.ax ∧
      Frame [] [.ds] [] s t ∧ Completed (s.ip + 2#16) t ∧ SameMemory s t ∧ t.out = s.out) ∧
    (∃ t, exec .movDsBx s = .next t ∧ t.sregs.ds = s.regs.bx ∧
      Frame [] [.ds] [] s t ∧ Completed (s.ip + 2#16) t ∧ SameMemory s t ∧ t.out = s.out)

/-! ### Control transfer -/

/-- R190: with ZF clear, `IP` becomes `IP + 2 + rel8` with `rel8` unsigned, modulo 2^16; with ZF set, `IP + 2`. So the
target is 2 to 257 bytes ahead. CS and everything else are unchanged. -/
def Obligations.JnzAddsUnsignedDisplacement : Prop :=
  ∀ (s : State) (rel : Byte), ∃ t, exec (.jnz rel) s = .next t ∧
    (flagOf .zero s.flags = false → t.ip.toNat = (s.ip.toNat + 2 + rel.toNat) % 65536) ∧
    (flagOf .zero s.flags = true → t.ip.toNat = (s.ip.toNat + 2) % 65536) ∧
    2 ≤ (t.ip - s.ip).toNat ∧ (t.ip - s.ip).toNat ≤ 257 ∧
    Frame [] [] [] s t ∧ Completed t.ip t ∧ SameMemory s t ∧ t.out = s.out

/-- R191: `IP` and CS are loaded from the two words; no return address is saved and nothing else is written. -/
def Obligations.JmpFarLoadsCsAndIp : Prop :=
  ∀ (s : State) (off seg : Word), ∃ t, exec (.jmpFar off seg) s = .next t ∧ t.sregs.cs = seg ∧
    Frame [] [.cs] [] s t ∧ Completed off t ∧ SameMemory s t ∧ t.out = s.out

/-! ### The string store -/

/-- R200 without a repeat prefix: AX is stored at `ES:DI`, whatever `dseg` and DF are, DI advances by 2 modulo 2^16, CX
is untouched; where the word is cut, `E_NOMEM` and nothing changes. -/
def Obligations.StoswStoresOneWord : Prop :=
  ∀ s : State, s.drep = .none →
    (s.bus.wf s.cfg = true → wordFits s.cfg (addrStos s) → ∃ t, exec .stosw s = .next t ∧
      Stores (resolve s.cfg (addrStos s) 2) [s.regs.ax.lo, s.regs.ax.hi] s t ∧
      t.regs.di.toNat = (s.regs.di.toNat + 2) % 65536 ∧
      Frame [.di] [] [] s t ∧ Completed (s.ip + 1#16) t ∧ t.out = s.out) ∧
    (¬ wordFits s.cfg (addrStos s) → exec .stosw s = .next { s with res := some (.error (.noMem (addrStos s))) })

/-- R200 under a repeat prefix, no word cut: CX words are stored in one step, each holding AX, every byte outside them is
unchanged, DI has advanced by twice CX modulo 2^16, and CX is 0. CX = 0 stores nothing. -/
def Obligations.RepeatedStoswFillsMemory : Prop :=
  ∀ s : State, s.drep ≠ .none → s.bus.wf s.cfg = true → (∀ j < s.regs.cx.toNat, (stosView s j).len = 2) →
    ∃ t, exec .stosw s = .next t ∧ StosFilled s.regs.cx.toNat s t ∧ t.regs.cx = 0#16 ∧
      t.regs.di = s.regs.di + BitVec.ofNat 16 (2 * s.regs.cx.toNat) ∧
      Frame [.di, .cx] [] [] s t ∧ Completed (s.ip + 1#16) t ∧ t.out = s.out

/-- R200, R285: when the word of iteration `k` (counted from 0) is the first that is cut, the step raises `E_NOMEM` with
its address; the `k` stores before it and their DI and CX updates are kept, and `IP`, the prefix state and everything
else are unchanged. -/
def Obligations.RepeatedStoswKeepsCompletedIterations : Prop :=
  ∀ (s : State) (k : Nat), s.drep ≠ .none → s.bus.wf s.cfg = true → k < s.regs.cx.toNat →
    (∀ j < k, (stosView s j).len = 2) → (stosView s k).len < 2 →
    ∃ t, exec .stosw s = .next t ∧
      t.res = some (.error (.noMem (physAddr s.sregs.es (s.regs.di + BitVec.ofNat 16 (2 * k))))) ∧
      StosFilled k s t ∧ t.regs.cx.toNat = s.regs.cx.toNat - k ∧
      t.regs.di = s.regs.di + BitVec.ofNat 16 (2 * k) ∧
      t.ip = s.ip ∧ t.dseg = s.dseg ∧ t.drep = s.drep ∧ Frame [.di, .cx] [] [] s t ∧ t.out = s.out

/-! ### NOP, port output, flag control -/

/-- R210 to R214: NOP changes nothing but `IP`; OUT writes no state and makes the port and AL visible as one event; CLI
clears IF and CLD clears DF, and no other bit of FLAGS changes. -/
def Obligations.NopOutCliCld : Prop :=
  ∀ (s : State) (port : Byte),
    (∃ t, exec .nop s = .next t ∧
      Frame [] [] [] s t ∧ Completed (s.ip + 1#16) t ∧ SameMemory s t ∧ t.out = s.out) ∧
    (∃ t, exec (.outImmAl port) s = .next t ∧ Emits [.ioWrite (port.setWidth 16) (s.regs.getByte .al)] s t ∧
      Frame [] [] [] s t ∧ Completed (s.ip + 2#16) t ∧ SameMemory s t) ∧
    (∃ t, exec .outDxAl s = .next t ∧ Emits [.ioWrite s.regs.dx (s.regs.getByte .al)] s t ∧
      Frame [] [] [] s t ∧ Completed (s.ip + 1#16) t ∧ SameMemory s t) ∧
    (∃ t, exec .cli s = .next t ∧ flagOf .interrupt t.flags = false ∧ Frame [] [] [.interrupt] s t ∧
      Completed (s.ip + 1#16) t ∧ SameMemory s t ∧ t.out = s.out) ∧
    (∃ t, exec .cld s = .next t ∧ flagOf .direction t.flags = false ∧ Frame [] [] [.direction] s t ∧
      Completed (s.ip + 1#16) t ∧ SameMemory s t ∧ t.out = s.out)

/-! ### Rules about every instruction -/

/-- R33, R34: over all instructions, a flag changes only under an instruction that R34 lists as its writer; CF, SF, TF,
OF and the unnamed bits never change, and IF and DF are never set. -/
def Obligations.FlagWritersAreComplete : Prop :=
  ∀ (i : Instr) (s t : State), exec i s = .next t →
    (∀ f, f ∉ flagTargets i → flagOf f t.flags = flagOf f s.flags) ∧
    (∀ k ∈ [0, 1, 3, 5, 7, 8, 11, 12, 13, 14, 15], t.flags.getLsbD k = s.flags.getLsbD k) ∧
    (flagOf .interrupt t.flags = true → flagOf .interrupt s.flags = true) ∧
    (flagOf .direction t.flags = true → flagOf .direction s.flags = true)

/-- R23, R41: over all instructions, a general or segment register changes only under an instruction listed as its
writer; in particular SS never changes, and CS only under `JMP far`. -/
def Obligations.RegisterWritersAreComplete : Prop :=
  ∀ (i : Instr) (s t : State), exec i s = .next t →
    (∀ r, r ∉ regTargets i → t.regs.get r = s.regs.get r) ∧
    (∀ r, r ∉ sregTargets i → t.sregs.get r = s.sregs.get r)

/-- No instruction of the interpreter touches the RSP engine, the sticky flags, the parameters or the waiting inputs, and
none transmits: what it adds to the outputs holds no transmission. -/
def Obligations.InstructionsLeaveTheEngineAlone : Prop :=
  ∀ (i : Instr) (s t : State), i.isRsp = false → exec i s = .next t →
    SameEngine s t ∧ SameControl s t ∧ ∃ new, Emits new s t ∧ ∀ bytes, Output.tx bytes ∉ new

/-- R311: while no run loop is in progress no step touches the CPU or a byte of memory, only the host's call of `stepi` or
`cont` through its slot starts one, and with nothing waiting nothing happens at all. R222, R231, R233: nothing that arrives
on the wire touches the CPU, a byte of memory, `kill` or `intr`, or starts a run loop. -/
def Obligations.OnlyARunLoopRunsTheCpu : Prop :=
  (∀ s t : State, s.run = .idle → step s = .next t →
    SameCpu s t ∧ SameBytes s t ∧
    (t.run = .stepi → s.cfg.slots.stepi = true ∧ ∃ rest, s.calls = .stepi :: rest) ∧
    (t.run = .cont → s.cfg.slots.cont = true ∧ ∃ rest, s.calls = .cont :: rest) ∧
    (s.calls = [] → s.wire = [] → t = s)) ∧
  (∀ (s t : State) (e : WireEvent) (rest : List WireEvent), s.hears e rest → step s = .next t →
    SameCpu s t ∧ SameBytes s t ∧ t.kill = s.kill ∧ t.intr = s.intr ∧ t.run = .idle ∧ t.cfg = s.cfg)

/-! ### Errors -/

/-- R285: an error changes nothing but what is returned (and the length of the scratch buffer), except that a repeated
STOSW keeps the stores and the DI and CX updates of its completed iterations; the run loop ends and reports the status
string. -/
def Obligations.ErrorsArePrecise : Prop :=
  ∀ (s t : State) (e : StepError), s.running → step s = .next t → t.res = some (.error e) →
    ((decode s.cfg (fetch s).1 ≠ .ok .stosw ∨ s.drep = .none) → Halted e s t) ∧
    (decode s.cfg (fetch s).1 = .ok .stosw → s.drep ≠ .none → s.bus.wf s.cfg = true →
      ∃ k < s.regs.cx.toNat, StosFilled k s t ∧ t.regs.cx.toNat = s.regs.cx.toNat - k ∧
        t.regs.di = s.regs.di + BitVec.ofNat 16 (2 * k)) ∧
    t.ip = s.ip ∧ t.dseg = s.dseg ∧ t.drep = s.drep ∧ t.run = .idle ∧ t.out = s.out ++ [statusReport s] ∧
    Frame [.di, .cx] [] [] s { t with run := s.run }

/-- R55, R283, R287: there is no halted latch: what the last step returned has no influence on the next; and there is no
way out of a halt: after an error a new `stepi` or `cont` fails again in the same way, changes nothing and reports the
status string again. A repeated STOSW is left out of the second clause, since its completed stores may have changed the
bytes fetched. -/
def Obligations.HaltIsNotLatchedAndRepeats : Prop :=
  ∀ s : State, s.running →
    (∀ r, step { s with res := r } = step s) ∧
    (∀ t e loop, step s = .next t → t.res = some (.error e) →
      (decode s.cfg (fetch s).1 ≠ .ok .stosw ∨ s.drep = .none) → loop ≠ .idle →
      step { t with run := loop } = .next { t with out := t.out ++ [statusReport s] })

/-- R281, R103: with admissible codes, an error's number is negative, and equal numbers mean the same class; 0 and 1 are
the other two results. -/
def Obligations.ErrorCodesAreNegativeAndDistinct : Prop :=
  ∀ c : ErrCodes, c.wf = true →
    (∀ e : StepError, (StepResult.error e).code c < 0) ∧
    (∀ e e' : StepError, e.code c = e'.code c → e.ctorIdx = e'.ctorIdx) ∧
    StepResult.done.code c = 0 ∧ StepResult.prefixDone.code c = 1

/-! ### The memory bus -/

/-- R66: a request of at least one byte gets at least one; it is clamped exactly when it starts in RAM and runs past the
end of RAM, or starts in ROM and runs past the end of ROM; a request of none gets none and changes nothing. -/
def Obligations.RequestsAreClampedAtRegionEnds : Prop :=
  ∀ (cfg : Config) (b : Bus) (a n : Nat),
    (1 ≤ n → 1 ≤ (resolve cfg a n).len) ∧
    ((resolve cfg a n).len < n ↔
      (a < cfg.ramSize ∧ a + n > cfg.ramSize) ∨
      (¬ a < cfg.ramSize ∧ 0xF0000 ≤ a ∧ a ≤ 0xFFFFF ∧ a + n > 0x100000)) ∧
    (busRead cfg b a 0).1 = [] ∧ (busRead cfg b a 0).2 = b ∧ busWrite cfg b a [] = b

/-- R68, R71: of the bytes written, those that fit the region of the address are read back, in ROM as in RAM, the others
are dropped, and no other byte of RAM, ROM or scratch changes. -/
def Obligations.WriteThenReadReturnsTheBytes : Prop :=
  ∀ (cfg : Config) (b : Bus) (a : Nat) (bytes : List Byte), b.wf cfg = true →
    (busRead cfg (busWrite cfg b a bytes) a bytes.length).1 = bytes.take (resolve cfg a bytes.length).len ∧
    ∀ r k, ¬ (r = (resolve cfg a bytes.length).region ∧ (resolve cfg a bytes.length).offset ≤ k ∧
        k < (resolve cfg a bytes.length).offset + (resolve cfg a bytes.length).len) →
      (busWrite cfg b a bytes).get r k = b.get r k

/-- R69, R70: all unmapped addresses share one buffer: bytes stored at one are read back from every other, followed by
what the buffer held, and RAM and ROM are untouched. -/
def Obligations.UnmappedAddressesShareOneBuffer : Prop :=
  ∀ (cfg : Config) (b : Bus) (a a' n : Nat) (bytes : List Byte), b.wf cfg = true →
    regionOf cfg a = .scratch → regionOf cfg a' = .scratch →
    (busRead cfg (busWrite cfg b a bytes) a' (bytes.length + n)).1 =
      bytes ++ (List.range n).map (fun i => b.get .scratch (bytes.length + i)) ∧
    (busWrite cfg b a bytes).ram = b.ram ∧ (busWrite cfg b a bytes).rom = b.rom ∧
    (busWrite cfg b a bytes).scrLen = max b.scrLen bytes.length

/-! ### The RSP engine -/

/-- R224, R240: the checksum is the sum of the byte values modulo 256, written as two lowercase hex digits after `#`; the
frame of `S05` is `$S05#b8`. -/
def Obligations.FrameCarriesTheChecksum : Prop :=
  frame [0x53#8, 0x30#8, 0x35#8] = [0x24#8, 0x53#8, 0x30#8, 0x35#8, 0x23#8, 0x62#8, 0x38#8] ∧
  ∀ p : List Byte,
    (checksum p).toNat = (p.map BitVec.toNat).sum % 256 ∧
    frame p = [0x24#8] ++ p ++ [0x23#8] ++ hex2 (checksum p) ∧
    ∀ v : Byte, ∃ h l : Byte, hex2 v = [h, l] ∧ hexValue h = some (v.toNat / 16) ∧ hexValue l = some (v.toNat % 16) ∧
      ∀ d ∈ [h, l], (0x30 ≤ d.toNat ∧ d.toNat ≤ 0x39) ∨ (0x61 ≤ d.toNat ∧ d.toNat ≤ 0x66)

/-- R228, R231: the verb `?` is acknowledged once and answered with the framed status string; without the slot it is logged
as unsupported (log 18) and answered `$#00`. An unknown verb is acknowledged once and answered `$#00`, no handler
being called. Nothing else changes. -/
def Obligations.QuestionAndUnknownVerbsReply : Prop :=
  ∀ (s : State) (v : Byte), s.sess = .accepted → s.txRoom = none →
    (s.cfg.slots.question = true → exec .rspQuestion s =
      .next { s with rx := .idle, out := s.out ++ [.tx ackBytes, .tx (frame s.cfg.stopStatus)] }) ∧
    (s.cfg.slots.question = false → exec .rspQuestion s =
      .next { s with rx := .idle, out := s.out ++ [.tx ackBytes, .unsupported .question, .tx (frame [])] }) ∧
    exec (.rspUnknown v) s = .next { s with rx := .idle, out := s.out ++ [.tx ackBytes, .tx (frame [])] }

/-- R229: the verb `g` is acknowledged once and answered with the framed register dump; without the slot it is logged as
unsupported (log 18) and answered `$#00`; in 64-bit mode without a length the engine refuses (R262). -/
def Obligations.GetRegsVerbReplies : Prop :=
  ∀ s : State, s.sess = .accepted → s.txRoom = none →
    (s.cfg.slots.getRegs = false ∨ s.cfg.regWidth = .w32 ∨ s.cfg.dump64Len ≠ none →
      ∃ t, exec .rspGetRegs s = .next t ∧
        (s.cfg.slots.getRegs = true → ∃ p, getRegs s = some p ∧ Emits [.tx ackBytes, .tx (frame p)] s t) ∧
        (s.cfg.slots.getRegs = false → Emits [.tx ackBytes, .unsupported .getRegs, .tx (frame [])] s t) ∧
        t.rx = .idle ∧ t.sess = .accepted ∧ SameCpu s t ∧ SameMemory s t ∧ SameControl s t) ∧
    (s.cfg.slots.getRegs = true → s.cfg.regWidth = .w64 → s.cfg.dump64Len = none →
      exec .rspGetRegs s = .refused .dump64LenOpen)

/-- R230: the verb `m` is acknowledged once and answered with the framed dump of `acc_len` bytes at physical address
`acc_addr`; without the slot it is logged as unsupported (log 18) and answered `$#00`; no byte of memory changes. -/
def Obligations.ReadMemVerbReplies : Prop :=
  ∀ s : State, s.sess = .accepted → s.txRoom = none →
    ∃ t, exec .rspReadMem s = .next t ∧
      (s.cfg.slots.readMem = true → Emits [.tx ackBytes,
        .tx (frame ((busRead s.cfg s.bus s.accAddr.toNat s.accLen.toNat).1.flatMap hex2))] s t) ∧
      (s.cfg.slots.readMem = false → Emits [.tx ackBytes, .unsupported .readMem, .tx (frame [])] s t) ∧
      t.rx = .idle ∧ t.sess = .accepted ∧ SameCpu s t ∧ SameBytes s t ∧ SameControl s t

/-- R227, R228, R229, R232: five received bytes `$`, `?`, `#` and ANY two trailer bytes draw exactly one `+` and the framed
status string, and `$`, `g`, `#` and any two exactly one `+` and the framed register dump, a wrong checksum included;
without the slot the call is logged as unsupported (log 18) and the reply is `$#00`. The engine is ready for the next
packet. -/
def Obligations.QuestionAndRegistersPacketsAreServiced : Prop :=
  ∀ (s : State) (x y : Byte) (rest : List WireEvent), s.calls = [] → s.run = .idle → s.sess = .accepted → s.rx = .idle →
    s.txRoom = none →
    (s.wire = [.rx 0x24#8, .rx 0x3F#8, .rx 0x23#8, .rx x, .rx y] ++ rest →
      ∃ t, steps 5 s = .next t ∧ t.rx = .idle ∧ t.wire = rest ∧ SameCpu s t ∧ SameMemory s t ∧
        (s.cfg.slots.question = true → Emits [.tx ackBytes, .tx (frame s.cfg.stopStatus)] s t) ∧
        (s.cfg.slots.question = false → Emits [.tx ackBytes, .unsupported .question, .tx (frame [])] s t)) ∧
    (s.wire = [.rx 0x24#8, .rx 0x67#8, .rx 0x23#8, .rx x, .rx y] ++ rest →
      s.cfg.slots.getRegs = false ∨ s.cfg.regWidth = .w32 ∨ s.cfg.dump64Len ≠ none →
      ∃ t, steps 5 s = .next t ∧ t.rx = .idle ∧ t.wire = rest ∧ SameCpu s t ∧ SameMemory s t ∧
        (s.cfg.slots.getRegs = true → ∃ p, getRegs s = some p ∧ Emits [.tx ackBytes, .tx (frame p)] s t) ∧
        (s.cfg.slots.getRegs = false → Emits [.tx ackBytes, .unsupported .getRegs, .tx (frame [])] s t))

/-- R230, R232: a packet `$m<addr>,<len>#` with ANY hex-digit runs, empty or long, in either case, and any trailer, reads
`len` bytes at `addr`, both modulo 2^32; without the slot it is logged as unsupported (log 18) and answered
`$#00`. -/
def Obligations.ReadMemPacketIsServiced : Prop :=
  ∀ (s : State) (addr len : List Byte) (x y : Byte) (rest : List WireEvent), s.calls = [] → s.run = .idle →
    s.sess = .accepted → s.rx = .idle → s.txRoom = none →
    (∀ b ∈ addr ++ len, (hexValue b).isSome = true) →
    s.wire = ([0x24#8, 0x6D#8] ++ addr ++ [0x2C#8] ++ len ++ [0x23#8, x, y]).map WireEvent.rx ++ rest →
    ∃ t, steps (addr.length + len.length + 6) s = .next t ∧
      (s.cfg.slots.readMem = true → Emits [.tx ackBytes,
        .tx (frame ((busRead s.cfg s.bus (hexRun addr).toNat (hexRun len).toNat).1.flatMap hex2))] s t) ∧
      (s.cfg.slots.readMem = false → Emits [.tx ackBytes, .unsupported .readMem, .tx (frame [])] s t) ∧
      t.rx = .idle ∧ t.wire = rest ∧ SameCpu s t ∧ SameBytes s t

/-- R231: a packet with any other verb byte and any bytes up to the first `#` draws exactly one `+` and one `$#00` after
its two trailer bytes, however long it is; the CPU, the memory and the sticky flags are untouched. -/
def Obligations.UnknownPacketIsDiscarded : Prop :=
  ∀ (s : State) (v x y : Byte) (skipped : List Byte) (rest : List WireEvent), s.calls = [] → s.run = .idle →
    s.sess = .accepted → s.rx = .idle → s.txRoom = none → v ∉ knownVerbs → 0x23#8 ∉ skipped →
    s.wire = ([0x24#8, v] ++ skipped ++ [0x23#8, x, y]).map WireEvent.rx ++ rest →
    ∃ t, steps (skipped.length + 5) s = .next t ∧ Emits [.tx ackBytes, .tx (frame [])] s t ∧ t.rx = .idle ∧ t.wire = rest ∧
      SameCpu s t ∧ SameMemory s t ∧ t.kill = s.kill ∧ t.intr = s.intr

/-- R226, R233, R234: in state IDLE a `+` is ignored, a `$` opens a packet, and any other byte (the interrupt request 03
among them) draws one `$#00` without `+` and has no other effect; a parse failure (a byte other than `#` after `?` or
`g`, or one that is neither hex digit nor the separator in the arguments of `m`) draws one `$#00` without `+`, calls no
handler and goes back to IDLE. -/
def Obligations.LeadBytesAndParseFailures : Prop :=
  ∀ (s : State) (b : Byte) (rest : List WireEvent), s.hears (.rx b) rest → s.sess = .accepted → s.txRoom = none →
    (s.rx = .idle → b = 0x2B#8 → step s = .next { s with wire := rest }) ∧
    (s.rx = .idle → b = 0x24#8 → step s = .next { s with wire := rest, rx := .verb }) ∧
    (s.rx = .idle ∧ b ≠ 0x2B#8 ∧ b ≠ 0x24#8 ∨
      (∃ v, s.rx = .delim v) ∧ b ≠ 0x23#8 ∨
      s.rx = .mAddr ∧ hexValue b = none ∧ b ≠ 0x2C#8 ∨
      s.rx = .mLen ∧ hexValue b = none ∧ b ≠ 0x23#8 →
      step s = .next { s with wire := rest, rx := .idle, out := s.out ++ [.tx (frame [])] })

/-- R221, R222: `Connect` in Listening opens a session in IDLE and in Accepted has no effect; `Hangup` in any receive
state goes back to Listening, discards the parser state, transmits nothing and leaves the CPU, the memory and the sticky
flags alone. -/
def Obligations.SessionTransitions : Prop :=
  ∀ (s : State) (rest : List WireEvent),
    (s.hears .connect rest → s.sess = .listening →
      step s = .next { s with wire := rest, sess := .accepted, rx := .idle }) ∧
    (s.hears .connect rest → s.sess = .accepted → step s = .next { s with wire := rest }) ∧
    (s.hears .hangup rest → ∃ t, step s = .next t ∧ t.sess = .listening ∧ t.rx = .idle ∧ t.csum = 0#8 ∧
      t.accAddr = 0#32 ∧ t.accLen = 0#32 ∧ t.out = s.out ∧ SameCpu s t ∧ SameMemory s t ∧ t.kill = s.kill ∧
      t.intr = s.intr)

/-- R222, R242: whatever an RSP row would transmit, a client that takes fewer bytes gets exactly those it takes, the rest
is dropped and the session is back in Listening; a client that takes them all gets them all and stays. The same of the
lone `$#00` that an unrecognised lead byte or a parse failure draws. The CPU and every byte of memory are untouched. -/
def Obligations.ShortWriteIsAHangup : Prop :=
  (∀ (i : Instr) (s u : State) (new : List Output) (room : Nat), i.isRsp = true → s.sess = .accepted →
    exec i { s with txRoom := none } = .next u → Emits new s u →
    ∃ t new', exec i { s with txRoom := some room } = .next t ∧ Emits new' s t ∧
      txBytes new' = (txBytes new).take room ∧
      (room < (txBytes new).length → t.sess = .listening ∧ t.rx = .idle) ∧
      ((txBytes new).length ≤ room → t.sess = .accepted ∧ t.rx = .idle) ∧ SameCpu s t ∧ SameBytes s t) ∧
  (∀ (s : State) (b : Byte) (rest : List WireEvent) (room : Nat), s.hears (.rx b) rest → s.sess = .accepted →
    s.txRoom = some room →
    (s.rx = .idle ∧ b ≠ 0x2B#8 ∧ b ≠ 0x24#8 ∨ (∃ v, s.rx = .delim v) ∧ b ≠ 0x23#8 ∨
      s.rx = .mAddr ∧ hexValue b = none ∧ b ≠ 0x2C#8 ∨ s.rx = .mLen ∧ hexValue b = none ∧ b ≠ 0x23#8) →
    ∃ t, step s = .next t ∧ Emits [.tx ((frame []).take room)] s t ∧ t.rx = .idle ∧
      (room < (frame []).length → t.sess = .listening) ∧ ((frame []).length ≤ room → t.sess = .accepted) ∧
      SameCpu s t ∧ SameBytes s t)

/-- R241: with an admissible status string and no short write, everything a step newly transmits is one `+` or one frame
whose payload holds none of the bytes of R240. -/
def Obligations.TransmissionsAreWellFramed : Prop :=
  ∀ s t : State, s.cfg.wf = true → s.txRoom = none → step s = .next t →
    ∃ new, Emits new s t ∧ ∀ bytes, Output.tx bytes ∈ new → wellFramed bytes

/-! ### The debug bridge -/

/-- R262: in 32-bit mode the dump has 128 characters, field `i` standing at `8*i`: low byte, high byte, four zeros, in
the order AX CX DX BX SP BP SI DI IP FLAGS CS SS DS ES, then two zero fields; in 64-bit mode it is padded with `0` to
`DUMP64_LEN`, and without a value of that parameter there is no dump. -/
def Obligations.RegisterDumpLayout : Prop :=
  ∀ s : State,
    (∃ p, p.length = 128 ∧
      (∀ i < 16, ∀ v, [s.regs.ax, s.regs.cx, s.regs.dx, s.regs.bx, s.regs.sp, s.regs.bp, s.regs.si, s.regs.di, s.ip,
          s.flags, s.sregs.cs, s.sregs.ss, s.sregs.ds, s.sregs.es, 0#16, 0#16][i]? = some v →
        (p.drop (8 * i)).take 8 = hex2 v.lo ++ hex2 v.hi ++ [0x30#8, 0x30#8, 0x30#8, 0x30#8]) ∧
      (s.cfg.regWidth = .w32 → getRegs s = some p) ∧
      (∀ n, s.cfg.regWidth = .w64 → s.cfg.dump64Len = some n → 128 ≤ n →
        ∃ q, getRegs s = some q ∧ q.length = n ∧ q.take 128 = p ∧ ∀ b ∈ q.drop 128, b = 0x30#8)) ∧
    (s.cfg.regWidth = .w64 → s.cfg.dump64Len = none → getRegs s = none)

/-- R263: the memory dump has two characters for each byte the bus resolves, in address order, and reading changes no
byte. -/
def Obligations.MemoryDumpLayout : Prop :=
  ∀ (s : State) (addr len : DWord),
    (readMemory addr len s).1.length = 2 * (resolve s.cfg addr.toNat len.toNat).len ∧
    (∀ i < (resolve s.cfg addr.toNat len.toNat).len, (((readMemory addr len s).1.drop (2 * i)).take 2) =
      hex2 (s.bus.get (resolve s.cfg addr.toNat len.toNat).region
        ((resolve s.cfg addr.toNat len.toNat).offset + i))) ∧
    SameBytes s (readMemory addr len s).2

/-- R265: once called, `stepi` comes to its end in at most two steps of the interpreter: a prefix and its instruction
count as one. R267: it then reports the status string. -/
def Obligations.StepiEndsWithinTwoSteps : Prop :=
  ∀ s : State, s.calls = [] → s.run = .stepi → s.kill = false → s.intr = false →
    ∃ t, step s = .next t ∧
      ((t.run = .idle ∧ t.out.getLast? = some (.returned s.cfg.stopStatus)) ∨
        (t.res = some .prefixDone ∧ t.run = .stepi ∧
          ∃ u, step t = .next u ∧ u.run = .idle ∧ u.out.getLast? = some (.returned s.cfg.stopStatus)))

/-- R264, R265, R266: a run loop looks at `kill` and `intr` before each step; if either is set it makes no step, whatever
stands at `CS:IP`, and reports the status string. While neither is set, `cont` goes on exactly as long as the
interpreter returns no error, and the transport waits. -/
def Obligations.RunLoopsStopOnFlagsAndErrors : Prop :=
  ∀ s : State, s.calls = [] →
    (s.run ≠ .idle → (s.kill = true ∨ s.intr = true) →
      step s = .next { s with run := .idle, out := s.out ++ [.returned s.cfg.stopStatus] }) ∧
    (s.run = .cont → s.kill = false → s.intr = false → ∃ t, step s = .next t ∧ t.wire = s.wire ∧
      ((∃ e, t.res = some (.error e) ∧ t.run = .idle ∧ t.out = s.out ++ [.returned s.cfg.stopStatus]) ∨
        (t.run = .cont ∧ (t.res = some .done ∨ t.res = some .prefixDone))))

/-- R49, R264: no step clears `kill` or `intr`, and only the host's call of that name, with its slot present, sets one.
R50: no step changes a parameter. R53: the scratch buffer never shrinks. Outputs are never taken back. -/
def Obligations.StickyFlagsParametersAndOutputs : Prop :=
  ∀ s t : State, step s = .next t →
    (s.kill = true → t.kill = true) ∧ (s.intr = true → t.intr = true) ∧
    (s.kill = false → t.kill = true → s.cfg.slots.kill = true ∧ ∃ rest, s.calls = .kill :: rest) ∧
    (s.intr = false → t.intr = true → s.cfg.slots.intr = true ∧ ∃ rest, s.calls = .intr :: rest) ∧
    t.cfg = s.cfg ∧ s.bus.scrLen ≤ t.bus.scrLen ∧ s.out <+: t.out

/-- R260, R261, R264: what each host call does at its boundary: `kill` and `intr` set their flag, `stepi` and `cont` start
a run loop, `question` returns the status string, `get_regs` the register dump, `read_mem` the memory dump; without the
slot each of the seven is logged as unsupported and does nothing. A boundary at which the host does nothing, and an empty
schedule, let the run loop make its next iteration, or else the engine take its next event, or else change nothing. -/
def Obligations.HostCallsDoWhatTheirSlotSays : Prop :=
  ∀ (s : State) (rest : List HostCall),
    (s.calls = .kill :: rest → s.cfg.slots.kill = true → step s = .next { s with calls := rest, kill := true }) ∧
    (s.calls = .intr :: rest → s.cfg.slots.intr = true → step s = .next { s with calls := rest, intr := true }) ∧
    (s.calls = .stepi :: rest → s.cfg.slots.stepi = true → s.run = .idle →
      step s = .next { s with calls := rest, run := .stepi }) ∧
    (s.calls = .cont :: rest → s.cfg.slots.cont = true → s.run = .idle →
      step s = .next { s with calls := rest, run := .cont }) ∧
    (s.calls = .question :: rest → s.cfg.slots.question = true →
      step s = .next { s with calls := rest, out := s.out ++ [.returned s.cfg.stopStatus] }) ∧
    (∀ p, s.calls = .getRegs :: rest → s.cfg.slots.getRegs = true → s.run = .idle → getRegs s = some p →
      step s = .next { s with calls := rest, out := s.out ++ [.returned p] }) ∧
    (∀ a n, s.calls = .readMem a n :: rest → s.cfg.slots.readMem = true → s.run = .idle →
      step s = .next { s with
        calls := rest
        bus := (busRead s.cfg s.bus a.toNat n.toNat).2
        out := s.out ++ [.returned ((busRead s.cfg s.bus a.toNat n.toNat).1.flatMap hex2)] }) ∧
    (∀ slot : Slot,
      (slot = .kill ∧ s.calls = .kill :: rest ∧ s.cfg.slots.kill = false ∨
        slot = .intr ∧ s.calls = .intr :: rest ∧ s.cfg.slots.intr = false ∨
        slot = .stepi ∧ s.calls = .stepi :: rest ∧ s.cfg.slots.stepi = false ∨
        slot = .cont ∧ s.calls = .cont :: rest ∧ s.cfg.slots.cont = false ∨
        slot = .question ∧ s.calls = .question :: rest ∧ s.cfg.slots.question = false ∨
        slot = .getRegs ∧ s.calls = .getRegs :: rest ∧ s.cfg.slots.getRegs = false ∨
        slot = .readMem ∧ (∃ a n, s.calls = .readMem a n :: rest) ∧ s.cfg.slots.readMem = false) →
      step s = .next { s with calls := rest, out := s.out ++ [.unsupported slot] }) ∧
    (s.calls = .quiet :: rest ∨ s.calls = [] ∧ rest = [] →
      (s.run ≠ .idle → step s = runLoopIteration { s with calls := rest }) ∧
      (∀ e w, s.run = .idle → s.wire = e :: w → step s = receive e { s with calls := rest, wire := w }) ∧
      (s.run = .idle → s.wire = [] → step s = .next { s with calls := rest }))

/-! ### Reset and the invariant -/

/-- R56, R310: every piece of state after reset, for every choice of the parameters: the registers at their parameters,
the prefix state at DS and None, the sticky flags 0, RAM and ROM as supplied, the scratch buffer empty, the engine in
Listening and IDLE. R311: the first fetch will be at `RESET_CS:RESET_IP`, and no instruction runs until `stepi` or `cont`
is called. -/
def Obligations.ResetValues : Prop :=
  ∀ (cfg : Config) (ramInit romImage : List Host.Cell),
    let s := State.resetWith cfg ramInit romImage
    (∀ r, s.regs.get r = cfg.resetGpr) ∧ s.ip = cfg.resetIp ∧ s.flags = cfg.resetFlags ∧
    s.sregs.cs = cfg.resetCs ∧ s.sregs.ss = cfg.resetSs ∧ s.sregs.ds = cfg.resetDs ∧ s.sregs.es = cfg.resetEs ∧
    s.dseg = .ds ∧ s.drep = .none ∧ s.kill = false ∧ s.intr = false ∧
    (∀ c ∈ ramInit, c.1 < cfg.ramSize → (∀ d ∈ ramInit, d.1 = c.1 → d = c) → s.bus.get .ram c.1 = c.2) ∧
    (∀ c ∈ romImage, c.1 < 0x10000 → (∀ d ∈ romImage, d.1 = c.1 → d = c) → s.bus.get .rom c.1 = c.2) ∧
    s.bus.scr = [] ∧ s.bus.scrLen = 0 ∧ s.sess = .listening ∧ s.rx = .idle ∧ s.csum = 0#8 ∧ s.accAddr = 0#32 ∧
    s.accLen = 0#32 ∧
    addrFetch s = cfg.resetCs.toNat * 16 + cfg.resetIp.toNat ∧ step s = .next s

/-- The reset state of every instance with admissible parameters is legal. -/
def Obligations.ResetIsLegal : Prop :=
  ∀ (cfg : Config) (ramInit romImage : List Host.Cell), cfg.wf = true → (State.resetWith cfg ramInit romImage).Inv

/-- From every legal state, whoever moves, a step leads to a legal state: the parameters stay admissible, the three byte
arrays keep their canonical form and stay inside their regions, at most one prefix is outstanding and none is `RepNZ`,
and a session without a client has no packet in progress. -/
def Obligations.EveryStepKeepsLegality : Prop :=
  ∀ s t : State, s.Inv → step s = .next t → t.Inv
end

