-- ==== Sys2Proof/Laws/Operands.lean ====
section
/-! SUPPORT. The laws of the register file, of the byte halves and of the flags word. -/

namespace Sys2Proof

/-! ### Words and bytes -/

/-- The value of a word is `lo + 256*hi` (20_memory.md R72). -/
theorem toNat_mkWord (lo hi : Byte) : (mkWord lo hi).toNat = lo.toNat + 256 * hi.toNat := by
  unfold mkWord
  rw [BitVec.toNat_append, ← Nat.shiftLeft_add_eq_or_of_lt lo.isLt, Nat.shiftLeft_eq]
  omega

theorem toNat_lo (w : Word) : (Word.lo w).toNat = w.toNat % 256 := by
  simp [Word.lo, BitVec.extractLsb'_toNat]

theorem toNat_hi (w : Word) : (Word.hi w).toNat = w.toNat / 256 := by
  have := w.isLt
  simp only [Word.hi, BitVec.extractLsb'_toNat, Nat.shiftRight_eq_div_pow]
  omega

@[simp] theorem lo_mkWord (lo hi : Byte) : Word.lo (mkWord lo hi) = lo := by
  apply BitVec.eq_of_toNat_eq
  have := lo.isLt
  rw [toNat_lo, toNat_mkWord]
  omega

@[simp] theorem hi_mkWord (lo hi : Byte) : Word.hi (mkWord lo hi) = hi := by
  apply BitVec.eq_of_toNat_eq
  have := lo.isLt
  rw [toNat_hi, toNat_mkWord]
  omega

@[simp] theorem mkWord_lo_hi (w : Word) : mkWord (Word.lo w) (Word.hi w) = w := by
  apply BitVec.eq_of_toNat_eq
  rw [toNat_mkWord, toNat_lo, toNat_hi]
  omega

@[simp] theorem Reg16.ofNum_num (r : Reg16) : Reg16.ofNum r.num = r := by cases r <;> rfl

@[simp] theorem Reg8.ofNum_num (r : Reg8) : Reg8.ofNum r.num = r := by cases r <;> rfl

@[simp] theorem Reg16.num_ofNum (n : BitVec 3) : (Reg16.ofNum n).num = n := by
  revert n; decide

@[simp] theorem Reg8.num_ofNum (n : BitVec 3) : (Reg8.ofNum n).num = n := by
  revert n; decide

@[simp] theorem modOf_mkModRM (md : BitVec 2) (reg rm : BitVec 3) : modOf (mkModRM md reg rm) = md := by
  revert md reg rm; decide

@[simp] theorem regOf_mkModRM (md : BitVec 2) (reg rm : BitVec 3) : regOf (mkModRM md reg rm) = reg := by
  revert md reg rm; decide

@[simp] theorem rmOf_mkModRM (md : BitVec 2) (reg rm : BitVec 3) : rmOf (mkModRM md reg rm) = rm := by
  revert md reg rm; decide

/-- A ModRM byte is its three fields (30_encoding.md R107). -/
theorem mkModRM_fields (m : Byte) : mkModRM (modOf m) (regOf m) (rmOf m) = m := by
  revert m; decide

namespace Machine

/-! ### The register file -/

theorem Regs.get_set (x : Regs) (r q : Reg16) (v : Word) :
    (x.set r v).get q = if q = r then v else x.get q := by
  cases r <;> cases q <;> rfl

@[simp] theorem Regs.get_set_same (x : Regs) (r : Reg16) (v : Word) : (x.set r v).get r = v := by
  cases r <;> rfl

theorem SRegs.get_set (x : SRegs) (r q : SReg) (v : Word) :
    (x.set r v).get q = if q = r then v else x.get q := by
  cases r <;> cases q <;> rfl

/-- Writing a register with its own value changes nothing. -/
theorem Regs.set_get (x : Regs) (r : Reg16) : x.set r (x.get r) = x := by cases r <;> rfl

/-- Two register files that agree on every register are equal. -/
theorem Regs.ext_get {x y : Regs} (h : ∀ r, x.get r = y.get r) : x = y := by
  have := h .ax; have := h .cx; have := h .dx; have := h .bx
  have := h .sp; have := h .bp; have := h .si; have := h .di
  cases x; cases y
  simp_all [Regs.get]

/-- Writing a byte register changes exactly that half (10_state.md R21). -/
theorem Regs.getByte_setByte (x : Regs) (r q : Reg8) (v : Byte) :
    (x.setByte r v).getByte q = if q = r then v else x.getByte q := by
  cases r <;> cases q <;> simp [Regs.setByte, Regs.getByte, isHighHalf, parentOf, Regs.set, Regs.get]

/-- A byte register has a parent among AX, CX, DX, BX; the other registers are out of its reach (R21). -/
theorem Regs.get_setByte_other (x : Regs) (r : Reg8) (q : Reg16) (v : Byte) (h : q ≠ parentOf r) :
    (x.setByte r v).get q = x.get q := by
  unfold Regs.setByte
  rw [Regs.get_set, if_neg h]

/-! ### The flags word -/

theorem getLsbD_withFlag (f : Flag) (b : Bool) (w : Word) (k : Nat) :
    (withFlag f b w).getLsbD k = if k = f.bit then b else w.getLsbD k := by
  have hf : f.bit < 16 := by cases f <;> decide
  unfold withFlag
  by_cases hk : k = f.bit
  · subst hk
    cases b <;> simp [hf]
  · by_cases hk16 : k < 16
    · have : ¬ (f.bit ≤ k ∧ k - f.bit = 0) := by omega
      cases b <;> simp [hk, hk16] <;> omega
    · cases b <;> simp [hk, BitVec.getLsbD_of_ge _ _ (Nat.le_of_not_lt hk16)]

theorem Flag.bit_injective {f g : Flag} : f.bit = g.bit ↔ f = g := by
  cases f <;> cases g <;> decide

theorem flagOf_withFlag (f g : Flag) (b : Bool) (w : Word) :
    flagOf g (withFlag f b w) = if g = f then b else flagOf g w := by
  unfold flagOf
  rw [getLsbD_withFlag]
  simp only [Flag.bit_injective]

@[simp] theorem flagOf_withFlag_same (f : Flag) (b : Bool) (w : Word) : flagOf f (withFlag f b w) = b := by
  rw [flagOf_withFlag, if_pos rfl]

end Machine

end Sys2Proof
end

