-- ==== Sys2Proof/Laws/Decode.lean ====
section
/-! SUPPORT. The small laws of the encoding tables and of the decoder: the fields of the short-register opcodes, a ModRM
byte from its fields, the admissible opcode parameters, and that no bytes decode to an RSP verb (30_encoding.md R107 to
R122). -/

namespace Sys2Proof

/-- An admissible configuration has one of the two values of each opcode parameter (30_encoding.md R122). -/
theorem Config.opcodes_of_wf {cfg : Config} (h : cfg.wf = true) :
    (cfg.xorOpcode = 0x33#8 ∨ cfg.xorOpcode = 0x31#8) ∧ (cfg.movRROpcode = 0x8B#8 ∨ cfg.movRROpcode = 0x89#8) := by
  simp only [Config.wf, Bool.and_eq_true, Bool.or_eq_true, beq_iff_eq] at h
  tauto

/-- An admissible configuration has a status string that can be framed (46_rsp_framer.md R240). -/
theorem Config.stopStatus_of_wf {cfg : Config} (h : cfg.wf = true) : frameable cfg.stopStatus = true := by
  simp only [Config.wf, Bool.and_eq_true] at h
  exact h.1.1.2

/-- The opcode field of a short-register opcode. -/
@[simp] theorem opcodeField_append (p : BitVec 5) (n : BitVec 3) : (p ++ n).extractLsb' 3 5 = p := by
  revert p n; decide

/-- The register field of a short-register opcode. -/
@[simp] theorem rmOf_append (p : BitVec 5) (n : BitVec 3) : rmOf (p ++ n) = n := by
  revert p n; decide

/-- A byte is its opcode field and its register field. -/
theorem opcodeField_rmOf (b : Byte) : b.extractLsb' 3 5 ++ rmOf b = b := by
  revert b; decide

/-- A ModRM byte is determined by its fields. -/
theorem eq_mkModRM {m : Byte} {md : BitVec 2} {reg rm : BitVec 3} (h1 : modOf m = md) (h2 : regOf m = reg)
    (h3 : rmOf m = rm) : m = mkModRM md reg rm := by
  rw [← h1, ← h2, ← h3, mkModRM_fields]

/-- The bytes of the two short-register rows (30_encoding.md R110). -/
theorem opcodeField_eq_iff (b : Byte) :
    (b.extractLsb' 3 5 = 0b10110#5 ↔
      b ∈ [0xB0#8, 0xB1#8, 0xB2#8, 0xB3#8, 0xB4#8, 0xB5#8, 0xB6#8, 0xB7#8]) ∧
    (b.extractLsb' 3 5 = 0b10111#5 ↔
      b ∈ [0xB8#8, 0xB9#8, 0xBA#8, 0xBB#8, 0xBC#8, 0xBD#8, 0xBE#8, 0xBF#8]) := by
  revert b; decide

/-- Splits one test of the decoder off: either its byte is met, or the rest of the chain decides. -/
theorem decodeTest {c : Prop} [Decidable c] {x y z : Decoded} (h : (if c then x else y) = z) :
    (c ∧ x = z) ∨ (¬ c ∧ y = z) := by
  by_cases hc : c
  · exact .inl ⟨hc, by rwa [if_pos hc] at h⟩
  · exact .inr ⟨hc, by rwa [if_neg hc] at h⟩

/-- What no branch of the decoder answers, the decoder never answers. -/
theorem needByte_not {rest : List Byte} {k : Byte → List Byte → Decoded} {i : Instr}
    (hk : ∀ b rest', k b rest' ≠ .ok i) : needByte rest k ≠ .ok i := by
  cases rest with
  | nil => exact fun h => nomatch h
  | cons b rest' => exact hk b rest'

theorem needWord_not {rest : List Byte} {k : Word → List Byte → Decoded} {i : Instr}
    (hk : ∀ w rest', k w rest' ≠ .ok i) : needWord rest k ≠ .ok i :=
  needByte_not fun _ _ => needByte_not fun _ _ => hk _ _

theorem ite_not {c : Prop} [Decidable c] {x y : Decoded} {i : Instr} (hx : x ≠ .ok i) (hy : y ≠ .ok i) :
    (if c then x else y) ≠ .ok i := by
  by_cases hc : c
  · rwa [if_pos hc]
  · rwa [if_neg hc]

/-- An answer that is no RSP verb is not the RSP verb `i`. -/
theorem ok_ne_of_isRsp {i j : Instr} (hi : i.isRsp = true) (hj : j.isRsp = false) : (Except.ok j : Decoded) ≠ .ok i := by
  intro h
  rw [Except.ok.inj h, hi] at hj
  cases hj

theorem error_ne {e : DecodeError} {i : Instr} : (Except.error e : Decoded) ≠ .ok i := fun h => nomatch h

/-- The interpreter's decoder never answers an RSP verb (30_encoding.md R110, R113). -/
theorem decode_isRsp {cfg : Config} {view : List Byte} {i : Instr} (h : decode cfg view = .ok i) : i.isRsp = false := by
  cases hi : i.isRsp with
  | false => rfl
  | true =>
    refine absurd h (needByte_not fun b0 rest => ?_)
    refine ite_not (ok_ne_of_isRsp hi rfl) (ite_not (ok_ne_of_isRsp hi rfl) (ite_not ?_ (ite_not ?_ (ite_not ?_
      (ite_not ?_ (ite_not ?_ (ite_not ?_ (ite_not (ok_ne_of_isRsp hi rfl) (ite_not ?_ (ite_not ?_ (ite_not ?_
      (ite_not ?_ (ite_not (ok_ne_of_isRsp hi rfl) (ite_not (ok_ne_of_isRsp hi rfl) (ite_not ?_
      (ite_not (ok_ne_of_isRsp hi rfl) (ite_not (ok_ne_of_isRsp hi rfl) (ite_not (ok_ne_of_isRsp hi rfl)
      error_ne))))))))))))))))))
    · exact needByte_not fun m _ => ite_not (ite_not (ok_ne_of_isRsp hi rfl) (ite_not (ok_ne_of_isRsp hi rfl) error_ne))
        error_ne
    · exact needByte_not fun m _ => ite_not (ok_ne_of_isRsp hi rfl) error_ne
    · exact needByte_not fun m _ => ite_not (ite_not (ok_ne_of_isRsp hi rfl) error_ne)
        (ite_not (ok_ne_of_isRsp hi rfl) error_ne)
    · exact needByte_not fun m _ => ite_not (ite_not (needWord_not fun _ _ => ok_ne_of_isRsp hi rfl) error_ne)
        (ite_not (ok_ne_of_isRsp hi rfl) error_ne)
    · exact needByte_not fun m _ => ite_not (ite_not (ok_ne_of_isRsp hi rfl) (ite_not (ok_ne_of_isRsp hi rfl)
        (ite_not (ok_ne_of_isRsp hi rfl) (ite_not (ok_ne_of_isRsp hi rfl) error_ne)))) error_ne
    · exact needByte_not fun m _ => ite_not (ite_not (ite_not (ok_ne_of_isRsp hi rfl) error_ne) error_ne) error_ne
    · exact needByte_not fun _ _ => ok_ne_of_isRsp hi rfl
    · exact needWord_not fun _ _ => ok_ne_of_isRsp hi rfl
    · exact needByte_not fun _ _ => ok_ne_of_isRsp hi rfl
    · exact needWord_not fun _ _ => needWord_not fun _ _ => ok_ne_of_isRsp hi rfl
    · exact needByte_not fun _ _ => ok_ne_of_isRsp hi rfl

end Sys2Proof
end

