-- ==== Sys2Proof/Laws/Memory.lean ====
section
/-! SUPPORT. The laws of the byte arrays: read after write, a write leaves every other offset alone, and every write keeps
the canonical form. -/

namespace Sys2Proof.Machine

/-! ### One array -/

theorem Mem.wfFrom_mono {fill : Byte} {lo lo' : Nat} {m : Mem} (h : lo' ≤ lo) (hw : Mem.wfFrom fill lo m = true) :
    Mem.wfFrom fill lo' m = true := by
  cases m with
  | nil => rfl
  | cons c rest =>
    obtain ⟨k, v⟩ := c
    simp only [Mem.wfFrom, Bool.and_eq_true, decide_eq_true_eq] at hw ⊢
    exact ⟨⟨by omega, hw.1.2⟩, hw.2⟩

/-- Below its first admissible offset an array lists nothing. -/
theorem Mem.lookup_below {fill : Byte} {m : Mem} : ∀ {lo a : Nat}, Mem.wfFrom fill lo m = true → a < lo →
    Mem.lookup fill m a = fill := by
  induction m with
  | nil => intros; rfl
  | cons c rest ih =>
    obtain ⟨k, v⟩ := c
    intro lo a hw ha
    simp only [Mem.wfFrom, Bool.and_eq_true, decide_eq_true_eq] at hw
    simp only [Mem.lookup]
    rw [if_neg (by omega), ih hw.2 (by omega)]

/-- Read after write, at every offset. -/
theorem Mem.lookup_store {fill : Byte} {m : Mem} : ∀ {lo : Nat} (a x b), Mem.wfFrom fill lo m = true →
    Mem.lookup fill (Mem.store fill m a x) b = if b = a then x else Mem.lookup fill m b := by
  induction m with
  | nil =>
    intro lo a x b _
    simp only [Mem.store]
    split <;> simp_all [Mem.lookup]
  | cons c rest ih =>
    obtain ⟨k, v⟩ := c
    intro lo a x b hw
    have hw' := hw
    simp only [Mem.wfFrom, Bool.and_eq_true, decide_eq_true_eq] at hw
    simp only [Mem.store]
    split
    · rename_i hak
      split
      · rename_i hx
        by_cases hb : b = a
        · subst hb
          rw [if_pos rfl, hx]
          exact Mem.lookup_below (lo := k) (by simpa [Mem.wfFrom] using ⟨by simpa using hw.1.2, hw.2⟩) hak
        · rw [if_neg hb]
      · simp only [Mem.lookup]
    · split
      · rename_i hak
        subst hak
        split
        · rename_i hx
          by_cases hb : b = a
          · subst hb
            rw [if_pos rfl, hx, Mem.lookup_below hw.2 (by omega)]
          · simp [Mem.lookup, hb]
        · by_cases hb : b = a <;> simp [Mem.lookup, hb]
      · rename_i h1 h2
        simp only [Mem.lookup, ih a x b hw.2]
        by_cases hb : b = k
        · subst hb
          simp [Ne.symm h2]
        · simp [hb]

/-- A write keeps the canonical form. -/
theorem Mem.wfFrom_store {fill : Byte} {m : Mem} : ∀ {lo : Nat} (a x), lo ≤ a → Mem.wfFrom fill lo m = true →
    Mem.wfFrom fill lo (Mem.store fill m a x) = true := by
  induction m with
  | nil =>
    intro lo a x ha _
    simp only [Mem.store]
    split <;> simp_all [Mem.wfFrom]
  | cons c rest ih =>
    obtain ⟨k, v⟩ := c
    intro lo a x ha hw
    have hw' := hw
    simp only [Mem.wfFrom, Bool.and_eq_true, decide_eq_true_eq] at hw
    simp only [Mem.store]
    split
    · split
      · exact hw'
      · rename_i hx
        simp only [Mem.wfFrom, Bool.and_eq_true, decide_eq_true_eq]
        exact ⟨⟨ha, by simpa using hx⟩, ⟨by omega, hw.1.2⟩, hw.2⟩
    · split
      · split
        · exact Mem.wfFrom_mono (by omega) hw.2
        · rename_i hak hx
          subst hak
          simp only [Mem.wfFrom, Bool.and_eq_true, decide_eq_true_eq]
          exact ⟨⟨ha, by simpa using hx⟩, hw.2⟩
      · simp only [Mem.wfFrom, Bool.and_eq_true, decide_eq_true_eq]
        exact ⟨hw.1, ih a x (by omega) hw.2⟩

theorem Mem.wf_store {fill : Byte} {m : Mem} (a x) (h : Mem.wf fill m = true) :
    Mem.wf fill (Mem.store fill m a x) = true :=
  Mem.wfFrom_store a x (Nat.zero_le a) h

/-- A write inside the region keeps every listed offset inside it. -/
theorem Mem.below_store {fill : Byte} {n : Nat} {m : Mem} (a x) (ha : a < n) (h : Mem.below n m = true) :
    Mem.below n (Mem.store fill m a x) = true := by
  unfold Mem.below at *
  induction m with
  | nil => simp only [Mem.store]; split <;> simp [ha]
  | cons c rest ih =>
    obtain ⟨k, v⟩ := c
    simp only [List.all_cons, Bool.and_eq_true, decide_eq_true_eq] at h
    simp only [Mem.store]
    split
    · split <;> simp only [List.all_cons, Bool.and_eq_true, decide_eq_true_eq] <;> tauto
    · split
      · split
        · exact h.2
        · simp only [List.all_cons, Bool.and_eq_true, decide_eq_true_eq]
          exact ⟨ha, h.2⟩
      · simp only [List.all_cons, Bool.and_eq_true, decide_eq_true_eq]
        exact ⟨h.1, ih h.2⟩

theorem Mem.below_mono {n n' : Nat} {m : Mem} (h : n ≤ n') (hb : Mem.below n m = true) : Mem.below n' m = true := by
  simp only [Mem.below, List.all_eq_true, decide_eq_true_eq] at *
  exact fun c hc => Nat.lt_of_lt_of_le (hb c hc) h

/-- An array built from cells is canonical and inside its region. -/
theorem Mem.ofCells_wf (fill : Byte) (size : Nat) (cells : List Host.Cell) :
    Mem.wf fill (Mem.ofCells fill size cells) = true ∧ Mem.below size (Mem.ofCells fill size cells) = true := by
  unfold Mem.ofCells
  suffices h : ∀ m : Mem, Mem.wf fill m = true ∧ Mem.below size m = true →
      Mem.wf fill (cells.foldl (fun m c => if c.1 < size then Mem.store fill m c.1 c.2 else m) m) = true ∧
      Mem.below size (cells.foldl (fun m c => if c.1 < size then Mem.store fill m c.1 c.2 else m) m) = true from
    h [] ⟨rfl, rfl⟩
  induction cells with
  | nil => intro m h; exact h
  | cons c rest ih =>
    intro m h
    refine ih _ ?_
    dsimp only
    split
    · exact ⟨Mem.wf_store _ _ h.1, Mem.below_store _ _ ‹_› h.2⟩
    · exact h

/-! ### The bus -/

/-- The size of a region in a bus. -/
def Bus.sizeOf (cfg : Config) (b : Bus) : Region → Nat
  | .ram => cfg.ramSize
  | .rom => romSize
  | .scratch => b.scrLen

/-- The canonical form, said region by region. -/
theorem Bus.wf_iff (cfg : Config) (b : Bus) :
    b.wf cfg = true ↔ ∀ r, Mem.wf r.fill (b.cells r) = true ∧ Mem.below (b.sizeOf cfg r) (b.cells r) = true := by
  simp only [Bus.wf, Bool.and_eq_true]
  constructor
  · rintro ⟨⟨⟨⟨⟨h1, h2⟩, h3⟩, h4⟩, h5⟩, h6⟩ r
    cases r <;> exact ⟨by assumption, by assumption⟩
  · intro h
    exact ⟨⟨⟨⟨⟨(h .ram).1, (h .ram).2⟩, (h .rom).1⟩, (h .rom).2⟩, (h .scratch).1⟩, (h .scratch).2⟩

@[simp] theorem Bus.put_scrLen (b : Bus) (r k x) : (b.put r k x).scrLen = b.scrLen := by cases r <;> rfl

@[simp] theorem Bus.sizeOf_put (cfg : Config) (b : Bus) (r k x) : (b.put r k x).sizeOf cfg = b.sizeOf cfg := by
  funext q; cases r <;> cases q <;> rfl

theorem Bus.cells_put (b : Bus) (r q : Region) (k : Nat) (x : Byte) :
    (b.put r k x).cells q = if q = r then Mem.store r.fill (b.cells r) k x else b.cells q := by
  cases r <;> cases q <;> rfl

/-- Read after a one-byte write, in every region at every offset. -/
theorem Bus.get_put {cfg : Config} {b : Bus} (h : b.wf cfg = true) (r q : Region) (k j : Nat) (x : Byte) :
    (b.put r k x).get q j = if q = r ∧ j = k then x else b.get q j := by
  unfold Bus.get
  rw [Bus.cells_put]
  by_cases hq : q = r
  · subst hq
    have hw := ((Bus.wf_iff cfg b).1 h q).1
    rw [if_pos rfl, Mem.lookup_store k x j hw]
    simp
  · simp [hq]

/-- A one-byte write inside the region keeps the canonical form. -/
theorem Bus.wf_put {cfg : Config} {b : Bus} (h : b.wf cfg = true) (r : Region) {k : Nat} (x : Byte)
    (hk : k < b.sizeOf cfg r) : (b.put r k x).wf cfg = true := by
  rw [Bus.wf_iff] at h ⊢
  intro q
  rw [Bus.cells_put, Bus.sizeOf_put]
  split
  · rename_i hq
    subst hq
    exact ⟨Mem.wf_store _ _ (h q).1, Mem.below_store _ _ hk (h q).2⟩
  · exact h q

theorem Bus.init_wf (cfg : Config) (ramInit romImage : List Host.Cell) : (Bus.init cfg ramInit romImage).wf cfg = true := by
  rw [Bus.wf_iff]
  intro r
  cases r
  · exact Mem.ofCells_wf _ _ _
  · exact Mem.ofCells_wf _ _ _
  · exact ⟨rfl, rfl⟩

end Sys2Proof.Machine
end

