-- ==== Sys2Proof/Laws/State.lean ====
section
/-! SUPPORT. One lemma per field per named update of State, true by rfl, so that no later proof unfolds a record
update. -/

namespace Sys2Proof.Machine

/-! ### `setReg` -/

@[simp] theorem setReg_regs (r : Reg16) (v : Word) (s : State) : (setReg r v s).regs = s.regs.set r v := rfl
@[simp] theorem setReg_sregs (r : Reg16) (v : Word) (s : State) : (setReg r v s).sregs = s.sregs := rfl
@[simp] theorem setReg_ip (r : Reg16) (v : Word) (s : State) : (setReg r v s).ip = s.ip := rfl
@[simp] theorem setReg_flags (r : Reg16) (v : Word) (s : State) : (setReg r v s).flags = s.flags := rfl
@[simp] theorem setReg_dseg (r : Reg16) (v : Word) (s : State) : (setReg r v s).dseg = s.dseg := rfl
@[simp] theorem setReg_drep (r : Reg16) (v : Word) (s : State) : (setReg r v s).drep = s.drep := rfl
@[simp] theorem setReg_kill (r : Reg16) (v : Word) (s : State) : (setReg r v s).kill = s.kill := rfl
@[simp] theorem setReg_intr (r : Reg16) (v : Word) (s : State) : (setReg r v s).intr = s.intr := rfl
@[simp] theorem setReg_bus (r : Reg16) (v : Word) (s : State) : (setReg r v s).bus = s.bus := rfl
@[simp] theorem setReg_sess (r : Reg16) (v : Word) (s : State) : (setReg r v s).sess = s.sess := rfl
@[simp] theorem setReg_rx (r : Reg16) (v : Word) (s : State) : (setReg r v s).rx = s.rx := rfl
@[simp] theorem setReg_csum (r : Reg16) (v : Word) (s : State) : (setReg r v s).csum = s.csum := rfl
@[simp] theorem setReg_accAddr (r : Reg16) (v : Word) (s : State) : (setReg r v s).accAddr = s.accAddr := rfl
@[simp] theorem setReg_accLen (r : Reg16) (v : Word) (s : State) : (setReg r v s).accLen = s.accLen := rfl
@[simp] theorem setReg_t0 (r : Reg16) (v : Word) (s : State) : (setReg r v s).t0 = s.t0 := rfl
@[simp] theorem setReg_cfg (r : Reg16) (v : Word) (s : State) : (setReg r v s).cfg = s.cfg := rfl
@[simp] theorem setReg_run (r : Reg16) (v : Word) (s : State) : (setReg r v s).run = s.run := rfl
@[simp] theorem setReg_calls (r : Reg16) (v : Word) (s : State) : (setReg r v s).calls = s.calls := rfl
@[simp] theorem setReg_wire (r : Reg16) (v : Word) (s : State) : (setReg r v s).wire = s.wire := rfl
@[simp] theorem setReg_txRoom (r : Reg16) (v : Word) (s : State) : (setReg r v s).txRoom = s.txRoom := rfl
@[simp] theorem setReg_res (r : Reg16) (v : Word) (s : State) : (setReg r v s).res = s.res := rfl
@[simp] theorem setReg_out (r : Reg16) (v : Word) (s : State) : (setReg r v s).out = s.out := rfl

/-! ### `setReg8` -/

@[simp] theorem setReg8_regs (r : Reg8) (v : Byte) (s : State) : (setReg8 r v s).regs = s.regs.setByte r v := rfl
@[simp] theorem setReg8_sregs (r : Reg8) (v : Byte) (s : State) : (setReg8 r v s).sregs = s.sregs := rfl
@[simp] theorem setReg8_ip (r : Reg8) (v : Byte) (s : State) : (setReg8 r v s).ip = s.ip := rfl
@[simp] theorem setReg8_flags (r : Reg8) (v : Byte) (s : State) : (setReg8 r v s).flags = s.flags := rfl
@[simp] theorem setReg8_dseg (r : Reg8) (v : Byte) (s : State) : (setReg8 r v s).dseg = s.dseg := rfl
@[simp] theorem setReg8_drep (r : Reg8) (v : Byte) (s : State) : (setReg8 r v s).drep = s.drep := rfl
@[simp] theorem setReg8_kill (r : Reg8) (v : Byte) (s : State) : (setReg8 r v s).kill = s.kill := rfl
@[simp] theorem setReg8_intr (r : Reg8) (v : Byte) (s : State) : (setReg8 r v s).intr = s.intr := rfl
@[simp] theorem setReg8_bus (r : Reg8) (v : Byte) (s : State) : (setReg8 r v s).bus = s.bus := rfl
@[simp] theorem setReg8_sess (r : Reg8) (v : Byte) (s : State) : (setReg8 r v s).sess = s.sess := rfl
@[simp] theorem setReg8_rx (r : Reg8) (v : Byte) (s : State) : (setReg8 r v s).rx = s.rx := rfl
@[simp] theorem setReg8_csum (r : Reg8) (v : Byte) (s : State) : (setReg8 r v s).csum = s.csum := rfl
@[simp] theorem setReg8_accAddr (r : Reg8) (v : Byte) (s : State) : (setReg8 r v s).accAddr = s.accAddr := rfl
@[simp] theorem setReg8_accLen (r : Reg8) (v : Byte) (s : State) : (setReg8 r v s).accLen = s.accLen := rfl
@[simp] theorem setReg8_t0 (r : Reg8) (v : Byte) (s : State) : (setReg8 r v s).t0 = s.t0 := rfl
@[simp] theorem setReg8_cfg (r : Reg8) (v : Byte) (s : State) : (setReg8 r v s).cfg = s.cfg := rfl
@[simp] theorem setReg8_run (r : Reg8) (v : Byte) (s : State) : (setReg8 r v s).run = s.run := rfl
@[simp] theorem setReg8_calls (r : Reg8) (v : Byte) (s : State) : (setReg8 r v s).calls = s.calls := rfl
@[simp] theorem setReg8_wire (r : Reg8) (v : Byte) (s : State) : (setReg8 r v s).wire = s.wire := rfl
@[simp] theorem setReg8_txRoom (r : Reg8) (v : Byte) (s : State) : (setReg8 r v s).txRoom = s.txRoom := rfl
@[simp] theorem setReg8_res (r : Reg8) (v : Byte) (s : State) : (setReg8 r v s).res = s.res := rfl
@[simp] theorem setReg8_out (r : Reg8) (v : Byte) (s : State) : (setReg8 r v s).out = s.out := rfl

/-! ### `setSReg` -/

@[simp] theorem setSReg_regs (r : SReg) (v : Word) (s : State) : (setSReg r v s).regs = s.regs := rfl
@[simp] theorem setSReg_sregs (r : SReg) (v : Word) (s : State) : (setSReg r v s).sregs = s.sregs.set r v := rfl
@[simp] theorem setSReg_ip (r : SReg) (v : Word) (s : State) : (setSReg r v s).ip = s.ip := rfl
@[simp] theorem setSReg_flags (r : SReg) (v : Word) (s : State) : (setSReg r v s).flags = s.flags := rfl
@[simp] theorem setSReg_dseg (r : SReg) (v : Word) (s : State) : (setSReg r v s).dseg = s.dseg := rfl
@[simp] theorem setSReg_drep (r : SReg) (v : Word) (s : State) : (setSReg r v s).drep = s.drep := rfl
@[simp] theorem setSReg_kill (r : SReg) (v : Word) (s : State) : (setSReg r v s).kill = s.kill := rfl
@[simp] theorem setSReg_intr (r : SReg) (v : Word) (s : State) : (setSReg r v s).intr = s.intr := rfl
@[simp] theorem setSReg_bus (r : SReg) (v : Word) (s : State) : (setSReg r v s).bus = s.bus := rfl
@[simp] theorem setSReg_sess (r : SReg) (v : Word) (s : State) : (setSReg r v s).sess = s.sess := rfl
@[simp] theorem setSReg_rx (r : SReg) (v : Word) (s : State) : (setSReg r v s).rx = s.rx := rfl
@[simp] theorem setSReg_csum (r : SReg) (v : Word) (s : State) : (setSReg r v s).csum = s.csum := rfl
@[simp] theorem setSReg_accAddr (r : SReg) (v : Word) (s : State) : (setSReg r v s).accAddr = s.accAddr := rfl
@[simp] theorem setSReg_accLen (r : SReg) (v : Word) (s : State) : (setSReg r v s).accLen = s.accLen := rfl
@[simp] theorem setSReg_t0 (r : SReg) (v : Word) (s : State) : (setSReg r v s).t0 = s.t0 := rfl
@[simp] theorem setSReg_cfg (r : SReg) (v : Word) (s : State) : (setSReg r v s).cfg = s.cfg := rfl
@[simp] theorem setSReg_run (r : SReg) (v : Word) (s : State) : (setSReg r v s).run = s.run := rfl
@[simp] theorem setSReg_calls (r : SReg) (v : Word) (s : State) : (setSReg r v s).calls = s.calls := rfl
@[simp] theorem setSReg_wire (r : SReg) (v : Word) (s : State) : (setSReg r v s).wire = s.wire := rfl
@[simp] theorem setSReg_txRoom (r : SReg) (v : Word) (s : State) : (setSReg r v s).txRoom = s.txRoom := rfl
@[simp] theorem setSReg_res (r : SReg) (v : Word) (s : State) : (setSReg r v s).res = s.res := rfl
@[simp] theorem setSReg_out (r : SReg) (v : Word) (s : State) : (setSReg r v s).out = s.out := rfl

/-! ### `setFlags` -/

@[simp] theorem setFlags_regs (w : Word) (s : State) : (setFlags w s).regs = s.regs := rfl
@[simp] theorem setFlags_sregs (w : Word) (s : State) : (setFlags w s).sregs = s.sregs := rfl
@[simp] theorem setFlags_ip (w : Word) (s : State) : (setFlags w s).ip = s.ip := rfl
@[simp] theorem setFlags_flags (w : Word) (s : State) : (setFlags w s).flags = w := rfl
@[simp] theorem setFlags_dseg (w : Word) (s : State) : (setFlags w s).dseg = s.dseg := rfl
@[simp] theorem setFlags_drep (w : Word) (s : State) : (setFlags w s).drep = s.drep := rfl
@[simp] theorem setFlags_kill (w : Word) (s : State) : (setFlags w s).kill = s.kill := rfl
@[simp] theorem setFlags_intr (w : Word) (s : State) : (setFlags w s).intr = s.intr := rfl
@[simp] theorem setFlags_bus (w : Word) (s : State) : (setFlags w s).bus = s.bus := rfl
@[simp] theorem setFlags_sess (w : Word) (s : State) : (setFlags w s).sess = s.sess := rfl
@[simp] theorem setFlags_rx (w : Word) (s : State) : (setFlags w s).rx = s.rx := rfl
@[simp] theorem setFlags_csum (w : Word) (s : State) : (setFlags w s).csum = s.csum := rfl
@[simp] theorem setFlags_accAddr (w : Word) (s : State) : (setFlags w s).accAddr = s.accAddr := rfl
@[simp] theorem setFlags_accLen (w : Word) (s : State) : (setFlags w s).accLen = s.accLen := rfl
@[simp] theorem setFlags_t0 (w : Word) (s : State) : (setFlags w s).t0 = s.t0 := rfl
@[simp] theorem setFlags_cfg (w : Word) (s : State) : (setFlags w s).cfg = s.cfg := rfl
@[simp] theorem setFlags_run (w : Word) (s : State) : (setFlags w s).run = s.run := rfl
@[simp] theorem setFlags_calls (w : Word) (s : State) : (setFlags w s).calls = s.calls := rfl
@[simp] theorem setFlags_wire (w : Word) (s : State) : (setFlags w s).wire = s.wire := rfl
@[simp] theorem setFlags_txRoom (w : Word) (s : State) : (setFlags w s).txRoom = s.txRoom := rfl
@[simp] theorem setFlags_res (w : Word) (s : State) : (setFlags w s).res = s.res := rfl
@[simp] theorem setFlags_out (w : Word) (s : State) : (setFlags w s).out = s.out := rfl

/-! ### `finishAt` -/

@[simp] theorem finishAt_regs (target : Word) (s : State) : (finishAt target s).regs = s.regs := rfl
@[simp] theorem finishAt_sregs (target : Word) (s : State) : (finishAt target s).sregs = s.sregs := rfl
@[simp] theorem finishAt_ip (target : Word) (s : State) : (finishAt target s).ip = target := rfl
@[simp] theorem finishAt_flags (target : Word) (s : State) : (finishAt target s).flags = s.flags := rfl
@[simp] theorem finishAt_dseg (target : Word) (s : State) : (finishAt target s).dseg = .ds := rfl
@[simp] theorem finishAt_drep (target : Word) (s : State) : (finishAt target s).drep = .none := rfl
@[simp] theorem finishAt_kill (target : Word) (s : State) : (finishAt target s).kill = s.kill := rfl
@[simp] theorem finishAt_intr (target : Word) (s : State) : (finishAt target s).intr = s.intr := rfl
@[simp] theorem finishAt_bus (target : Word) (s : State) : (finishAt target s).bus = s.bus := rfl
@[simp] theorem finishAt_sess (target : Word) (s : State) : (finishAt target s).sess = s.sess := rfl
@[simp] theorem finishAt_rx (target : Word) (s : State) : (finishAt target s).rx = s.rx := rfl
@[simp] theorem finishAt_csum (target : Word) (s : State) : (finishAt target s).csum = s.csum := rfl
@[simp] theorem finishAt_accAddr (target : Word) (s : State) : (finishAt target s).accAddr = s.accAddr := rfl
@[simp] theorem finishAt_accLen (target : Word) (s : State) : (finishAt target s).accLen = s.accLen := rfl
@[simp] theorem finishAt_t0 (target : Word) (s : State) : (finishAt target s).t0 = s.t0 := rfl
@[simp] theorem finishAt_cfg (target : Word) (s : State) : (finishAt target s).cfg = s.cfg := rfl
@[simp] theorem finishAt_run (target : Word) (s : State) : (finishAt target s).run = s.run := rfl
@[simp] theorem finishAt_calls (target : Word) (s : State) : (finishAt target s).calls = s.calls := rfl
@[simp] theorem finishAt_wire (target : Word) (s : State) : (finishAt target s).wire = s.wire := rfl
@[simp] theorem finishAt_txRoom (target : Word) (s : State) : (finishAt target s).txRoom = s.txRoom := rfl
@[simp] theorem finishAt_res (target : Word) (s : State) : (finishAt target s).res = some .done := rfl
@[simp] theorem finishAt_out (target : Word) (s : State) : (finishAt target s).out = s.out := rfl

/-! ### `finish` -/

@[simp] theorem finish_regs (n : Nat) (s : State) : (finish n s).regs = s.regs := rfl
@[simp] theorem finish_sregs (n : Nat) (s : State) : (finish n s).sregs = s.sregs := rfl
@[simp] theorem finish_ip (n : Nat) (s : State) : (finish n s).ip = s.ip + BitVec.ofNat 16 n := rfl
@[simp] theorem finish_flags (n : Nat) (s : State) : (finish n s).flags = s.flags := rfl
@[simp] theorem finish_dseg (n : Nat) (s : State) : (finish n s).dseg = .ds := rfl
@[simp] theorem finish_drep (n : Nat) (s : State) : (finish n s).drep = .none := rfl
@[simp] theorem finish_kill (n : Nat) (s : State) : (finish n s).kill = s.kill := rfl
@[simp] theorem finish_intr (n : Nat) (s : State) : (finish n s).intr = s.intr := rfl
@[simp] theorem finish_bus (n : Nat) (s : State) : (finish n s).bus = s.bus := rfl
@[simp] theorem finish_sess (n : Nat) (s : State) : (finish n s).sess = s.sess := rfl
@[simp] theorem finish_rx (n : Nat) (s : State) : (finish n s).rx = s.rx := rfl
@[simp] theorem finish_csum (n : Nat) (s : State) : (finish n s).csum = s.csum := rfl
@[simp] theorem finish_accAddr (n : Nat) (s : State) : (finish n s).accAddr = s.accAddr := rfl
@[simp] theorem finish_accLen (n : Nat) (s : State) : (finish n s).accLen = s.accLen := rfl
@[simp] theorem finish_t0 (n : Nat) (s : State) : (finish n s).t0 = s.t0 := rfl
@[simp] theorem finish_cfg (n : Nat) (s : State) : (finish n s).cfg = s.cfg := rfl
@[simp] theorem finish_run (n : Nat) (s : State) : (finish n s).run = s.run := rfl
@[simp] theorem finish_calls (n : Nat) (s : State) : (finish n s).calls = s.calls := rfl
@[simp] theorem finish_wire (n : Nat) (s : State) : (finish n s).wire = s.wire := rfl
@[simp] theorem finish_txRoom (n : Nat) (s : State) : (finish n s).txRoom = s.txRoom := rfl
@[simp] theorem finish_res (n : Nat) (s : State) : (finish n s).res = some .done := rfl
@[simp] theorem finish_out (n : Nat) (s : State) : (finish n s).out = s.out := rfl

/-! ### `finishPrefix` -/

@[simp] theorem finishPrefix_regs (s : State) : (finishPrefix s).regs = s.regs := rfl
@[simp] theorem finishPrefix_sregs (s : State) : (finishPrefix s).sregs = s.sregs := rfl
@[simp] theorem finishPrefix_ip (s : State) : (finishPrefix s).ip = s.ip + 1#16 := rfl
@[simp] theorem finishPrefix_flags (s : State) : (finishPrefix s).flags = s.flags := rfl
@[simp] theorem finishPrefix_dseg (s : State) : (finishPrefix s).dseg = s.dseg := rfl
@[simp] theorem finishPrefix_drep (s : State) : (finishPrefix s).drep = s.drep := rfl
@[simp] theorem finishPrefix_kill (s : State) : (finishPrefix s).kill = s.kill := rfl
@[simp] theorem finishPrefix_intr (s : State) : (finishPrefix s).intr = s.intr := rfl
@[simp] theorem finishPrefix_bus (s : State) : (finishPrefix s).bus = s.bus := rfl
@[simp] theorem finishPrefix_sess (s : State) : (finishPrefix s).sess = s.sess := rfl
@[simp] theorem finishPrefix_rx (s : State) : (finishPrefix s).rx = s.rx := rfl
@[simp] theorem finishPrefix_csum (s : State) : (finishPrefix s).csum = s.csum := rfl
@[simp] theorem finishPrefix_accAddr (s : State) : (finishPrefix s).accAddr = s.accAddr := rfl
@[simp] theorem finishPrefix_accLen (s : State) : (finishPrefix s).accLen = s.accLen := rfl
@[simp] theorem finishPrefix_t0 (s : State) : (finishPrefix s).t0 = s.t0 := rfl
@[simp] theorem finishPrefix_cfg (s : State) : (finishPrefix s).cfg = s.cfg := rfl
@[simp] theorem finishPrefix_run (s : State) : (finishPrefix s).run = s.run := rfl
@[simp] theorem finishPrefix_calls (s : State) : (finishPrefix s).calls = s.calls := rfl
@[simp] theorem finishPrefix_wire (s : State) : (finishPrefix s).wire = s.wire := rfl
@[simp] theorem finishPrefix_txRoom (s : State) : (finishPrefix s).txRoom = s.txRoom := rfl
@[simp] theorem finishPrefix_res (s : State) : (finishPrefix s).res = some .prefixDone := rfl
@[simp] theorem finishPrefix_out (s : State) : (finishPrefix s).out = s.out := rfl

/-! ### `emit` -/

@[simp] theorem emit_regs (o : Output) (s : State) : (emit o s).regs = s.regs := rfl
@[simp] theorem emit_sregs (o : Output) (s : State) : (emit o s).sregs = s.sregs := rfl
@[simp] theorem emit_ip (o : Output) (s : State) : (emit o s).ip = s.ip := rfl
@[simp] theorem emit_flags (o : Output) (s : State) : (emit o s).flags = s.flags := rfl
@[simp] theorem emit_dseg (o : Output) (s : State) : (emit o s).dseg = s.dseg := rfl
@[simp] theorem emit_drep (o : Output) (s : State) : (emit o s).drep = s.drep := rfl
@[simp] theorem emit_kill (o : Output) (s : State) : (emit o s).kill = s.kill := rfl
@[simp] theorem emit_intr (o : Output) (s : State) : (emit o s).intr = s.intr := rfl
@[simp] theorem emit_bus (o : Output) (s : State) : (emit o s).bus = s.bus := rfl
@[simp] theorem emit_sess (o : Output) (s : State) : (emit o s).sess = s.sess := rfl
@[simp] theorem emit_rx (o : Output) (s : State) : (emit o s).rx = s.rx := rfl
@[simp] theorem emit_csum (o : Output) (s : State) : (emit o s).csum = s.csum := rfl
@[simp] theorem emit_accAddr (o : Output) (s : State) : (emit o s).accAddr = s.accAddr := rfl
@[simp] theorem emit_accLen (o : Output) (s : State) : (emit o s).accLen = s.accLen := rfl
@[simp] theorem emit_t0 (o : Output) (s : State) : (emit o s).t0 = s.t0 := rfl
@[simp] theorem emit_cfg (o : Output) (s : State) : (emit o s).cfg = s.cfg := rfl
@[simp] theorem emit_run (o : Output) (s : State) : (emit o s).run = s.run := rfl
@[simp] theorem emit_calls (o : Output) (s : State) : (emit o s).calls = s.calls := rfl
@[simp] theorem emit_wire (o : Output) (s : State) : (emit o s).wire = s.wire := rfl
@[simp] theorem emit_txRoom (o : Output) (s : State) : (emit o s).txRoom = s.txRoom := rfl
@[simp] theorem emit_res (o : Output) (s : State) : (emit o s).res = s.res := rfl
@[simp] theorem emit_out (o : Output) (s : State) : (emit o s).out = s.out ++ [o] := rfl

/-! ### `hangup` -/

@[simp] theorem hangup_regs (s : State) : (hangup s).regs = s.regs := rfl
@[simp] theorem hangup_sregs (s : State) : (hangup s).sregs = s.sregs := rfl
@[simp] theorem hangup_ip (s : State) : (hangup s).ip = s.ip := rfl
@[simp] theorem hangup_flags (s : State) : (hangup s).flags = s.flags := rfl
@[simp] theorem hangup_dseg (s : State) : (hangup s).dseg = s.dseg := rfl
@[simp] theorem hangup_drep (s : State) : (hangup s).drep = s.drep := rfl
@[simp] theorem hangup_kill (s : State) : (hangup s).kill = s.kill := rfl
@[simp] theorem hangup_intr (s : State) : (hangup s).intr = s.intr := rfl
@[simp] theorem hangup_bus (s : State) : (hangup s).bus = s.bus := rfl
@[simp] theorem hangup_sess (s : State) : (hangup s).sess = .listening := rfl
@[simp] theorem hangup_rx (s : State) : (hangup s).rx = .idle := rfl
@[simp] theorem hangup_csum (s : State) : (hangup s).csum = 0x00#8 := rfl
@[simp] theorem hangup_accAddr (s : State) : (hangup s).accAddr = 0#32 := rfl
@[simp] theorem hangup_accLen (s : State) : (hangup s).accLen = 0#32 := rfl
@[simp] theorem hangup_t0 (s : State) : (hangup s).t0 = 0x00#8 := rfl
@[simp] theorem hangup_cfg (s : State) : (hangup s).cfg = s.cfg := rfl
@[simp] theorem hangup_run (s : State) : (hangup s).run = s.run := rfl
@[simp] theorem hangup_calls (s : State) : (hangup s).calls = s.calls := rfl
@[simp] theorem hangup_wire (s : State) : (hangup s).wire = s.wire := rfl
@[simp] theorem hangup_txRoom (s : State) : (hangup s).txRoom = none := rfl
@[simp] theorem hangup_res (s : State) : (hangup s).res = s.res := rfl
@[simp] theorem hangup_out (s : State) : (hangup s).out = s.out := rfl

end Sys2Proof.Machine
end

