-- ==== Sys2Proof/Laws/Ops.lean ====
section
/-! SUPPORT. One lemma per shared operation that says everything it can do: resolution, reads and writes of the bus, the
checked accesses, the fetch. -/

namespace Sys2Proof.Machine

/-! ### Resolution -/

theorem resolve_len_le (cfg : Config) (a n : Nat) : (resolve cfg a n).len ≤ n := by
  unfold resolve
  cases regionOf cfg a <;> simp

theorem lt_of_regionOf_ram {cfg : Config} {a : Nat} (h : regionOf cfg a = .ram) : a < cfg.ramSize := by
  unfold regionOf at h
  split at h
  · assumption
  · split at h <;> exact absurd h (by decide)

theorem le_of_regionOf_rom {cfg : Config} {a : Nat} (h : regionOf cfg a = .rom) : 0xF0000 ≤ a ∧ a ≤ 0xFFFFF := by
  unfold regionOf at h
  split at h
  · exact absurd h (by decide)
  · split at h
    · assumption
    · exact absurd h (by decide)

/-- A request of at least one byte resolves to at least one byte (20_memory.md R66). -/
theorem resolve_len_pos (cfg : Config) (a : Nat) {n : Nat} (hn : 1 ≤ n) : 1 ≤ (resolve cfg a n).len := by
  unfold resolve
  cases hr : regionOf cfg a <;> simp only
  · have := lt_of_regionOf_ram hr; omega
  · have := le_of_regionOf_rom hr; omega
  · exact hn

/-- The view lies inside its region, once the scratch buffer has grown. -/
theorem resolve_inside (cfg : Config) (b : Bus) (a n : Nat) :
    (resolve cfg a n).offset + (resolve cfg a n).len ≤
      (b.grow (resolve cfg a n)).sizeOf cfg (resolve cfg a n).region := by
  unfold resolve Bus.grow Bus.sizeOf
  cases hr : regionOf cfg a <;> simp only
  · have := lt_of_regionOf_ram hr; omega
  · have := le_of_regionOf_rom hr; simp only [romSize]; omega
  · omega

/-- The region and the offset do not depend on the length asked for. -/
theorem resolve_region_offset (cfg : Config) (a n n' : Nat) :
    (resolve cfg a n).region = (resolve cfg a n').region ∧ (resolve cfg a n).offset = (resolve cfg a n').offset := by
  unfold resolve
  cases regionOf cfg a <;> exact ⟨rfl, rfl⟩

/-! ### The bus -/

@[simp] theorem Bus.get_grow (b : Bus) (v : View) (r k) : (b.grow v).get r k = b.get r k := by
  unfold Bus.grow
  split <;> cases r <;> rfl

theorem Bus.scrLen_le_grow (b : Bus) (v : View) : b.scrLen ≤ (b.grow v).scrLen := by
  unfold Bus.grow
  split
  · exact Nat.le_max_left _ _
  · exact Nat.le_refl _
  · exact Nat.le_refl _

/-- Growing changes nothing but `SCRLEN`. -/
theorem Bus.grow_eq (b : Bus) (v : View) : b.grow v = { b with scrLen := (b.grow v).scrLen } := by
  unfold Bus.grow
  split <;> rfl

/-- Growing twice for the same view is growing once. -/
theorem Bus.grow_grow (b : Bus) (v : View) : (b.grow v).grow v = b.grow v := by
  unfold Bus.grow
  split <;> simp

theorem Bus.wf_grow {cfg : Config} {b : Bus} (v : View) (h : b.wf cfg = true) : (b.grow v).wf cfg = true := by
  rw [Bus.wf_iff] at h ⊢
  intro r
  refine ⟨?_, Mem.below_mono (n := b.sizeOf cfg r) ?_ ?_⟩
  · have := (h r).1
    unfold Bus.grow
    split <;> cases r <;> exact this
  · unfold Bus.grow
    split <;> cases r <;> simp [Bus.sizeOf]
  · have := (h r).2
    unfold Bus.grow
    split <;> cases r <;> exact this

@[simp] theorem Bus.length_readFrom (b : Bus) (r off len) : (b.readFrom r off len).length = len := by
  simp [Bus.readFrom]

@[simp] theorem Bus.scrLen_writeFrom (r : Region) (xs : List Byte) : ∀ (b : Bus) (off : Nat),
    (b.writeFrom r off xs).scrLen = b.scrLen := by
  induction xs with
  | nil => intros; rfl
  | cons x xs ih => intro b off; simp [Bus.writeFrom, ih]

/-- Storing bytes inside the region keeps the canonical form and stores exactly those bytes. -/
theorem Bus.writeFrom_spec {cfg : Config} (r : Region) (xs : List Byte) : ∀ (b : Bus) (off : Nat), b.wf cfg = true →
    off + xs.length ≤ b.sizeOf cfg r →
    (b.writeFrom r off xs).wf cfg = true ∧
    ∀ q j, (b.writeFrom r off xs).get q j =
      if q = r ∧ off ≤ j ∧ j < off + xs.length then xs.getD (j - off) 0#8 else b.get q j := by
  induction xs with
  | nil =>
    intro b off h _
    refine ⟨h, fun q j => ?_⟩
    rw [if_neg (by simp only [List.length_nil]; omega)]
    rfl
  | cons x xs ih =>
    intro b off h hsz
    simp only [List.length_cons] at hsz
    have hw := Bus.wf_put h r x (k := off) (by omega)
    obtain ⟨h1, h2⟩ := ih (b.put r off x) (off + 1) hw (by rw [Bus.sizeOf_put]; omega)
    refine ⟨h1, fun q j => ?_⟩
    simp only [Bus.writeFrom, h2, Bus.get_put h, List.length_cons]
    by_cases hq : q = r
    · subst hq
      by_cases hj : j = off
      · subst hj
        simp
      · by_cases hlo : off + 1 ≤ j ∧ j < off + 1 + xs.length
        · rw [if_pos ⟨rfl, hlo⟩, if_pos ⟨rfl, by omega⟩]
          have : j - off = (j - (off + 1)) + 1 := by omega
          rw [this, List.getD_cons_succ]
        · rw [if_neg (fun h => hlo h.2), if_neg (fun h => hj h.2), if_neg (fun h => hlo (by omega))]
    · simp [hq]

/-- `BusRead` changes no byte and keeps the canonical form; its bytes are those of the view (R67). -/
theorem busRead_spec (cfg : Config) (b : Bus) (a n : Nat) :
    (busRead cfg b a n).1 =
        b.readFrom (resolve cfg a n).region (resolve cfg a n).offset (resolve cfg a n).len ∧
      (busRead cfg b a n).2 = b.grow (resolve cfg a n) := by
  refine ⟨?_, rfl⟩
  simp [busRead, Bus.readFrom]

/-- `BusWrite` keeps the canonical form and stores exactly the bytes that fit (R68). -/
theorem busWrite_spec {cfg : Config} {b : Bus} (h : b.wf cfg = true) (a : Nat) (bytes : List Byte) :
    (busWrite cfg b a bytes).wf cfg = true ∧
    ∀ q j, (busWrite cfg b a bytes).get q j =
      if q = (resolve cfg a bytes.length).region ∧ (resolve cfg a bytes.length).offset ≤ j ∧
          j < (resolve cfg a bytes.length).offset + (resolve cfg a bytes.length).len
      then bytes.getD (j - (resolve cfg a bytes.length).offset) 0#8 else b.get q j := by
  have hl : (bytes.take (resolve cfg a bytes.length).len).length = (resolve cfg a bytes.length).len := by
    simp [Nat.min_eq_left (resolve_len_le cfg a bytes.length)]
  have hin := resolve_inside cfg b a bytes.length
  obtain ⟨h1, h2⟩ := Bus.writeFrom_spec (cfg := cfg) (resolve cfg a bytes.length).region
    (bytes.take (resolve cfg a bytes.length).len) (b.grow (resolve cfg a bytes.length))
    (resolve cfg a bytes.length).offset (Bus.wf_grow _ h) (by rw [hl]; exact hin)
  refine ⟨h1, fun q j => ?_⟩
  have := h2 q j
  rw [hl] at this
  unfold busWrite
  rw [this, Bus.get_grow]
  split
  · rename_i hj
    rw [List.getD_eq_getElem?_getD, List.getD_eq_getElem?_getD, List.getElem?_take_of_lt (by omega)]
  · rfl

/-! ### The checked accesses -/

/-- A word read: `E_NOMEM` when the request is clamped, else the word and the grown scratch buffer (R72). -/
theorem memRead_word (a : Nat) (s : State) :
    memRead .word a s =
      if wordFits s.cfg a then .ok (wordAt s a, { s with bus := s.bus.grow (resolve s.cfg a 2) })
      else .error (.noMem a) := by
  have hle := resolve_len_le s.cfg a 2
  obtain ⟨h1, h2⟩ := busRead_spec s.cfg s.bus a 2
  unfold memRead wordFits
  simp only [Width.bytes, h1, h2, Bus.length_readFrom]
  by_cases hf : (resolve s.cfg a 2).len = 2
  · rw [if_neg (by omega), if_pos hf]
    simp only [hf, wordAt, Bus.readFrom, List.range, List.range.loop, List.map_cons, List.map_nil, littleEndian,
      Nat.add_zero]
  · rw [if_pos (by omega), if_neg hf]

/-- A word write: `E_NOMEM` and nothing written when the request is clamped, else the two bytes stored (R73). -/
theorem memWrite_word (a : Nat) (v : Word) (s : State) :
    memWrite .word a v s =
      if wordFits s.cfg a then .ok { s with bus := busWrite s.cfg s.bus a [v.lo, v.hi] }
      else .error (.noMem a) := by
  have hle := resolve_len_le s.cfg a 2
  show (if (resolve s.cfg a 2).len < 2 then Except.error (.noMem a)
    else .ok { s with bus := busWrite s.cfg s.bus a [v.lo, v.hi] } : Except StepError State) = _
  by_cases hf : (resolve s.cfg a 2).len = 2
  · rw [if_neg (by omega), if_pos hf]
  · rw [if_pos (by omega), if_neg hf]

/-- What a completed word store leaves: the two bytes, everything else as before. -/
theorem busWrite_word {s : State} {a : Nat} (h : s.bus.wf s.cfg = true) (hf : wordFits s.cfg a) (v : Word) :
    Stores (resolve s.cfg a 2) [v.lo, v.hi] s { s with bus := busWrite s.cfg s.bus a [v.lo, v.hi] } := by
  intro r k
  have := (busWrite_spec h a [v.lo, v.hi]).2 r k
  unfold wordFits at hf
  simp only [List.length_cons, List.length_nil, Nat.zero_add, hf] at this ⊢
  exact this

/-! ### The fetch -/

/-- The state after a fetch: the scratch buffer may have grown, nothing else has changed (R67, R74). -/
theorem fetch_state (s : State) :
    (fetch s).2 = { s with bus := s.bus.grow (resolve s.cfg (addrFetch s) fetchLen) } := rfl

/-- A fetch from RAM or ROM changes nothing at all. -/
theorem fetch_state_of_mapped (s : State) (h : regionOf s.cfg (addrFetch s) ≠ .scratch) : (fetch s).2 = s := by
  have hb : s.bus.grow (resolve s.cfg (addrFetch s) fetchLen) = s.bus := by
    unfold Bus.grow resolve
    cases hr : regionOf s.cfg (addrFetch s) <;> simp_all
  rw [fetch_state, hb]

end Sys2Proof.Machine
end

