-- ==== Sys2Proof/Laws/Engine.lean ====
section
/-! SUPPORT. What the RSP engine's shared operations can do: the transmission, the service of a packet (46_rsp_framer.md
R220 to R242). -/

namespace Sys2Proof.Machine

/-- A transmission does one of three things (R220, R222, R242; log 10): nothing in Listening, one output in Accepted, or,
where the client takes fewer bytes, the bytes it takes and a hang-up. -/
theorem tx_cases (b : List Byte) (s : State) :
    tx b s = s ∨ (∃ k, tx b s = emit (.tx b) { s with txRoom := k }) ∨
      ∃ k, tx b s = hangup (emit (.tx (b.take k)) s) := by
  unfold tx
  split
  · exact .inl rfl
  · split
    · rename_i h
      exact .inr (.inl ⟨s.txRoom, rfl⟩)
    · split
      · exact .inr (.inl ⟨_, rfl⟩)
      · exact .inr (.inr ⟨_, rfl⟩)

@[simp] theorem tx_regs (b : List Byte) (s : State) : (tx b s).regs = s.regs := by
  obtain h | ⟨k, h⟩ | ⟨k, h⟩ := tx_cases b s <;> rw [h] <;> rfl
@[simp] theorem tx_sregs (b : List Byte) (s : State) : (tx b s).sregs = s.sregs := by
  obtain h | ⟨k, h⟩ | ⟨k, h⟩ := tx_cases b s <;> rw [h] <;> rfl
@[simp] theorem tx_ip (b : List Byte) (s : State) : (tx b s).ip = s.ip := by
  obtain h | ⟨k, h⟩ | ⟨k, h⟩ := tx_cases b s <;> rw [h] <;> rfl
@[simp] theorem tx_flags (b : List Byte) (s : State) : (tx b s).flags = s.flags := by
  obtain h | ⟨k, h⟩ | ⟨k, h⟩ := tx_cases b s <;> rw [h] <;> rfl
@[simp] theorem tx_dseg (b : List Byte) (s : State) : (tx b s).dseg = s.dseg := by
  obtain h | ⟨k, h⟩ | ⟨k, h⟩ := tx_cases b s <;> rw [h] <;> rfl
@[simp] theorem tx_drep (b : List Byte) (s : State) : (tx b s).drep = s.drep := by
  obtain h | ⟨k, h⟩ | ⟨k, h⟩ := tx_cases b s <;> rw [h] <;> rfl
@[simp] theorem tx_kill (b : List Byte) (s : State) : (tx b s).kill = s.kill := by
  obtain h | ⟨k, h⟩ | ⟨k, h⟩ := tx_cases b s <;> rw [h] <;> rfl
@[simp] theorem tx_intr (b : List Byte) (s : State) : (tx b s).intr = s.intr := by
  obtain h | ⟨k, h⟩ | ⟨k, h⟩ := tx_cases b s <;> rw [h] <;> rfl
@[simp] theorem tx_bus (b : List Byte) (s : State) : (tx b s).bus = s.bus := by
  obtain h | ⟨k, h⟩ | ⟨k, h⟩ := tx_cases b s <;> rw [h] <;> rfl
@[simp] theorem tx_cfg (b : List Byte) (s : State) : (tx b s).cfg = s.cfg := by
  obtain h | ⟨k, h⟩ | ⟨k, h⟩ := tx_cases b s <;> rw [h] <;> rfl
@[simp] theorem tx_run (b : List Byte) (s : State) : (tx b s).run = s.run := by
  obtain h | ⟨k, h⟩ | ⟨k, h⟩ := tx_cases b s <;> rw [h] <;> rfl
@[simp] theorem tx_calls (b : List Byte) (s : State) : (tx b s).calls = s.calls := by
  obtain h | ⟨k, h⟩ | ⟨k, h⟩ := tx_cases b s <;> rw [h] <;> rfl
@[simp] theorem tx_wire (b : List Byte) (s : State) : (tx b s).wire = s.wire := by
  obtain h | ⟨k, h⟩ | ⟨k, h⟩ := tx_cases b s <;> rw [h] <;> rfl
@[simp] theorem tx_res (b : List Byte) (s : State) : (tx b s).res = s.res := by
  obtain h | ⟨k, h⟩ | ⟨k, h⟩ := tx_cases b s <;> rw [h] <;> rfl

/-- In Accepted, with no short write to come, a transmission is one output and nothing else. -/
theorem tx_of_open {s : State} (b : List Byte) (hs : s.sess = .accepted) (hr : s.txRoom = none) :
    tx b s = emit (.tx b) s := by
  simp [tx, hs, hr]

/-- In Listening nothing is transmitted. -/
theorem tx_of_listening {s : State} (b : List Byte) (hs : s.sess = .listening) : tx b s = s := by
  simp [tx, hs]

/-- A transmission that comes up short (R242). -/
theorem tx_of_short {s : State} {room : Nat} (b : List Byte) (hs : s.sess = .accepted) (hr : s.txRoom = some room)
    (h : room < b.length) : tx b s = hangup (emit (.tx (b.take room)) s) := by
  simp [tx, hs, hr, Nat.not_le.2 h]

/-- A transmission the client still takes whole, before one that comes up short. -/
theorem tx_of_room {s : State} {room : Nat} (b : List Byte) (hs : s.sess = .accepted) (hr : s.txRoom = some room)
    (h : b.length ≤ room) : tx b s = emit (.tx b) { s with txRoom := some (room - b.length) } := by
  simp [tx, hs, hr, h]

/-- A transmission ends in Accepted only where it began there. -/
theorem tx_sess_accepted {b : List Byte} {s : State} (h : (tx b s).sess = .accepted) : s.sess = .accepted := by
  obtain h' | ⟨k, h'⟩ | ⟨k, h'⟩ := tx_cases b s <;> rw [h'] at h
  · exact h
  · exact h
  · cases h

/-- In Listening no packet is in progress and no write is measured; a transmission keeps that (R221, R222). -/
theorem sessionOk_tx (b : List Byte) {s : State} (h : s.sessionOk = true) : (tx b s).sessionOk = true := by
  cases hs : s.sess
  · rwa [tx_of_listening b hs]
  · obtain h' | ⟨k, h'⟩ | ⟨k, h'⟩ := tx_cases b s <;> rw [h']
    · exact h
    · simpa [State.sessionOk, hs] using h
    · rfl

/-- The service of a packet whose acknowledgement the client takes: the handler runs on the state after the `+` (R227). -/
theorem serve_of_open {s : State} (handler : State → Result) (hs : s.sess = .accepted) (hr : s.txRoom = none) :
    serve handler s = handler { emit (.tx ackBytes) s with rx := .idle } := by
  unfold serve
  rw [tx_of_open ackBytes hs hr]
  simp only [emit_sess, hs]

/-- A service ends before its handler where the acknowledgement came up short (R242; log 10). -/
theorem ack_accepted_iff (s : State) : (tx ackBytes s).sess = .accepted ↔ s.sess = .accepted ∧ s.txRoom ≠ some 0 := by
  cases hs : s.sess
  · simp [tx_of_listening ackBytes hs, hs]
  · cases hr : s.txRoom with
    | none => simp [tx_of_open ackBytes hs hr, hs]
    | some n =>
      cases n with
      | zero => simp [tx_of_short ackBytes hs hr (by simp [ackBytes])]
      | succ n => simp [tx_of_room ackBytes hs hr (by simp [ackBytes]), hs]

/-- The state a handler is called in: the `+` transmitted, the receive machine in IDLE (R227). -/
def acked (s : State) : State := { tx ackBytes s with rx := .idle }

/-- The service of a packet: the handler is not called where the acknowledgement came up short (R242; log 10). -/
theorem serve_cases (handler : State → Result) (s : State) :
    ((tx ackBytes s).sess = .listening ∧ serve handler s = .next (tx ackBytes s)) ∨
      ((tx ackBytes s).sess = .accepted ∧ serve handler s = handler (acked s)) := by
  unfold serve
  cases h : (tx ackBytes s).sess
  · exact .inl ⟨rfl, rfl⟩
  · exact .inr ⟨rfl, rfl⟩

/-- A call through a slot that is present, and one through a slot that is absent (47_debug_bridge.md R260; log 18). -/
theorem withSlot_of_present {slot : Slot} {s : State} (call otherwise : State → Result)
    (h : hasSlot s.cfg.slots slot = true) : withSlot slot call otherwise s = call s := by
  unfold withSlot
  rw [h]

theorem withSlot_of_absent {slot : Slot} {s : State} (call otherwise : State → Result)
    (h : hasSlot s.cfg.slots slot = false) :
    withSlot slot call otherwise s = otherwise (emit (.unsupported slot) s) := by
  unfold withSlot
  rw [h]

/-- What the service of a slot's verb can do: nothing more after a `+` that came up short, else the handler's work, or the
log line and the empty reply (R228 to R230). -/
theorem serveSlot_cases (slot : Slot) (handler : State → Result) (s : State) :
    ((tx ackBytes s).sess = .listening ∧ serveSlot slot handler s = .next (tx ackBytes s)) ∨
      ((tx ackBytes s).sess = .accepted ∧
        ((hasSlot s.cfg.slots slot = true ∧ serveSlot slot handler s = handler (acked s)) ∨
          (hasSlot s.cfg.slots slot = false ∧
            serveSlot slot handler s = .next (emptyReply (emit (.unsupported slot) (acked s)))))) := by
  unfold serveSlot
  rcases serve_cases (withSlot slot handler fun s => .next (emptyReply s)) s with h | ⟨h1, h2⟩
  · exact .inl h
  · refine .inr ⟨h1, ?_⟩
    rw [h2]
    cases hs : hasSlot s.cfg.slots slot
    · exact .inr ⟨rfl, withSlot_of_absent _ _ (by simpa [acked] using hs)⟩
    · exact .inl ⟨rfl, withSlot_of_present _ _ (by simpa [acked] using hs)⟩

/-- The register dump reads the CPU and the parameters only (47_debug_bridge.md R262). -/
theorem getRegs_acked (s : State) : getRegs (acked s) = getRegs s := by
  simp [getRegs, dump32, dumpValues, acked]

/-- What the verb `g` can do (R229): as `serveSlot_cases`, with the dump or its refusal. -/
theorem execRspGetRegs_cases (s : State) :
    ((tx ackBytes s).sess = .listening ∧ execRspGetRegs s = .next (tx ackBytes s)) ∨
      ((tx ackBytes s).sess = .accepted ∧
        ((s.cfg.slots.getRegs = true ∧ getRegs s = none ∧ execRspGetRegs s = .refused .dump64LenOpen) ∨
          (s.cfg.slots.getRegs = true ∧ ∃ p, getRegs s = some p ∧ execRspGetRegs s = .next (tx (frame p) (acked s))) ∨
          (s.cfg.slots.getRegs = false ∧
            execRspGetRegs s = .next (emptyReply (emit (.unsupported .getRegs) (acked s)))))) := by
  unfold execRspGetRegs
  rcases serveSlot_cases .getRegs (fun s =>
    match getRegs s with
    | none => .refused .dump64LenOpen
    | some p => .next (tx (frame p) s)) s with h | ⟨h1, ⟨h2, h⟩ | h⟩
  · exact .inl h
  · refine .inr ⟨h1, ?_⟩
    simp only [getRegs_acked] at h
    cases hg : getRegs s with
    | none => exact .inl ⟨h2, rfl, by rw [hg] at h; exact h⟩
    | some p => exact .inr (.inl ⟨h2, p, rfl, by rw [hg] at h; exact h⟩)
  · exact .inr ⟨h1, .inr (.inr h)⟩

/-- In Listening no handler is called. -/
theorem serve_of_listening {s : State} (handler : State → Result) (hs : s.sess = .listening) :
    serve handler s = .next s := by
  unfold serve
  rw [tx_of_listening ackBytes hs, hs]

end Sys2Proof.Machine
end

