-- ==== Sys2Proof/Laws/Str.lean ====
section
/-! SUPPORT. What the string store can do: one store, the loop of a repeated STOSW (44_string.md R200), and where its
stores go. -/

namespace Sys2Proof.Machine

/-- One store of STOSW: `E_NOMEM` and nothing done when the word is cut, else the word stored and DI advanced
(44_string.md R200). -/
theorem stosOnce_eq (s : State) :
    stosOnce s =
      if wordFits s.cfg (addrStos s) then
        .ok (setReg .di (s.regs.di + 2#16)
          { s with bus := busWrite s.cfg s.bus (addrStos s) [s.regs.ax.lo, s.regs.ax.hi] })
      else .error (.noMem (addrStos s)) := by
  unfold stosOnce
  rw [memWrite_word]
  by_cases h : wordFits s.cfg (addrStos s)
  · rw [if_pos h, if_pos h]
  · rw [if_neg h, if_neg h]

/-- Whatever the loop does, it writes DI, CX and memory only (R200). -/
theorem stosLoop_frame (n : Nat) : ∀ s : State, ∃ regs bus, (stosLoop n s).1 = { s with regs := regs, bus := bus } ∧
    (∀ r, r ∉ [Reg16.di, Reg16.cx] → regs.get r = s.regs.get r) ∧ s.bus.scrLen ≤ bus.scrLen := by
  induction n with
  | zero => exact fun s => ⟨s.regs, s.bus, rfl, fun _ _ => rfl, Nat.le_refl _⟩
  | succ n ih =>
    intro s
    unfold stosLoop
    split
    · exact ⟨s.regs, s.bus, rfl, fun _ _ => rfl, Nat.le_refl _⟩
    · rw [stosOnce_eq]
      by_cases hf : wordFits s.cfg (addrStos s)
      · obtain ⟨regs, bus, h1, h2, h3⟩ := ih _
        rw [if_pos hf]
        refine ⟨regs, bus, h1, ?_, ?_⟩
        · intro r hr
          rw [h2 r hr]
          simp only [List.mem_cons, List.not_mem_nil, or_false, not_or] at hr
          simp [Regs.get_set, hr]
        · refine Nat.le_trans ?_ h3
          simp [busWrite, Bus.scrLen_le_grow]
      · rw [if_neg hf]
        exact ⟨s.regs, s.bus, rfl, fun _ _ => rfl, Nat.le_refl _⟩

/-- All words a repeated STOSW stores to lie at offsets of one parity, or at the start of the scratch buffer. -/
theorem stosView_parity (s : State) (i j : Nat) (h : (stosView s i).region = (stosView s j).region) :
    (stosView s i).offset % 2 = (stosView s j).offset % 2 := by
  have hp : ∀ k : Nat, physAddr s.sregs.es (s.regs.di + BitVec.ofNat 16 (2 * k)) % 2 = s.regs.di.toNat % 2 := by
    intro k
    unfold physAddr
    rw [BitVec.toNat_add, BitVec.toNat_ofNat]
    omega
  have hi := hp i
  have hj := hp j
  unfold stosView resolve at h ⊢
  cases h1 : regionOf s.cfg (physAddr s.sregs.es (s.regs.di + BitVec.ofNat 16 (2 * i))) <;>
    cases h2 : regionOf s.cfg (physAddr s.sregs.es (s.regs.di + BitVec.ofNat 16 (2 * j))) <;>
    simp only [h1, h2] at h ⊢ <;> first | exact absurd h (by decide) | skip
  · omega
  · have := le_of_regionOf_rom h1
    have := le_of_regionOf_rom h2
    omega

/-- The state after one completed iteration of a repeated STOSW. -/
def stosNext (s : State) : State :=
  setReg .cx (s.regs.cx - 1#16) (setReg .di (s.regs.di + 2#16)
    { s with bus := busWrite s.cfg s.bus (addrStos s) [s.regs.ax.lo, s.regs.ax.hi] })

theorem stosView_stosNext (s : State) (j : Nat) : stosView (stosNext s) j = stosView s (j + 1) := by
  show resolve s.cfg (physAddr s.sregs.es (s.regs.di + 2#16 + BitVec.ofNat 16 (2 * j))) 2 =
    resolve s.cfg (physAddr s.sregs.es (s.regs.di + BitVec.ofNat 16 (2 * (j + 1)))) 2
  have : s.regs.di + 2#16 + BitVec.ofNat 16 (2 * j) = s.regs.di + BitVec.ofNat 16 (2 * (j + 1)) := by
    rw [show 2 * (j + 1) = 2 + 2 * j from by omega, BitVec.ofNat_add, BitVec.add_assoc]
  rw [this]

theorem stosView_zero (s : State) : stosView s 0 = resolve s.cfg (addrStos s) 2 := by
  simp [stosView, addrStos]

theorem stosLoop_succ {s : State} (n : Nat) (hcx : s.regs.cx ≠ 0#16) :
    stosLoop (n + 1) s =
      if (stosView s 0).len = 2 then stosLoop n (stosNext s) else (s, some (.noMem (addrStos s))) := by
  rw [stosLoop, if_neg hcx, stosOnce_eq, stosView_zero]
  show (match (if (resolve s.cfg (addrStos s) 2).len = 2 then _ else _ : Except StepError State) with
    | .error e => _ | .ok s' => _) = _
  by_cases h : (resolve s.cfg (addrStos s) 2).len = 2
  · rw [if_pos h, if_pos h]; rfl
  · rw [if_neg h, if_neg h]

/-- `n` iterations in which no word is cut (R200): `n` words stored, DI advanced, CX counted down; and what the loop goes
on with after them. -/
theorem stosLoop_spec (n : Nat) : ∀ s : State, s.bus.wf s.cfg = true → n ≤ s.regs.cx.toNat →
    (∀ j < n, (stosView s j).len = 2) →
    ∃ t, (∀ m, stosLoop (n + m) s = stosLoop m t) ∧ StosFilled n s t ∧ t.bus.wf s.cfg = true ∧
      t.regs.cx.toNat = s.regs.cx.toNat - n ∧ t.regs.di = s.regs.di + BitVec.ofNat 16 (2 * n) ∧
      t = { s with regs := t.regs, bus := t.bus } ∧
      (∀ r, r ∉ [Reg16.di, Reg16.cx] → t.regs.get r = s.regs.get r) := by
  induction n with
  | zero =>
    intro s hw _ _
    refine ⟨s, fun m => by rw [Nat.zero_add], ⟨fun j hj => absurd hj (Nat.not_lt_zero j), fun _ _ _ => rfl⟩, hw, rfl,
      by simp, rfl, fun _ _ => rfl⟩
  | succ n ih =>
    intro s hw hn hfit
    have hcx : s.regs.cx ≠ 0#16 := by
      intro h
      rw [h] at hn
      simp at hn
    have hcx1 : (s.regs.cx - 1#16).toNat = s.regs.cx.toNat - 1 := by
      have := s.regs.cx.isLt
      rw [BitVec.toNat_sub]
      simp
      omega
    have h0 := hfit 0 (by omega)
    have hw1 : (stosNext s).bus.wf s.cfg = true := (busWrite_spec hw _ _).1
    obtain ⟨t, hl, ⟨hf1, hf2⟩, hwt, hcxt, hdit, heq, hregs⟩ := ih (stosNext s) hw1
      (by show n ≤ (s.regs.cx - 1#16).toNat; omega)
      (fun j hj => by rw [stosView_stosNext]; exact hfit (j + 1) (by omega))
    have hax : (stosNext s).regs.ax = s.regs.ax := rfl
    have hst : Stores (stosView s 0) [s.regs.ax.lo, s.regs.ax.hi] s (stosNext s) := by
      rw [stosView_zero] at h0 ⊢
      exact busWrite_word hw h0 _
    simp only [stosView_stosNext, hax] at hf1 hf2
    refine ⟨t, ?_, ⟨?_, ?_⟩, hwt, ?_, ?_, ?_, ?_⟩
    · intro m
      rw [show n + 1 + m = (n + m) + 1 from by omega, stosLoop_succ _ hcx, if_pos h0, hl]
    · intro j hj
      rcases j with _ | j
      · constructor
        · by_cases hin : ∃ i < n, (stosView s 0).region = (stosView s (i + 1)).region ∧
              (stosView s (i + 1)).offset ≤ (stosView s 0).offset ∧
              (stosView s 0).offset < (stosView s (i + 1)).offset + 2
          · obtain ⟨i, hi, hr, h1, h2⟩ := hin
            have := stosView_parity s 0 (i + 1) hr
            have ho : (stosView s 0).offset = (stosView s (i + 1)).offset := by omega
            rw [hr, ho]
            exact (hf1 i hi).1
          · rw [hf2 _ _ (fun i hi h => hin ⟨i, hi, h⟩), hst _ _, if_pos ⟨rfl, Nat.le_refl _, by simp⟩]
            simp
        · by_cases hin : ∃ i < n, (stosView s 0).region = (stosView s (i + 1)).region ∧
              (stosView s (i + 1)).offset ≤ (stosView s 0).offset + 1 ∧
              (stosView s 0).offset + 1 < (stosView s (i + 1)).offset + 2
          · obtain ⟨i, hi, hr, h1, h2⟩ := hin
            have := stosView_parity s 0 (i + 1) hr
            have ho : (stosView s 0).offset = (stosView s (i + 1)).offset := by omega
            rw [hr, ho]
            exact (hf1 i hi).2
          · rw [hf2 _ _ (fun i hi h => hin ⟨i, hi, h⟩), hst _ _, if_pos ⟨rfl, by omega, by simp⟩]
            simp
      · exact hf1 j (by omega)
    · intro r k hk
      rw [hf2 r k (fun i hi => hk (i + 1) (by omega)), hst r k, if_neg]
      simpa using hk 0 (by omega)
    · rw [hcxt]
      show (s.regs.cx - 1#16).toNat - n = _
      omega
    · rw [hdit]
      show s.regs.di + 2#16 + BitVec.ofNat 16 (2 * n) = _
      rw [show 2 * (n + 1) = 2 + 2 * n from by omega, BitVec.ofNat_add, BitVec.add_assoc]
    · rw [heq]; rfl
    · intro r hr
      rw [hregs r hr]
      simp only [List.mem_cons, List.not_mem_nil, or_false, not_or] at hr
      simp [stosNext, Regs.get_set, hr]

/-- A loop whose CX is 0 does nothing. -/
theorem stosLoop_cx_zero (n : Nat) {s : State} (h : s.regs.cx = 0#16) : stosLoop n s = (s, none) := by
  cases n with
  | zero => rfl
  | succ n => rw [stosLoop, if_pos h]

end Sys2Proof.Machine
end

