-- ==== Sys2Proof/Laws/Interp.lean ====
section
/-! SUPPORT. What one call of the interpreter can do (30_encoding.md R103, R111), and how a step of a block in which
a run loop is in progress comes down to it. -/

namespace Sys2Proof.Machine

/-- A step of a run loop that neither flag pauses is a call of the interpreter, whose result the loop looks at
(47_debug_bridge.md R265, R266). -/
theorem step_of_running {s t : State} (h : s.running) (hi : interp s = .next t) : step s = .next (afterStep t) := by
  obtain ⟨h1, h2, h3, h4⟩ := h
  cases hr : s.run
  · exact absurd hr h2
  all_goals simp [step, blockStep, advance, runLoopIteration, h1, h3, h4, hr, hi]

/-- After a prefix both run loops go on. -/
theorem afterStep_of_prefix {t : State} (h : t.res = some .prefixDone) : afterStep t = t := by
  simp [afterStep, h]

/-- After an error both run loops end. -/
theorem afterStep_of_error {t : State} {e : StepError} (h : t.res = some (.error e)) : afterStep t = endRun t := by
  simp [afterStep, h]

/-- After an instruction `stepi` ends and `cont` goes on. -/
theorem afterStep_of_done {t : State} (h : t.res = some .done) :
    afterStep t = if t.run = .stepi then endRun t else t := by
  simp [afterStep, h]

/-- With nothing scheduled, no run loop and nothing on the wire, nobody moves (70_reset_and_hazards.md R311). -/
theorem step_of_nothing {s : State} (h1 : s.calls = []) (h2 : s.run = .idle) (h3 : s.wire = []) : step s = .next s := by
  simp [step, blockStep, advance, h1, h2, h3]

/-- With no host call scheduled and no run loop, a step takes the next wire event (log 6). -/
theorem step_of_hears {s : State} {e : WireEvent} {rest : List WireEvent} (h : s.hears e rest) :
    step s = receive e { s with wire := rest } := by
  obtain ⟨h1, h2, h3⟩ := h
  simp [step, blockStep, advance, h1, h2, h3]

/-- In Accepted a received byte goes to the receive state machine. -/
theorem step_of_rx {s : State} {b : Byte} {rest : List WireEvent} (h : s.hears (.rx b) rest) (ha : s.sess = .accepted) :
    step s = rxByte b { s with wire := rest } := by
  rw [step_of_hears h]
  simp [receive, ha]

theorem steps_succ {s u : State} (k : Nat) (h : step s = .next u) : steps (k + 1) s = steps k u := by
  simp [steps, h]

theorem interp_of_ok {s : State} {i : Instr} (h : decode s.cfg (fetch s).1 = .ok i) :
    interp s = exec i (fetch s).2 := by
  unfold interp
  rw [h]

theorem interp_of_error {s : State} {e : DecodeError} (h : decode s.cfg (fetch s).1 = .error e) :
    interp s = raise (toStepError (addrFetch s) e) (fetch s).2 := by
  unfold interp
  rw [h]

/-- An error raised on the state after the fetch is precise (60_exceptions.md R285). -/
theorem raised_after_fetch (s : State) (e : StepError) : ∃ t, raise e (fetch s).2 = .next t ∧ Raised e s t := by
  refine ⟨_, rfl, ?_, ?_⟩
  · rw [fetch_state]
    dsimp only
    rw [Bus.grow_eq]
  · rw [fetch_state]
    exact Bus.scrLen_le_grow _ _

/-- Fetching again gives the same view and changes nothing more (20_memory.md R67, R74). -/
theorem fetch_fetch (s : State) : fetch (fetch s).2 = fetch s := by
  have h1 : (fetch (fetch s).2).2 = (fetch s).2 := by
    rw [fetch_state, fetch_state]
    simp only [addrFetch, Bus.grow_grow]
  have h2 : (fetch (fetch s).2).1 = (fetch s).1 := by
    unfold fetch
    simp only [(busRead_spec _ _ _ _).1, (busRead_spec _ _ _ _).2, addrFetch]
    simp [Bus.readFrom]
  exact Prod.ext h2 h1

theorem interp_fetch (s : State) : interp (fetch s).2 = interp s := by
  unfold interp
  rw [fetch_fetch]
  rfl

/-- A prefix byte with none outstanding, and with one outstanding (40_prefixes.md R142). -/
theorem takePrefix_cases (b0 : Byte) (set : State → State) (s : State) :
    (s.prefixed = true ∧ takePrefix b0 set s = raise (.prefixPair b0) s) ∨
      (s.dseg = .ds ∧ s.drep = .none ∧ takePrefix b0 set s = .next (finishPrefix (set s))) := by
  unfold takePrefix
  cases h : s.prefixed with
  | true => exact .inl ⟨rfl, by simp⟩
  | false =>
    simp only [State.prefixed, Bool.or_eq_false_iff, bne_eq_false_iff_eq] at h
    exact .inr ⟨h.1, h.2, by simp⟩

/-- An instruction of the interpreter always ends its step with a result (30_encoding.md R103). -/
theorem exec_answers (i : Instr) (h : i.isRsp = false) (s : State) : ∃ t r, exec i s = .next t ∧ t.res = some r := by
  cases i <;> simp only [Instr.isRsp, Bool.true_eq_false] at h <;> simp only [exec]
  case esOverride =>
    rcases takePrefix_cases 0x26#8 (fun s => { s with dseg := .es }) s with ⟨_, h⟩ | ⟨_, _, h⟩ <;> exact ⟨_, _, h, rfl⟩
  case repz =>
    rcases takePrefix_cases 0xF3#8 (fun s => { s with drep := .repZ }) s with ⟨_, h⟩ | ⟨_, _, h⟩ <;> exact ⟨_, _, h, rfl⟩
  case cmpRegDi => unfold execCmpRegDi; split <;> exact ⟨_, _, rfl, rfl⟩
  case movDiDx => unfold execMovDiDx; split <;> exact ⟨_, _, rfl, rfl⟩
  case movSiMem => unfold execMovSiMem; split <;> exact ⟨_, _, rfl, rfl⟩
  case stosw => unfold execStosw; split <;> split <;> exact ⟨_, _, rfl, rfl⟩
  all_goals exact ⟨_, _, rfl, rfl⟩

/-- A call of the interpreter always answers a next state with a result (30_encoding.md R103; log 1). -/
theorem interp_answers (s : State) : ∃ t r, interp s = .next t ∧ t.res = some r := by
  cases h : decode s.cfg (fetch s).1 with
  | ok i =>
    rw [interp_of_ok h]
    exact exec_answers i (decode_isRsp h) _
  | error e =>
    rw [interp_of_error h]
    exact ⟨_, _, rfl, rfl⟩

end Sys2Proof.Machine
end

