-- ==== Sys2Proof/Laws/PerInstr.lean ====
section
/-! SUPPORT. Laws stated per instruction: the family `EncodeLength`. -/

namespace Sys2Proof.Laws.EncodeLength

/-- The encoder writes as many bytes as the instruction is long, whatever the parameters, and at least one
(30_encoding.md R102, R110). -/
def Statement (i : Instr) : Prop := ∀ cfg : Config, (encode cfg i).length = i.length ∧ 1 ≤ i.length

theorem esOverride : Statement .esOverride := fun _ => ⟨rfl, Nat.le_of_ble_eq_true rfl⟩

theorem repz : Statement .repz := fun _ => ⟨rfl, Nat.le_of_ble_eq_true rfl⟩

theorem xorAxAx : Statement .xorAxAx := fun _ => ⟨rfl, Nat.le_of_ble_eq_true rfl⟩

theorem xorDiDi : Statement .xorDiDi := fun _ => ⟨rfl, Nat.le_of_ble_eq_true rfl⟩

theorem cmpRegDi (reg : Reg16) : Statement (.cmpRegDi reg) := fun _ => ⟨rfl, Nat.le_of_ble_eq_true rfl⟩

theorem incAx : Statement .incAx := fun _ => ⟨rfl, Nat.le_of_ble_eq_true rfl⟩

theorem incAl : Statement .incAl := fun _ => ⟨rfl, Nat.le_of_ble_eq_true rfl⟩

theorem movDiDx : Statement .movDiDx := fun _ => ⟨rfl, Nat.le_of_ble_eq_true rfl⟩

theorem movSiMem (disp : Word) : Statement (.movSiMem disp) := fun _ => ⟨rfl, Nat.le_of_ble_eq_true rfl⟩

theorem movRegReg (dst src : Reg16) : Statement (.movRegReg dst src) := by
  intro cfg
  refine ⟨?_, Nat.le_of_ble_eq_true rfl⟩
  show (encodeMovRR cfg dst src).length = 2
  unfold encodeMovRR
  split <;> rfl

theorem movEsAx : Statement .movEsAx := fun _ => ⟨rfl, Nat.le_of_ble_eq_true rfl⟩

theorem movEsBx : Statement .movEsBx := fun _ => ⟨rfl, Nat.le_of_ble_eq_true rfl⟩

theorem movDsAx : Statement .movDsAx := fun _ => ⟨rfl, Nat.le_of_ble_eq_true rfl⟩

theorem movDsBx : Statement .movDsBx := fun _ => ⟨rfl, Nat.le_of_ble_eq_true rfl⟩

theorem movReg8Imm (dst : Reg8) (imm : Byte) : Statement (.movReg8Imm dst imm) := fun _ => ⟨rfl, Nat.le_of_ble_eq_true rfl⟩

theorem movReg16Imm (dst : Reg16) (imm : Word) : Statement (.movReg16Imm dst imm) := fun _ => ⟨rfl, Nat.le_of_ble_eq_true rfl⟩

theorem jnz (rel : Byte) : Statement (.jnz rel) := fun _ => ⟨rfl, Nat.le_of_ble_eq_true rfl⟩

theorem jmpFar (off seg : Word) : Statement (.jmpFar off seg) := fun _ => ⟨rfl, Nat.le_of_ble_eq_true rfl⟩

theorem stosw : Statement .stosw := fun _ => ⟨rfl, Nat.le_of_ble_eq_true rfl⟩

theorem nop : Statement .nop := fun _ => ⟨rfl, Nat.le_of_ble_eq_true rfl⟩

theorem outImmAl (port : Byte) : Statement (.outImmAl port) := fun _ => ⟨rfl, Nat.le_of_ble_eq_true rfl⟩

theorem outDxAl : Statement .outDxAl := fun _ => ⟨rfl, Nat.le_of_ble_eq_true rfl⟩

theorem cli : Statement .cli := fun _ => ⟨rfl, Nat.le_of_ble_eq_true rfl⟩

theorem cld : Statement .cld := fun _ => ⟨rfl, Nat.le_of_ble_eq_true rfl⟩

theorem rspQuestion : Statement .rspQuestion := fun _ => ⟨rfl, Nat.le_of_ble_eq_true rfl⟩

theorem rspGetRegs : Statement .rspGetRegs := fun _ => ⟨rfl, Nat.le_of_ble_eq_true rfl⟩

theorem rspReadMem : Statement .rspReadMem := fun _ => ⟨rfl, Nat.le_of_ble_eq_true rfl⟩

theorem rspUnknown (verb : Byte) : Statement (.rspUnknown verb) := fun _ => ⟨rfl, Nat.le_of_ble_eq_true rfl⟩

end Sys2Proof.Laws.EncodeLength
end

