-- ==== Sys2Proof/Tests/Slice0.lean ====
section
/-! SUPPORT. The model's own tests. Expected results are those of 95_test_vectors.md (V<n>) or written out by hand from
the rule named; and for every obligation with hypotheses, a state and operands that meet them (`witness_<name>`). -/

namespace Sys2Proof.Tests

open Sys2Proof Sys2Proof.Machine

/-! ### Helpers -/

/-- General registers, 0 where not named. -/
def gpr (ax cx dx bx sp bp si di : Word := 0#16) : Regs := ⟨ax, cx, dx, bx, sp, bp, si, di⟩

/-- Segment registers, 0 where not named. -/
def seg (es cs ss ds : Word := 0#16) : SRegs := ⟨es, cs, ss, ds⟩

/-- The start state S0 of 95_test_vectors.md, with `bytes` at 0x00100 and what differs from S0. -/
def s0 (bytes : List Byte) (regs : Regs := gpr) (sregs : SRegs := seg) (ip : Word := 0x0100#16) (flags : Word := 0#16)
    (dseg : DataSeg := .ds) (drep : Repeat := .none) : State :=
  { State.reset with
    regs := regs
    sregs := sregs
    ip := ip
    flags := flags
    dseg := dseg
    drep := drep
    bus := busWrite Config.default State.reset.bus 0x100 bytes }

/-- The state with more bytes stored. -/
def withBytes (a : Nat) (bytes : List Byte) (s : State) : State := { s with bus := busWrite s.cfg s.bus a bytes }

/-- A session accepted, a packet received up to `rx`, the length accumulator at `len`. -/
def opened (s : State) (rx : RxState := .idle) (len : DWord := 0#32) : State :=
  { s with
    sess := .accepted
    rx := rx
    accLen := len }

/-- A session accepted, with bytes waiting on the wire. -/
def onWire (bytes : List Byte) (s : State) (rx : RxState := .idle) : State :=
  { opened s rx with wire := bytes.map WireEvent.rx }

/-- The host's schedule and the run loop in progress. -/
def hosted (calls : List HostCall) (run : RunLoop) (s : State) : State :=
  { s with
    calls := calls
    run := run }

/-- The state with `cont` in progress. -/
def looping (s : State) : State := hosted [] .cont s

/-- One iteration of `cont`. -/
def contStep (s : State) : Result := step (looping s)

/-- Parameters with every slot of the debug bridge absent. -/
def slotless : Config := { Config.default with slots := ⟨false, false, false, false, false, false, false⟩ }

/-- DI and the segments at the last word of RAM (V46). -/
def lastWord : State := s0 [] (regs := gpr (di := 0x000E#16)) (sregs := seg (es := 0x7FFF#16) (ds := 0x7FFF#16))

/-- The word at 0x7FFFF, which the end of RAM cuts. -/
def cutWord : State := s0 [] (regs := gpr (di := 0x000F#16)) (sregs := seg (es := 0x7FFF#16) (ds := 0x7FFF#16))

/-- The other value of each opcode parameter. -/
def swapped : Config :=
  { Config.default with
    xorOpcode := 0x31#8
    movRROpcode := 0x89#8 }

/-- The 64-bit mode without a length. -/
def wide : Config := { Config.default with regWidth := .w64 }

/-- The answer is a next state of which `p` holds. -/
def gives (r : Result) (p : State → Bool) : Bool :=
  match r with
  | .next t => p t
  | .fault _ | .refused _ => false

/-- The bytes of memory from physical address `a`. -/
def bytesAt (a n : Nat) (s : State) : List Byte := (busRead s.cfg s.bus a n).1

/-! ### WellFormed: an ill-formed term for each check -/

theorem test_wf_default : Config.default.wf = true := by decide

theorem test_wf_question_excluded : (Instr.rspUnknown 0x3F#8).wf = false := by decide

theorem test_wf_getRegs_excluded : (Instr.rspUnknown 0x67#8).wf = false := by decide

theorem test_wf_readMem_excluded : (Instr.rspUnknown 0x6D#8).wf = false := by decide

theorem test_wf_unknown : (Instr.rspUnknown 0x7A#8).wf = true := by decide

theorem test_wf_ramSize_zero : Config.wf { Config.default with ramSize := 0 } = false := by decide

theorem test_wf_ramSize_large : Config.wf { Config.default with ramSize := 0x80001 } = false := by decide

theorem test_wf_xorOpcode : Config.wf { Config.default with xorOpcode := 0x35#8 } = false := by decide

theorem test_wf_movRROpcode : Config.wf { Config.default with movRROpcode := 0x8C#8 } = false := by decide

theorem test_wf_stopStatus_dollar :
    Config.wf { Config.default with stopStatus := [0x53#8, 0x24#8] } = false := by decide

theorem test_wf_stopStatus_hash : Config.wf { Config.default with stopStatus := [0x53#8, 0x23#8] } = false := by decide

theorem test_wf_stopStatus_brace : Config.wf { Config.default with stopStatus := [0x53#8, 0x7D#8] } = false := by decide

theorem test_wf_stopStatus_star : Config.wf { Config.default with stopStatus := [0x53#8, 0x2A#8] } = false := by decide

theorem test_wf_code_zero : Config.wf { Config.default with errCodes := ⟨0, -2, -3, -4, -5, -6⟩ } = false := by decide

theorem test_wf_codes_equal :
    Config.wf { Config.default with errCodes := ⟨-1, -2, -3, -4, -5, -1⟩ } = false := by decide

theorem test_wf_dump64Len : Config.wf { Config.default with dump64Len := some 127 } = false := by decide

/-! ### Decoding: one word for every constructor, written out from 30_encoding.md R110 -/

theorem test_decode_esOverride : decode Config.default [0x26#8, 0x90#8] = .ok .esOverride := by decide

theorem test_decode_repz : decode Config.default [0xF3#8, 0xAB#8] = .ok .repz := by decide

theorem test_decode_xorAxAx : decode Config.default [0x33#8, 0xC0#8] = .ok .xorAxAx := by decide

theorem test_decode_xorDiDi : decode Config.default [0x33#8, 0xFF#8] = .ok .xorDiDi := by decide

theorem test_decode_cmpRegDi : decode Config.default [0x3B#8, 0x3D#8] = .ok (.cmpRegDi .di) := by decide

theorem test_decode_incAx : decode Config.default [0x40#8] = .ok .incAx := by decide

theorem test_decode_incAl : decode Config.default [0xFE#8, 0xC0#8] = .ok .incAl := by decide

theorem test_decode_movDiDx : decode Config.default [0x89#8, 0x15#8] = .ok .movDiDx := by decide

theorem test_decode_movSiMem :
    decode Config.default [0x8B#8, 0x36#8, 0x34#8, 0x02#8] = .ok (.movSiMem 0x0234#16) := by decide

theorem test_decode_movRegReg : decode Config.default [0x8B#8, 0xE5#8] = .ok (.movRegReg .sp .bp) := by decide

theorem test_decode_movEsAx : decode Config.default [0x8E#8, 0xC0#8] = .ok .movEsAx := by decide

theorem test_decode_movEsBx : decode Config.default [0x8E#8, 0xC3#8] = .ok .movEsBx := by decide

theorem test_decode_movDsAx : decode Config.default [0x8E#8, 0xD8#8] = .ok .movDsAx := by decide

theorem test_decode_movDsBx : decode Config.default [0x8E#8, 0xDB#8] = .ok .movDsBx := by decide

theorem test_decode_movReg8Imm : decode Config.default [0xB4#8, 0x5A#8] = .ok (.movReg8Imm .ah 0x5A#8) := by decide

theorem test_decode_movReg16Imm :
    decode Config.default [0xBE#8, 0x34#8, 0x12#8] = .ok (.movReg16Imm .si 0x1234#16) := by decide

theorem test_decode_jnz : decode Config.default [0x75#8, 0xFE#8] = .ok (.jnz 0xFE#8) := by decide

theorem test_decode_jmpFar :
    decode Config.default [0xEA#8, 0x34#8, 0x12#8, 0x78#8, 0x56#8] = .ok (.jmpFar 0x1234#16 0x5678#16) := by decide

theorem test_decode_stosw : decode Config.default [0xAB#8] = .ok .stosw := by decide

theorem test_decode_nop : decode Config.default [0x90#8] = .ok .nop := by decide

theorem test_decode_outImmAl : decode Config.default [0xE6#8, 0xA0#8] = .ok (.outImmAl 0xA0#8) := by decide

theorem test_decode_outDxAl : decode Config.default [0xEE#8] = .ok .outDxAl := by decide

theorem test_decode_cli : decode Config.default [0xFA#8] = .ok .cli := by decide

theorem test_decode_cld : decode Config.default [0xFC#8] = .ok .cld := by decide

theorem test_decode_rspQuestion : decodeVerb 0x3F#8 = .rspQuestion := by decide

theorem test_decode_rspGetRegs : decodeVerb 0x67#8 = .rspGetRegs := by decide

theorem test_decode_rspReadMem : decodeVerb 0x6D#8 = .rspReadMem := by decide

theorem test_decode_rspUnknown : decodeVerb 0x7A#8 = .rspUnknown 0x7A#8 := by decide

theorem test_decode_xor_31 :
    decode { Config.default with xorOpcode := 0x31#8 } [0x31#8, 0xC0#8] = .ok .xorAxAx := by decide

/-- R122: under 89 the destination is `rm`: `89 D8` is MOV AX,BX. -/
theorem test_decode_mov_89 :
    decode { Config.default with movRROpcode := 0x89#8 } [0x89#8, 0xD8#8] = .ok (.movRegReg .ax .bx) := by decide

theorem test_decode_hlt : decode Config.default [0xF4#8, 0x90#8] = .error (.opcode 0xF4#8 [0x90#8]) := by decide

theorem test_tableWord_movSi : decodeTableWord 32 0x0234368B = some (.movSiMem 0x0234#16) := by decide

/-- The table gives operand words no bits: they are zero. -/
theorem test_tableWord_short : decodeTableWord 8 0xEA = some (.jmpFar 0#16 0#16) := by decide

theorem test_tableWord_verb : decodeTableWord 8 0x6D = some .rspReadMem := by decide

/-! ### One iteration of `cont`, from the vectors -/

/-- V24 -/
theorem test_es :
    gives (contStep (s0 [0x26#8])) (fun t => t.dseg == .es && t.ip == 0x0101#16 && t.res == some .prefixDone) = true
      := by decide

/-- V29, second step -/
theorem test_es_second :
    gives (contStep (s0 [0x26#8] (dseg := .es)))
      (fun t => t.dseg == .es && t.ip == 0x0100#16 && t.res == some (.error (.prefixPair 0x26#8))) = true := by decide

/-- V25 -/
theorem test_repz :
    gives (contStep (s0 [0xF3#8, 0xAB#8])) (fun t => t.drep == .repZ && t.ip == 0x0101#16 && t.res == some .prefixDone) = true := by decide

/-- V30, second step -/
theorem test_repz_after_es :
    gives (contStep (s0 [0xF3#8] (dseg := .es)))
      (fun t => t.drep == .none && t.res == some (.error (.prefixPair 0xF3#8))) = true := by decide

/-- V1 -/
theorem test_xorAxAx :
    gives (contStep (s0 [0x33#8, 0xC0#8] (regs := gpr (ax := 0x1234#16)) (flags := 0x0893#16)))
      (fun t => t.regs.ax == 0#16 && t.flags == 0x08D7#16 && t.ip == 0x0102#16) = true := by decide

/-- V35 -/
theorem test_xorDiDi :
    gives (contStep (s0 [0x33#8, 0xFF#8] (regs := gpr (di := 0xFFFF#16))))
      (fun t => t.regs.di == 0#16 && t.flags == 0x0044#16) = true := by decide

/-- V40 -/
theorem test_cmp_unequal :
    gives (contStep (withBytes 0x1010 [0x35#8, 0x12#8] (s0 [0x3B#8, 0x05#8]
      (regs := gpr (ax := 0x1234#16) (di := 0x0010#16))
      (sregs := seg (ds := 0x0100#16)) (flags := 0x0045#16))))
      (fun t => t.flags == 0x0005#16 && t.ip == 0x0102#16) = true := by decide

/-- V41, second step -/
theorem test_cmp_es :
    gives (contStep (withBytes 0x20020 [0xEF#8, 0xBE#8] (s0 [0x3B#8, 0x1D#8]
      (regs := gpr (bx := 0xBEEF#16) (di := 0x0020#16))
      (sregs := seg (es := 0x2000#16) (ds := 0x0100#16)) (dseg := .es))))
      (fun t => t.flags == 0x0040#16 && t.dseg == .ds) = true := by decide

/-- V53 -/
theorem test_incAx_wrap :
    gives (contStep (s0 [0x40#8] (regs := gpr (ax := 0xFFFF#16)) (flags := 0x0040#16)))
      (fun t => t.regs.ax == 0#16 && t.flags == 0x0054#16) = true := by decide

/-- V56 -/
theorem test_incAx_parity16 :
    gives (contStep (s0 [0x40#8] (regs := gpr (ax := 0x0101#16))))
      (fun t => t.regs.ax == 0x0102#16 && t.flags == 0x0004#16) = true := by decide

/-- V58 -/
theorem test_incAl_wrap :
    gives (contStep (s0 [0xFE#8, 0xC0#8] (regs := gpr (ax := 0x12FF#16)) (flags := 0x0040#16)))
      (fun t => t.regs.ax == 0x1200#16 && t.flags == 0x0040#16) = true := by decide

/-- V64, second step -/
theorem test_movDiDx_es :
    gives (contStep (s0 [0x89#8, 0x15#8] (regs := gpr (dx := 0xBEEF#16) (di := 0x0004#16))
      (sregs := seg (ds := 0x0100#16) (es := 0x0200#16)) (dseg := .es)))
      (fun t => bytesAt 0x2004 2 t == [0xEF#8, 0xBE#8] && bytesAt 0x1004 2 t == [0#8, 0#8]) = true := by decide

/-- V69 -/
theorem test_movDiDx_cut :
    gives (contStep (s0 [0x89#8, 0x15#8] (regs := gpr (dx := 0x55AA#16) (di := 0xFFFF#16))
      (sregs := seg (ds := 0x7000#16))))
      (fun t => t.res == some (.error (.noMem 0x7FFFF)) && bytesAt 0x7FFFF 1 t == [0#8]) = true := by decide

/-- V70 -/
theorem test_movSiMem :
    gives (contStep (withBytes 0x1234 [0xCD#8, 0xAB#8] (s0 [0x8B#8, 0x36#8, 0x34#8, 0x02#8]
      (sregs := seg (ds := 0x0100#16))))) (fun t => t.regs.si == 0xABCD#16 && t.ip == 0x0104#16) = true := by decide

/-- V72 -/
theorem test_movSiMem_linear :
    gives (contStep (withBytes 0x0FFFF [0x11#8, 0x22#8] (s0 [0x8B#8, 0x36#8, 0xFF#8, 0xFF#8])))
      (fun t => t.regs.si == 0x2211#16) = true := by decide

/-- V77 -/
theorem test_movRegReg :
    gives (contStep (s0 [0x8B#8, 0xE5#8] (regs := gpr (sp := 0x1111#16) (bp := 0x2222#16))))
      (fun t => t.regs.sp == 0x2222#16 && t.regs.bp == 0x2222#16) = true := by decide

/-- V79 -/
theorem test_movEsAx :
    gives (contStep (s0 [0x8E#8, 0xC0#8] (regs := gpr (ax := 0x1000#16))))
      (fun t => t.sregs.es == 0x1000#16 && t.ip == 0x0102#16) = true := by decide

/-- V80 -/
theorem test_movEsBx :
    gives (contStep (s0 [0x8E#8, 0xC3#8] (regs := gpr (bx := 0xB800#16))))
      (fun t => t.sregs.es == 0xB800#16) = true := by decide

/-- V81 -/
theorem test_movDsAx :
    gives (contStep (s0 [0x8E#8, 0xD8#8] (regs := gpr (ax := 0x0040#16))))
      (fun t => t.sregs.ds == 0x0040#16) = true := by decide

/-- V82 -/
theorem test_movDsBx :
    gives (contStep (s0 [0x8E#8, 0xDB#8] (regs := gpr (bx := 0xF000#16))))
      (fun t => t.sregs.ds == 0xF000#16) = true := by decide

/-- V8, last row -/
theorem test_movReg8_high :
    gives (contStep (s0 [0xB7#8, 0x5A#8] (regs := gpr (bx := 0x7788#16) (di := 0xFF00#16))))
      (fun t => t.regs.bx == 0x5A88#16 && t.regs.di == 0xFF00#16) = true := by decide

/-- V8 -/
theorem test_movReg8_low :
    gives (contStep (s0 [0xB1#8, 0x5A#8] (regs := gpr (cx := 0x3344#16))))
      (fun t => t.regs.cx == 0x335A#16) = true := by decide

/-- V7 -/
theorem test_movReg16_bp :
    gives (contStep (s0 [0xBD#8, 0x34#8, 0x12#8] (regs := gpr (bp := 0x6666#16))))
      (fun t => t.regs.bp == 0x1234#16 && t.ip == 0x0103#16) = true := by decide

/-- V87 -/
theorem test_jnz_unsigned : gives (contStep (s0 [0x75#8, 0xFE#8])) (fun t => t.ip == 0x0200#16) = true := by decide

/-- V90 -/
theorem test_jnz_not_taken :
    gives (contStep (s0 [0x75#8, 0xFF#8] (flags := 0x0044#16)))
      (fun t => t.ip == 0x0102#16 && t.flags == 0x0044#16) = true := by decide

/-- V96 -/
theorem test_jmpFar :
    gives (contStep (s0 [0xEA#8, 0x34#8, 0x12#8, 0x78#8, 0x56#8]))
      (fun t => t.sregs.cs == 0x5678#16 && t.ip == 0x1234#16) = true := by decide

/-- V98; the address is the fetch request's (log 17) -/
theorem test_jmpFar_cut :
    gives (contStep (withBytes 0xFFFFC [0xEA#8, 0x00#8, 0x00#8, 0x00#8] (s0 []
      (sregs := seg (cs := 0xFFFF#16)) (ip := 0x000C#16))))
      (fun t => t.res == some (.error (.noMem 0xFFFFC)) && t.sregs.cs == 0xFFFF#16) = true := by decide

/-- V99 -/
theorem test_stosw_df :
    gives (contStep (s0 [0xAB#8] (regs := gpr (ax := 0x1234#16) (cx := 0x0007#16) (di := 0x0010#16))
      (sregs := seg (es := 0x1000#16)) (flags := 0x0400#16)))
      (fun t => bytesAt 0x10010 2 t == [0x34#8, 0x12#8] && t.regs.di == 0x0012#16 && t.regs.cx == 7#16) = true
      := by decide

/-- V106, second step -/
theorem test_stosw_repeated_error :
    gives (contStep (s0 [0xF3#8, 0xAB#8] (regs := gpr (ax := 0xAA55#16) (cx := 0x0005#16) (di := 0xFFFB#16))
      (sregs := seg (es := 0x7000#16)) (drep := .repZ) (ip := 0x0101#16)))
      (fun t => t.res == some (.error (.noMem 0x7FFFF)) && t.regs.di == 0xFFFF#16 && t.regs.cx == 3#16 && t.ip == 0x0101#16) = true := by decide

/-- V117 -/
theorem test_nop :
    gives (contStep (withBytes 0x0FFFF [0x90#8] (s0 [] (ip := 0xFFFF#16))))
      (fun t => t.ip == 0x0000#16 && t.sregs.cs == 0#16) = true := by decide

/-- V109 -/
theorem test_outImmAl :
    gives (contStep (s0 [0xE6#8, 0xA0#8] (regs := gpr (ax := 0x1200#16))))
      (fun t => t.out == [.ioWrite 0x00A0#16 0x00#8] && t.ip == 0x0102#16) = true := by decide

/-- V110 -/
theorem test_outDxAl :
    gives (contStep (s0 [0xEE#8] (regs := gpr (ax := 0xFF37#16) (dx := 0x03D8#16))))
      (fun t => t.out == [.ioWrite 0x03D8#16 0x37#8] && t.ip == 0x0101#16) = true := by decide

/-- V111 -/
theorem test_cli : gives (contStep (s0 [0xFA#8] (flags := 0x0244#16))) (fun t => t.flags == 0x0044#16) = true := by decide

/-- V114 -/
theorem test_cld : gives (contStep (s0 [0xFC#8] (flags := 0x0FD5#16))) (fun t => t.flags == 0x0BD5#16) = true := by decide

/-- V115; the loop ends and reports `S05` (R266, R267). -/
theorem test_illegal :
    gives (contStep (s0 [0xF4#8])) (fun t => t.res == some (.error
      (.opcode 0xF4#8 [0#8, 0#8, 0#8])) && t.ip == 0x0100#16 && t.run == .idle
      && t.out == [.returned [0x53#8, 0x30#8, 0x35#8]]) = true := by decide

/-- R311: with nothing called and nothing waiting the CPU does not run, whatever stands at `CS:IP`. -/
theorem test_idle : step (s0 [0x40#8]) = .next (s0 [0x40#8]) := rfl

/-- V4, after the last trailer byte: `+` and `$S05#b8` -/
theorem test_question :
    gives (exec .rspQuestion (opened (s0 []) (.trailer1 .question)))
      (fun t => t.out == [.tx [0x2B#8], .tx [0x24#8, 0x53#8, 0x30#8, 0x35#8, 0x23#8, 0x62#8, 0x38#8]]) = true
      := by decide

/-- R228: without the slot the call is logged and the answer is `$#00`. -/
theorem test_question_absent :
    gives (exec .rspQuestion (opened { s0 [] with cfg := slotless }))
      (fun t => t.out == [.tx [0x2B#8], .unsupported .question, .tx [0x24#8, 0x23#8, 0x30#8, 0x30#8]]) = true
      := by decide

theorem test_getRegs_length :
    gives (exec .rspGetRegs (opened State.reset)) (fun t => t.out.length == 2 && t.rx == .idle) = true := by decide

/-- V123: field 10 is CS = FFFF, the rest zero -/
theorem test_getRegs_dump :
    (dump32 State.reset).drop 80 = [0x66#8, 0x66#8, 0x66#8, 0x66#8] ++ List.replicate 44 0x30#8 := by decide +kernel

/-- R229 -/
theorem test_getRegs_absent :
    gives (exec .rspGetRegs (opened { s0 [] with cfg := slotless }))
      (fun t => t.out == [.tx [0x2B#8], .unsupported .getRegs, .tx [0x24#8, 0x23#8, 0x30#8, 0x30#8]]) = true
      := by decide

/-- V5: `$deadbeef#20` -/
theorem test_readMem :
    gives (exec .rspReadMem (opened (withBytes 0 [0xDE#8, 0xAD#8, 0xBE#8, 0xEF#8] (s0 [])) .idle 4#32))
      (fun t => t.out == [.tx [0x2B#8], .tx [0x24#8, 0x64#8, 0x65#8, 0x61#8, 0x64#8, 0x62#8, 0x65#8, 0x65#8, 0x66#8, 0x23#8, 0x32#8, 0x30#8]]) = true := by decide

/-- R230, R260 -/
theorem test_readMem_absent :
    gives (exec .rspReadMem (opened { s0 [] with cfg := slotless }))
      (fun t => t.out == [.tx [0x2B#8], .unsupported .readMem, .tx [0x24#8, 0x23#8, 0x30#8, 0x30#8]]) = true
      := by decide

/-- V6 -/
theorem test_unknown :
    gives (exec (.rspUnknown 0x7A#8) (opened (s0 [])))
      (fun t => t.out == [.tx [0x2B#8], .tx [0x24#8, 0x23#8, 0x30#8, 0x30#8]]) = true := by decide

/-- V19 -/
theorem test_unmapped_alias :
    (busRead Config.default (busWrite Config.default State.reset.bus 0xB8000 [0x41#8, 0x07#8]) 0xC0000 4).1
      = [0x41#8, 0x07#8, 0xCC#8, 0xCC#8] := by decide

/-- V16 -/
theorem test_clamp_rom : resolve Config.default 0xFFFFC 8 = ⟨.rom, 0xFFFC, 4⟩ := by decide

/-- V129 -/
theorem test_intr_byte :
    gives (step (onWire [0x03#8] (s0 [])))
      (fun t => t.out == [.tx [0x24#8, 0x23#8, 0x30#8, 0x30#8]] && !t.intr) = true := by decide

/-! ### The placing of a table word -/

theorem test_placed_cpu :
    gives (step (State.reset.withFetchWord 32 0x0234368B))
      (fun t => t.ip == 4#16 && t.res == some .done) = true := by decide

theorem test_placed_verb :
    gives (step (State.reset.withFetchWord 8 0x3F)) (fun t => t.out.length == 2) = true := by decide

theorem test_placed_unknown :
    gives (step (State.reset.withFetchWord 8 0x00)) (fun t => t.out.length == 2) = true := by decide

/-! ### Witnesses: states and operands that meet the hypotheses of the statements -/

theorem witness_DecodeOfEncode :
    Config.default.wf = true ∧ (Instr.movReg16Imm .di 0xFFFF#16).wf = true ∧
      (Instr.movReg16Imm .di 0xFFFF#16).isRsp = false ∧ (Instr.rspUnknown 0xFF#8).wf = true ∧
      (Instr.rspUnknown 0xFF#8).isRsp = true := by decide

theorem witness_EncodeOfDecode :
    Config.default.wf = true ∧ decode Config.default [0xEA#8, 0xFF#8, 0xFF#8, 0xFF#8, 0xFF#8, 0x90#8] = .ok
      (.jmpFar 0xFFFF#16 0xFFFF#16) := by decide

theorem witness_UnlistedFirstByte :
    Config.default.wf = true ∧ (looping (s0 [0xFF#8])).running ∧ (looping (s0 [0xFF#8])).cfg = Config.default ∧
      (fetch (looping (s0 [0xFF#8]))).1 = [0xFF#8, 0x00#8, 0x00#8, 0x00#8, 0x00#8] ∧
      0xFF#8 ∉ supportedFirstBytes Config.default := ⟨by decide, ⟨rfl, by decide, rfl, rfl⟩, rfl, by decide, by decide⟩

/-- One ModRM byte for each of the twelve clauses, in their order, at the ends of the fields. -/
theorem witness_RejectedModRM :
    Config.default.xorOpcode = 0x33#8 ∧ Config.default.movRROpcode = 0x8B#8 ∧
    modOf 0xBF#8 ≠ 3#2 ∧
    (modOf 0xC7#8 = 3#2 ∧ (regOf 0xC7#8, rmOf 0xC7#8) ∉ [(0#3, 0#3), (7#3, 7#3)]) ∧
    ¬ (modOf 0x45#8 = 0#2 ∧ rmOf 0x45#8 = 5#3) ∧
    ¬ (modOf 0x16#8 = 0#2 ∧ rmOf 0x16#8 = 5#3) ∧
    (modOf 0x3D#8 = 0#2 ∧ rmOf 0x3D#8 = 5#3 ∧ regOf 0x3D#8 ≠ 2#3) ∧
    (modOf 0x3E#8 = 0#2 ∧ rmOf 0x3E#8 = 6#3 ∧ regOf 0x3E#8 ≠ 6#3) ∧
    (modOf 0xB6#8 ≠ 3#2 ∧ ¬ (modOf 0xB6#8 = 0#2 ∧ rmOf 0xB6#8 = 6#3)) ∧
    modOf 0x00#8 ≠ 3#2 ∧
    (modOf 0xFF#8 = 3#2 ∧ (regOf 0xFF#8 ∉ [0#3, 3#3] ∨ rmOf 0xFF#8 ∉ [0#3, 3#3])) ∧
    regOf 0x08#8 ≠ 0#3 ∧
    (regOf 0x87#8 = 0#3 ∧ modOf 0x87#8 ≠ 3#2) ∧
    (regOf 0xC7#8 = 0#3 ∧ modOf 0xC7#8 = 3#2 ∧ rmOf 0xC7#8 ≠ 0#3) := by decide

theorem witness_OpcodeParameters :
    (∃ c : Config, c.wf = true ∧ c.xorOpcode = 0x31#8 ∧ c.movRROpcode = 0x89#8) ∧ (∃ c : Config, c.wf = true ∧
      c.xorOpcode = 0x33#8 ∧ c.movRROpcode = 0x8B#8) ∧ modOf 0xC0#8 = 3#2 ∧ modOf 0xFF#8 = 3#2 :=
      ⟨⟨swapped, by decide⟩, ⟨Config.default, by decide⟩, by decide, by decide⟩

theorem witness_CutInstruction :
    Config.default.wf = true ∧ (Instr.jmpFar 0#16 0#16).isRsp = false ∧ 4 < (Instr.jmpFar 0#16 0#16).length ∧
      0 < Instr.nop.length := by decide

/-- Each of the four results: 1, 0 in `cont`, 0 in `stepi`, an error. -/
theorem witness_StepRunsDecoded :
    (looping (s0 [0x26#8])).running ∧ (hosted [] .stepi (s0 [0x90#8])).running ∧
      decode Config.default (fetch (looping (s0 [0x26#8]))).1 = .ok .esOverride ∧
      decode Config.default (fetch (hosted [] .stepi (s0 [0x90#8]))).1 = .ok .nop ∧
      gives (exec .esOverride (fetch (looping (s0 [0x26#8]))).2) (fun t => t.res == some .prefixDone) = true ∧
      gives (exec .nop (fetch (looping (s0 [0x90#8]))).2) (fun t => t.res == some .done && t.run == .cont) = true ∧
      gives (exec .nop (fetch (hosted [] .stepi (s0 [0x90#8]))).2)
        (fun t => t.res == some .done && t.run == .stepi) = true ∧
      gives (exec .stosw (fetch (looping cutWord)).2) (fun t => t.res == some (.error (.noMem 0x7FFFF))) = true ∧
      regionOf Config.default (addrFetch (looping (s0 [0x26#8]))) ≠ .scratch :=
  ⟨⟨rfl, by decide, rfl, rfl⟩, ⟨rfl, by decide, rfl, rfl⟩, by decide, by decide, by decide, by decide, by decide,
    by decide, by decide⟩

theorem witness_StepServicesVerb :
    (onWire [0x00#8] (s0 []) (.trailer1 .getRegs)).hears (.rx 0x00#8) [] ∧
      (onWire [0xFF#8] (s0 []) .skipTrailer1).hears (.rx 0xFF#8) [] ∧
      (onWire [0x00#8] (s0 [])).sess = .accepted := ⟨⟨rfl, rfl, rfl⟩, ⟨rfl, rfl, rfl⟩, rfl⟩

theorem witness_FailedDecode_opcode :
    (looping (s0 [0xF4#8])).running ∧ decode Config.default (fetch (looping (s0 [0xF4#8]))).1 = .error (.opcode 0xF4#8 [0#8, 0#8, 0#8]) :=
  ⟨⟨rfl, by decide, rfl, rfl⟩, by decide⟩

theorem witness_FailedDecode_stepi :
    (hosted [] .stepi (s0 [0xF4#8])).running ∧
      gives (step (hosted [] .stepi (s0 [0xF4#8]))) (fun t => t.run == .idle && t.out.length == 1) = true :=
  ⟨⟨rfl, by decide, rfl, rfl⟩, by decide⟩

theorem witness_FailedDecode_addrMode :
    (looping (s0 [0x3B#8, 0xC1#8])).running ∧ decode Config.default (fetch (looping (s0 [0x3B#8, 0xC1#8]))).1 = .error (.addrMode 0x3B#8 0xC1#8) :=
  ⟨⟨rfl, by decide, rfl, rfl⟩, by decide⟩

theorem witness_FailedDecode_regOp :
    (looping (s0 [0x33#8, 0xC9#8])).running ∧ decode Config.default (fetch (looping (s0 [0x33#8, 0xC9#8]))).1 = .error (.regOp 0x33#8 0xC9#8) :=
  ⟨⟨rfl, by decide, rfl, rfl⟩, by decide⟩

theorem witness_FailedDecode_subOp :
    (looping (s0 [0xFE#8, 0xC8#8])).running ∧ decode Config.default (fetch (looping (s0 [0xFE#8, 0xC8#8]))).1 = .error (.subOp 0xFE#8 0xC8#8) :=
  ⟨⟨rfl, by decide, rfl, rfl⟩, by decide⟩

/-- V120 -/
theorem witness_FailedDecode_short :
    State.running (looping (withBytes 0xFFFFF [0xB0#8] (s0 [] (ip := 0x000F#16) (sregs := seg (cs := 0xFFFF#16))))) ∧
      decode Config.default (fetch (looping (withBytes 0xFFFFF [0xB0#8] (s0 [] (ip := 0x000F#16)
      (sregs := seg (cs := 0xFFFF#16)))))).1 = .error .short := ⟨⟨rfl, by decide, rfl, rfl⟩, by decide⟩

/-- A call of each of the four kinds that overlaps a run loop. -/
theorem witness_StepStops_fault :
    step (hosted [.stepi] .cont (s0 [])) = .fault .overlappingCall ∧
      step (hosted [.cont] .stepi (s0 [])) = .fault .overlappingCall ∧
      step (hosted [.getRegs] .cont (s0 [])) = .fault .overlappingCall ∧
      step (hosted [.readMem 0xFFFFFFFF#32 0#32] .cont (s0 [])) = .fault .overlappingCall := ⟨rfl, rfl, rfl, rfl⟩

/-- A dump asked for by the host; by a `g` packet, with a client that takes one byte, with the host's schedule empty or at
a boundary where it does nothing; and not where the client does not take the `+`. -/
theorem witness_StepStops_refused :
    step { hosted [.getRegs] .idle (s0 []) with cfg := wide } = .refused .dump64LenOpen ∧
      step { onWire [0x00#8] (s0 []) (.trailer1 .getRegs) with cfg := wide } = .refused .dump64LenOpen ∧
      step { onWire [0x00#8] (s0 []) (.trailer1 .getRegs) with cfg := wide, calls := [.quiet], txRoom := some 1 } =
        .refused .dump64LenOpen ∧
      gives (step { onWire [0x00#8] (s0 []) (.trailer1 .getRegs) with cfg := wide, txRoom := some 0 })
        (fun t => t.sess == .listening) = true := ⟨rfl, rfl, rfl, by decide⟩

theorem witness_PrefixIsRecorded : (s0 []).dseg = .ds ∧ (s0 []).drep = .none := ⟨rfl, rfl⟩

theorem witness_SecondPrefix :
    (looping (s0 [0xF3#8] (dseg := .es))).running ∧ (fetch (looping (s0 [0xF3#8] (dseg := .es)))).1
      = [0xF3#8, 0x00#8, 0x00#8, 0x00#8, 0x00#8] ∧ 0xF3#8 ∈ [0x26#8, 0xF3#8] ∧
      (looping (s0 [0xF3#8] (dseg := .es))).dseg ≠ .ds := ⟨⟨rfl, by decide, rfl, rfl⟩, by decide, by decide, by decide⟩

theorem witness_PrefixLasts :
    (looping (s0 [0x90#8])).running ∧ gives (contStep (s0 [0x90#8])) (fun t => t.res == some .done) = true ∧
      gives (contStep (s0 [0x26#8])) (fun t => t.res == some .prefixDone) = true ∧ gives (contStep (s0 [0xFF#8]))
      (fun t => t.res == some (.error (.opcode 0xFF#8 [0#8, 0#8, 0#8]))) = true :=
      ⟨⟨rfl, by decide, rfl, rfl⟩, by decide, by decide, by decide⟩

/-- NOP consults neither prefix; a repeated STOSW that fails keeps an outstanding `dseg`. -/
theorem witness_UnconsultedPrefix :
    Instr.nop.isRsp = false ∧ Instr.nop ≠ .esOverride ∧ Instr.nop ≠ .repz ∧ (∀ r, Instr.nop ≠ .cmpRegDi r) ∧
    Instr.nop ≠ .movDiDx ∧ (∀ d, Instr.nop ≠ .movSiMem d) ∧ Instr.nop ≠ .stosw ∧
    gives (exec .nop (s0 [] (dseg := .es))) (fun t => t.res == some .done) = true ∧
    gives (exec .stosw (s0 [] (sregs := seg (es := 0x7FFF#16)) (regs := gpr (di := 15#16)) (dseg := .es)))
      (fun t => t.res != some .done) = true :=
  ⟨rfl, by decide, by decide, fun _ => by simp, by decide, fun _ => by simp, by decide, by decide, by decide⟩

theorem witness_CmpWritesZero :
    lastWord.bus.wf lastWord.cfg = true ∧ wordFits lastWord.cfg (addrDi lastWord) ∧
      ¬ wordFits cutWord.cfg (addrDi cutWord) := by decide

theorem witness_MovDiDx :
    lastWord.bus.wf lastWord.cfg = true ∧ wordFits lastWord.cfg (addrDi lastWord) ∧
      ¬ wordFits cutWord.cfg (addrDi cutWord) := by decide

theorem witness_StoswOneWord :
    lastWord.bus.wf lastWord.cfg = true ∧ wordFits lastWord.cfg (addrStos lastWord) ∧
      ¬ wordFits cutWord.cfg (addrStos cutWord) ∧ lastWord.drep = .none ∧ cutWord.drep = .none := by decide

theorem witness_MovSi :
    lastWord.bus.wf lastWord.cfg = true ∧ wordFits lastWord.cfg (addrDirect 0x000E#16 lastWord) ∧
      ¬ wordFits cutWord.cfg (addrDirect 0x000F#16 cutWord) := by decide

/-- Both outcomes of the comparison. -/
theorem witness_CmpEqual :
    lastWord.regs.get .bx = wordAt lastWord (addrDi lastWord) ∧
      lastWord.regs.get .di ≠ wordAt lastWord (addrDi lastWord) := by decide

theorem witness_IncAx :
    (0x12FF#16).toNat % 256 = 255 ∧ (0x12FE#16).toNat % 256 ≠ 255 ∧ (0x0000#16).toNat % 256 ≠ 255 ∧
      Config.default.incAxAfClears = false ∧
      Config.wf { Config.default with incAxAfClears := true } = true := by decide

theorem witness_Jnz : flagOf .zero 0x0040#16 = true ∧ flagOf .zero 0xFFBF#16 = false := by decide

/-- Two iterations complete and the third is cut (V106). -/
def repeated : State :=
  s0 [] (regs := gpr (ax := 0xAA55#16) (cx := 5#16) (di := 0xFFFB#16)) (sregs := seg (es := 0x7000#16)) (drep := .repZ)

theorem witness_RepeatedStosw :
    (setReg .cx 2#16 repeated).drep ≠ .none ∧ repeated.bus.wf repeated.cfg = true ∧
      ∀ j < 2, (stosView (setReg .cx 2#16 repeated) j).len = 2 := by decide

/-- CX = 0: the hypothesis on the words holds trivially. -/
theorem witness_RepeatedStosw_zero : (setReg .cx 0#16 repeated).regs.cx.toNat = 0 := by decide

theorem witness_RepeatedStoswError :
    repeated.drep ≠ .none ∧ repeated.bus.wf repeated.cfg = true ∧ 2 < repeated.regs.cx.toNat ∧
      (∀ j < 2, (stosView repeated j).len = 2) ∧ (stosView repeated 2).len < 2 := by decide

theorem witness_WritersAreComplete :
    (∃ t, exec .incAx (s0 []) = .next t) ∧ .zero ∉ flagTargets .incAx ∧ .bx ∉ regTargets .incAx ∧
      .ss ∉ sregTargets .incAx ∧ Instr.incAx.isRsp = false := ⟨⟨_, rfl⟩, by decide, by decide, by decide, rfl⟩

theorem witness_FlagSet :
    flagOf .interrupt 0x0200#16 = true ∧ flagOf .direction 0x0400#16 = true ∧
      ∃ t, exec .nop (s0 [] (flags := 0x0600#16)) = .next t ∧ t.flags = 0x0600#16 :=
      ⟨by decide, by decide, _, rfl, rfl⟩

/-- Nothing waiting; a host call that starts a loop; a wire event. -/
theorem witness_OnlyARunLoop :
    ((s0 [0x40#8]).run = .idle ∧ (s0 [0x40#8]).calls = [] ∧ (s0 [0x40#8]).wire = [] ∧
      step (s0 [0x40#8]) = .next (s0 [0x40#8])) ∧
    gives (step (hosted [.stepi] .idle (s0 []))) (fun t => t.run == .stepi) = true ∧
    gives (step (hosted [.cont] .idle (s0 []))) (fun t => t.run == .cont) = true ∧
    (onWire [0x03#8] (s0 [])).hears (.rx 0x03#8) [] ∧ ∃ t, step (onWire [0x03#8] (s0 [])) = .next t :=
  ⟨⟨rfl, rfl, rfl, rfl⟩, by decide, by decide, ⟨rfl, rfl, rfl⟩, _, rfl⟩

/-- Both kinds of error: one that changes nothing, and a repeated STOSW at 0x00100 that keeps two iterations. -/
theorem witness_ErrorsArePrecise :
    (looping (s0 [0xF4#8])).running ∧ decode Config.default (fetch (looping (s0 [0xF4#8]))).1 ≠ .ok .stosw ∧
    gives (contStep (s0 [0xF4#8])) (fun t => t.res == some (.error (.opcode 0xF4#8 [0#8, 0#8, 0#8]))) = true ∧
    (looping (withBytes 0x100 [0xAB#8] repeated)).running ∧
    decode Config.default (fetch (looping (withBytes 0x100 [0xAB#8] repeated))).1 = .ok .stosw ∧
    (looping (withBytes 0x100 [0xAB#8] repeated)).drep ≠ .none ∧
    (withBytes 0x100 [0xAB#8] repeated).bus.wf Config.default = true ∧
    gives (contStep (withBytes 0x100 [0xAB#8] repeated)) (fun t => t.res == some (.error (.noMem 0x7FFFF))) = true :=
  ⟨⟨rfl, by decide, rfl, rfl⟩, by decide, by decide, ⟨rfl, by decide, rfl, rfl⟩, by decide, by decide, by decide,
    by decide⟩

theorem witness_ErrorCodes :
    Config.default.errCodes.wf = true ∧ (StepError.noMem 0).code Config.default.errCodes =
      (StepError.noMem 1).code Config.default.errCodes := by decide

/-- V12, V16, V14 -/
theorem witness_RequestsClamped :
    (resolve Config.default 0x7FFFF 2).len < 2 ∧ (resolve Config.default 0xFFFFF 2).len < 2 ∧
      ¬ (resolve Config.default 0xEFFFF 2).len < 2 ∧ 1 ≤ (resolve Config.default 0xFFFFF 1).len := by decide

theorem witness_WriteThenRead :
    State.reset.bus.wf Config.default = true ∧ ¬ (Region.ram = (resolve Config.default 0xFFFFF 2).region) := by decide

theorem witness_Unmapped :
    State.reset.bus.wf Config.default = true ∧ regionOf Config.default 0x80000 = .scratch ∧
      regionOf Config.default 0x100000 = .scratch ∧ regionOf Config.default 0xEFFFF = .scratch := by decide

theorem witness_Replies :
    (opened (s0 [])).sess = .accepted ∧ (opened (s0 [])).txRoom = none ∧ (opened (s0 [])).cfg.regWidth = .w32 ∧
      getRegs (opened (s0 [])) = some (dump32 (s0 [])) := ⟨rfl, rfl, rfl, rfl⟩

/-- The absent-slot clauses of the three verbs. -/
theorem witness_Replies_absent :
    slotless.wf = true ∧ slotless.slots.question = false ∧ slotless.slots.getRegs = false ∧
      slotless.slots.readMem = false ∧ (opened { s0 [] with cfg := slotless }).sess = .accepted := by decide

theorem witness_GetRegs_w64 :
    wide.wf = true ∧ wide.slots.getRegs = true ∧ wide.dump64Len = none ∧
      ({ wide with dump64Len := some 128 }).wf = true := by decide

/-- `$?#ZZ`: a trailer that is no hex. -/
def hexPacket : List Byte := [0x24#8, 0x3F#8, 0x23#8, 0x5A#8, 0x5A#8]

/-- `$g#00`, with the slot and without. -/
theorem witness_RegistersPacket :
    (onWire [0x24#8, 0x67#8, 0x23#8, 0x00#8, 0x00#8] (s0 [])).wire =
      [.rx 0x24#8, .rx 0x67#8, .rx 0x23#8, .rx 0x00#8, .rx 0x00#8] ++ [] ∧
    (onWire [] (s0 [])).cfg.slots.getRegs = true ∧ (onWire [] (s0 [])).cfg.regWidth = .w32 ∧
    gives (steps 5 (onWire [0x24#8, 0x67#8, 0x23#8, 0x00#8, 0x00#8] { s0 [] with cfg := slotless })) (fun t =>
      t.out == [.tx [0x2B#8], .unsupported .getRegs, .tx [0x24#8, 0x23#8, 0x30#8, 0x30#8]]) = true :=
  ⟨rfl, rfl, rfl, by decide⟩

theorem witness_QuestionPacket :
    (onWire hexPacket (s0 [])).calls = [] ∧ (onWire hexPacket (s0 [])).run = .idle ∧
      (onWire hexPacket (s0 [])).sess = .accepted ∧ (onWire hexPacket (s0 [])).rx = .idle ∧
      (onWire hexPacket (s0 [])).txRoom = none ∧ (onWire hexPacket (s0 [])).cfg.slots.question = true ∧
      (onWire hexPacket (s0 [])).wire = [.rx 0x24#8, .rx 0x3F#8, .rx 0x23#8, .rx 0x5A#8, .rx 0x5A#8] ++ [] :=
      ⟨rfl, rfl, rfl, rfl, rfl, rfl, rfl⟩

/-- `$m7FFFE,8#1f` and `$m,#00`: upper-case digits, and two empty runs (V131, V133, V134). -/
theorem witness_ReadMemPacket :
    (∀ b ∈ [0x37#8, 0x46#8, 0x46#8, 0x46#8, 0x45#8] ++ [0x38#8], (hexValue b).isSome = true) ∧
    (∀ b ∈ ([] : List Byte) ++ [], (hexValue b).isSome = true) ∧
    (onWire [0x24#8, 0x6D#8, 0x2C#8, 0x23#8, 0x30#8, 0x30#8] (s0 [])).wire =
      ([0x24#8, 0x6D#8] ++ ([] : List Byte) ++ [0x2C#8] ++
        ([] : List Byte) ++ [0x23#8, 0x30#8, 0x30#8]).map WireEvent.rx ++ [] ∧
    (onWire [] (s0 [])).calls = [] ∧ (onWire [] (s0 [])).run = .idle ∧ (onWire [] (s0 [])).sess = .accepted ∧
    (onWire [] (s0 [])).rx = .idle ∧ (onWire [] (s0 [])).txRoom = none ∧ (onWire [] (s0 [])).cfg.slots.readMem = true :=
  ⟨by decide, by decide, rfl, rfl, rfl, rfl, rfl, rfl, rfl⟩

/-- `$M0#ZZ` (V128). -/
theorem witness_UnknownPacket :
    0x4D#8 ∉ knownVerbs ∧ 0x23#8 ∉ [0x30#8] ∧
    (onWire [0x24#8, 0x4D#8, 0x30#8, 0x23#8, 0x5A#8, 0x5A#8] (s0 [])).wire =
      ([0x24#8, 0x4D#8] ++ [0x30#8] ++ [0x23#8, 0x5A#8, 0x5A#8]).map WireEvent.rx ++ [] ∧
    (onWire [] (s0 [])).calls = [] ∧ (onWire [] (s0 [])).run = .idle ∧ (onWire [] (s0 [])).sess = .accepted ∧
    (onWire [] (s0 [])).rx = .idle ∧ (onWire [] (s0 [])).txRoom = none :=
  ⟨by decide, by decide, rfl, rfl, rfl, rfl, rfl, rfl⟩

/-- A state for each of the six alternatives of the lead bytes and parse failures. -/
theorem witness_LeadBytes :
    (onWire [0x03#8] (s0 [])).hears (.rx 0x03#8) [] ∧ (onWire [0x03#8] (s0 [])).sess = .accepted ∧
    (onWire [0x03#8] (s0 [])).txRoom = none ∧ (onWire [0x03#8] (s0 [])).rx = .idle ∧
    (0x03#8 ≠ 0x2B#8 ∧ 0x03#8 ≠ 0x24#8) ∧
    (∃ v, (onWire [0x78#8] (s0 []) (.delim .question)).rx = .delim v) ∧ 0x78#8 ≠ 0x23#8 ∧
    (hexValue 0x78#8 = none ∧ 0x78#8 ≠ 0x2C#8) ∧ (hexValue 0x2C#8 = none ∧ 0x2C#8 ≠ 0x23#8) ∧
    (hexValue 0x2F#8 = none ∧ hexValue 0x3A#8 = none ∧ hexValue 0x47#8 = none ∧ hexValue 0x60#8 = none) :=
  ⟨⟨rfl, rfl, rfl⟩, rfl, rfl, rfl, by decide, ⟨_, rfl⟩, by decide, by decide, by decide, by decide⟩

theorem witness_Session :
    ({ s0 [] with wire := [.connect] }).hears .connect [] ∧ ({ s0 [] with wire := [.connect] }).sess = .listening ∧
      ({ opened (s0 []) with wire := [.connect] }).hears .connect [] ∧
      ({ opened (s0 []) .mAddr with wire := [.hangup] }).hears .hangup [] :=
      ⟨⟨rfl, rfl, rfl⟩, rfl, ⟨rfl, rfl, rfl⟩, ⟨rfl, rfl, rfl⟩⟩

/-- The boundary values of `room`: nothing taken, all but the last byte, all. -/
theorem witness_ShortWrite :
    Instr.rspQuestion.isRsp = true ∧ (opened (s0 [])).sess = .accepted ∧
      (∃ u, exec .rspQuestion { opened (s0 []) with txRoom := none } = .next u ∧
        Emits [.tx ackBytes, .tx (frame Config.default.stopStatus)] (opened (s0 [])) u) ∧
      0 < (txBytes [.tx ackBytes, .tx (frame Config.default.stopStatus)]).length ∧
      7 < (txBytes [.tx ackBytes, .tx (frame Config.default.stopStatus)]).length ∧
      (txBytes [.tx ackBytes, .tx (frame Config.default.stopStatus)]).length ≤ 8 :=
  ⟨rfl, rfl, ⟨_, rfl, rfl⟩, by decide, by decide, by decide⟩

/-- The lone `$#00`: three bytes of the four taken, and all four. -/
theorem witness_ShortWrite_lone :
    ({ onWire [0x03#8] (s0 []) with txRoom := some 3 }).hears (.rx 0x03#8) [] ∧
      ({ onWire [0x03#8] (s0 []) with txRoom := some 3 }).sess = .accepted ∧ 3 < (frame []).length ∧
      (frame []).length ≤ 4 ∧
      gives (step { onWire [0x03#8] (s0 []) with txRoom := some 3 })
        (fun t => t.out == [.tx [0x24#8, 0x23#8, 0x30#8]] && t.sess == .listening) = true :=
  ⟨⟨rfl, rfl, rfl⟩, rfl, by decide, by decide, by decide⟩

theorem witness_Transmissions :
    (onWire [0x03#8] (s0 [])).cfg.wf = true ∧ (onWire [0x03#8] (s0 [])).txRoom = none ∧
      ∃ t, step (onWire [0x03#8] (s0 [])) = .next t ∧ t.out ≠ [] := ⟨by decide, rfl, _, rfl, by decide⟩

theorem witness_RegisterDump :
    Config.default.regWidth = .w32 ∧ (Config.wf { wide with dump64Len := some 128 }) = true ∧ 128 ≤ 128 := by decide

/-- V131 -/
theorem witness_MemoryDump :
    0 < (resolve Config.default 0x7FFFE 8).len ∧ 1 < (resolve Config.default 0x7FFFE 8).len ∧
      ¬ 2 < (resolve Config.default 0x7FFFE 8).len := by decide

/-- `stepi` on `F3 AB` (V143), which takes two steps, and on `90`, which takes one. -/
theorem witness_Stepi :
    (hosted [] .stepi (s0 [0xF3#8, 0xAB#8])).calls = [] ∧ (hosted [] .stepi (s0 [0xF3#8, 0xAB#8])).run = .stepi ∧
    (hosted [] .stepi (s0 [0xF3#8, 0xAB#8])).kill = false ∧ (hosted [] .stepi (s0 [0xF3#8, 0xAB#8])).intr = false ∧
    gives (step (hosted [] .stepi (s0 [0xF3#8, 0xAB#8]))) (fun t => t.run == .stepi) = true ∧
    gives (step (hosted [] .stepi (s0 [0x90#8]))) (fun t => t.run == .idle) = true :=
  ⟨rfl, rfl, rfl, rfl, by decide, by decide⟩

/-- V144, V146 -/
theorem witness_RunLoops :
    ({ hosted [] .cont (s0 [0x90#8]) with intr := true }).run ≠ .idle ∧
      ({ hosted [] .cont (s0 [0x90#8]) with intr := true }).intr = true ∧
      gives (contStep (s0 [0x90#8])) (fun t => t.run == .cont) = true ∧
      gives (contStep (s0 [0xF4#8])) (fun t => t.run == .idle) = true := by decide

theorem witness_StickyFlags :
    (∃ t, step (hosted [.kill] .idle (s0 [])) = .next t ∧ t.kill = true) ∧
      ∃ t, step { hosted [.intr] .idle (s0 []) with kill := true } = .next t ∧ t.kill = true ∧ t.intr = true :=
      ⟨⟨_, rfl, rfl⟩, _, rfl, rfl, rfl⟩

theorem witness_HostCalls :
    Config.default.slots = ⟨true, true, true, true, true, true, true⟩ ∧
      (hosted [.getRegs] .idle (s0 [])).run = .idle ∧
      getRegs (hosted [.getRegs] .idle (s0 [])) = some (dump32 (s0 [])) := ⟨rfl, rfl, rfl⟩

/-- Every slot absent: the read of memory, with its two arguments, is one of the seven. -/
theorem witness_HostCalls_absent :
    slotless.slots.intr = false ∧ step { hosted [.readMem 0#32 1#32] .cont (s0 []) with cfg := slotless } =
      .next { hosted [] .cont (s0 []) with cfg := slotless, out := [.unsupported .readMem] } := ⟨rfl, rfl⟩

/-- A boundary at which the host does nothing, before each of the three that may move. -/
theorem witness_HostCalls_quiet :
    (hosted [.quiet] .cont (s0 [0x90#8])).run ≠ .idle ∧
      gives (step (hosted [.quiet] .cont (s0 [0x90#8]))) (fun t => t.ip == 0x0101#16 && t.calls == []) = true ∧
      gives (step { onWire [0x24#8] (s0 []) with calls := [.quiet] }) (fun t => t.rx == .verb && t.calls == []) = true ∧
      step (hosted [.quiet] .idle (s0 [])) = .next (s0 []) := ⟨by decide, by decide, by decide, rfl⟩

theorem witness_ResetValues :
    (∀ c ∈ [((0x7FFFF : Nat), 0x5A#8)], c.1 < Config.default.ramSize ∧
      ∀ d ∈ [((0x7FFFF : Nat), 0x5A#8)], d.1 = c.1 → d = c) ∧
      ∀ c ∈ [((0xFFFF : Nat), 0xEA#8)], c.1 < 0x10000 := by decide

theorem witness_ResetIsLegal :
    Config.default.wf = true ∧ Config.wf { Config.default with ramSize := 1 } = true := by decide

theorem witness_EveryStep :
    State.reset.Inv ∧ ∃ t, step State.reset = .next t := ⟨⟨by decide, by decide, by decide, by decide⟩, _, rfl⟩

/-- The conditions of the encoding clauses of the XOR and MOV r8,imm8 statements. -/
theorem witness_XorAndMovByte : State.reset.cfg.xorOpcode = 0x33#8 ∧ State.reset.cfg.wf = true := by decide

/-- An iteration of `cont` that returns an error, not a STOSW: byte F4 (R120); a new `stepi` fails again. -/
theorem witness_Halt :
    (looping (s0 [0xF4#8])).running ∧ decode Config.default (fetch (looping (s0 [0xF4#8]))).1 ≠ .ok .stosw ∧
    gives (contStep (s0 [0xF4#8])) (fun t => t.res == some (.error (.opcode 0xF4#8 [0#8, 0#8, 0#8]))) = true ∧
    RunLoop.stepi ≠ .idle :=
  ⟨⟨rfl, by decide, rfl, rfl⟩, by decide, by decide, by decide⟩

end Sys2Proof.Tests
end

/-! ### What an instruction that touches memory does -/

namespace Sys2Proof.Machine

/-- `CMP r16,[DI]`: `E_NOMEM` where the word is cut, else ZF of the difference (41_alu.md R152). -/
theorem execCmpRegDi_eq (r : Reg16) (s : State) :
    execCmpRegDi r s =
      if wordFits s.cfg (addrDi s) then
        .next (finish 2 (setFlags (withFlag .zero (isZero (s.regs.get r - wordAt s (addrDi s))) s.flags)
          { s with bus := s.bus.grow (resolve s.cfg (addrDi s) 2) }))
      else raise (.noMem (addrDi s)) s := by
  unfold execCmpRegDi
  rw [memRead_word]
  by_cases h : wordFits s.cfg (addrDi s)
  · rw [if_pos h, if_pos h]
  · rw [if_neg h, if_neg h]

/-- `MOV [DI],DX`: `E_NOMEM` where the word is cut, else DX stored (42_mov.md R170). -/
theorem execMovDiDx_eq (s : State) :
    execMovDiDx s =
      if wordFits s.cfg (addrDi s) then
        .next (finish 2 { s with bus := busWrite s.cfg s.bus (addrDi s) [s.regs.dx.lo, s.regs.dx.hi] })
      else raise (.noMem (addrDi s)) s := by
  unfold execMovDiDx
  rw [memWrite_word]
  by_cases h : wordFits s.cfg (addrDi s)
  · rw [if_pos h, if_pos h]
  · rw [if_neg h, if_neg h]

/-- `MOV SI,[imm16]`: `E_NOMEM` where the word is cut, else SI loaded (42_mov.md R171). -/
theorem execMovSiMem_eq (d : Word) (s : State) :
    execMovSiMem d s =
      if wordFits s.cfg (addrDirect d s) then
        .next (finish 4 (setReg .si (wordAt s (addrDirect d s))
          { s with bus := s.bus.grow (resolve s.cfg (addrDirect d s) 2) }))
      else raise (.noMem (addrDirect d s)) s := by
  unfold execMovSiMem
  rw [memRead_word]
  by_cases h : wordFits s.cfg (addrDirect d s)
  · rw [if_pos h, if_pos h]
  · rw [if_neg h, if_neg h]

/-- `STOSW` without a repeat prefix: `E_NOMEM` where the word is cut, else one store (44_string.md R200). -/
theorem execStosw_of_single {s : State} (h : s.drep = .none) :
    execStosw s =
      if wordFits s.cfg (addrStos s) then
        .next (finish 1 (setReg .di (s.regs.di + 2#16)
          { s with bus := busWrite s.cfg s.bus (addrStos s) [s.regs.ax.lo, s.regs.ax.hi] }))
      else raise (.noMem (addrStos s)) s := by
  unfold execStosw
  rw [stosOnce_eq]
  by_cases hf : wordFits s.cfg (addrStos s)
  · rw [if_pos hf, if_pos hf, h]
  · rw [if_neg hf, if_neg hf, h]

/-- `STOSW` repeated is its loop, ended by its last iteration or by an error (44_string.md R200). -/
theorem execStosw_of_repeated {s : State} (h : s.drep ≠ .none) :
    execStosw s =
      match (stosLoop s.regs.cx.toNat s).2 with
      | none => .next (finish 1 (stosLoop s.regs.cx.toNat s).1)
      | some e => raise e (stosLoop s.regs.cx.toNat s).1 := by
  unfold execStosw
  cases hr : s.drep
  · exact absurd hr h
  all_goals
    obtain ⟨t, e⟩ := stosLoop s.regs.cx.toNat s
    cases e <;> rfl

/-! ### What an instruction of the interpreter writes -/

/-- What instruction `i` may have done on the way from `s` to `u`: the frame of its targets, memory grown or stored in
canonical form, no transmission. IP, the prefix state and the result, which its epilogue sets, are left open. -/
structure Wrote (i : Instr) (s u : State) : Prop where
  regs : RegsOnly (regTargets i) s u
  sregs : SRegsOnly (sregTargets i) s u
  flags : FlagsOnly (flagTargets i) s u
  engine : SameEngine s u
  control : SameControl s u
  grows : s.bus.scrLen ≤ u.bus.scrLen
  legal : s.bus.wf s.cfg = true → u.bus.wf u.cfg = true
  quiet : ∃ new, Emits new s u ∧ ∀ bytes, Output.tx bytes ∉ new

namespace Wrote

variable {i : Instr} {s u : State}

theorem refl (i : Instr) (s : State) : Wrote i s s where
  regs _ _ := rfl
  sregs _ _ := rfl
  flags _ _ := rfl
  engine := ⟨rfl, rfl, rfl, rfl, rfl, rfl, rfl⟩
  control := ⟨rfl, rfl, rfl, rfl, rfl, rfl⟩
  grows := Nat.le_refl _
  legal h := h
  quiet := ⟨[], (List.append_nil _).symm, fun _ => List.not_mem_nil⟩

theorem setReg (h : Wrote i s u) {r : Reg16} (v : Word) (hr : r ∈ regTargets i) :
    Wrote i s (setReg r v u) :=
  { h with
    regs := fun q hq => by
      rw [setReg_regs, Regs.get_set, if_neg (ne_of_mem_of_not_mem hr hq).symm, h.regs q hq] }

theorem setReg8 (h : Wrote i s u) {r : Reg8} (v : Byte) (hr : parentOf r ∈ regTargets i) :
    Wrote i s (setReg8 r v u) :=
  { h with
    regs := fun q hq => by
      rw [setReg8_regs, Regs.get_setByte_other _ _ _ _ (ne_of_mem_of_not_mem hr hq).symm, h.regs q hq] }

theorem setSReg (h : Wrote i s u) {r : SReg} (v : Word) (hr : r ∈ sregTargets i) :
    Wrote i s (setSReg r v u) :=
  { h with
    sregs := fun q hq => by
      rw [setSReg_sregs, SRegs.get_set, if_neg (ne_of_mem_of_not_mem hr hq).symm, h.sregs q hq] }

/-- A flags word that differs from the old one at targets only may be written. -/
theorem setFlags (h : Wrote i s u) {w : Word}
    (hw : ∀ k, (∀ f ∈ flagTargets i, k ≠ f.bit) → w.getLsbD k = s.flags.getLsbD k) :
    Wrote i s (setFlags w u) :=
  { h with flags := hw }

theorem grow (h : Wrote i s u) (v : View) : Wrote i s { u with bus := u.bus.grow v } :=
  { h with
    grows := h.grows.trans (Bus.scrLen_le_grow _ _)
    legal := fun hs => Bus.wf_grow v (h.legal hs) }

theorem store (h : Wrote i s u) (a : Nat) (bytes : List Byte) :
    Wrote i s { u with bus := busWrite u.cfg u.bus a bytes } :=
  { h with
    grows := h.grows.trans (by simp [busWrite, Bus.scrLen_le_grow])
    legal := fun hs => (busWrite_spec (h.legal hs) a bytes).1 }

theorem portWrite (h : Wrote i s u) (port : Word) : Wrote i s (portWrite port u) :=
  { h with
    quiet := by
      obtain ⟨new, hnew, hq⟩ := h.quiet
      refine ⟨new ++ [.ioWrite port (u.regs.getByte .al)], ?_, fun bytes => ?_⟩
      · show u.out ++ _ = _
        rw [hnew, List.append_assoc]
      · simpa using hq bytes }

theorem stosLoop (n : Nat) : ∀ {u : State}, Wrote .stosw s u → Wrote .stosw s (stosLoop n u).1 := by
  induction n with
  | zero => exact fun h => h
  | succ n ih =>
    intro u h
    by_cases hcx : u.regs.cx = 0#16
    · rwa [stosLoop_cx_zero _ hcx]
    · rw [stosLoop_succ n hcx]
      split
      · exact ih (((h.store _ _).setReg _ (by decide)).setReg _ (by decide))
      · exact h

end Wrote

/-! ### How an instruction of the interpreter ends -/

/-- How a call of the interpreter ends and what prefix state it leaves: the default after an instruction, one prefix
after a prefix byte, the old state after an error (10_state.md R46; 30_encoding.md R104; 60_exceptions.md R285). -/
inductive PrefixOutcome (s t : State) : Prop
  | done (hres : t.res = some .done) (hseg : t.dseg = .ds) (hrep : t.drep = .none)
  | esPrefix (hres : t.res = some .prefixDone) (hseg : t.dseg = .es) (hrep : t.drep = .none)
  | repPrefix (hres : t.res = some .prefixDone) (hseg : t.dseg = .ds) (hrep : t.drep = .repZ)
  | error (e : StepError) (hres : t.res = some (.error e)) (hseg : t.dseg = s.dseg) (hrep : t.drep = s.drep)

/-- The answer `r` of instruction `i` in state `s` is a next state that `i` may have made. -/
def Effect (i : Instr) (s : State) (r : Result) : Prop :=
  ∃ t, r = .next t ∧ Wrote i s t ∧ PrefixOutcome s t

theorem Wrote.finishAt {i : Instr} {s u : State} (h : Wrote i s u) (target : Word) :
    Effect i s (.next (finishAt target u)) :=
  ⟨_, rfl, { h with }, .done rfl rfl rfl⟩

theorem Wrote.finish {i : Instr} {s u : State} (h : Wrote i s u) (n : Nat) : Effect i s (.next (finish n u)) :=
  h.finishAt _

theorem Wrote.raise {i : Instr} {s u : State} (h : Wrote i s u) (e : StepError) (hseg : u.dseg = s.dseg)
    (hrep : u.drep = s.drep) : Effect i s (raise e u) :=
  ⟨_, rfl, { h with }, .error e rfl hseg hrep⟩

/-- An error found before anything was written. -/
theorem Effect.of_raise {i : Instr} {s : State} {e : StepError} {r : Result} (h : r = raise e s) : Effect i s r :=
  h ▸ (Wrote.refl i s).raise e rfl rfl

theorem stosw_effect (s : State) : Effect .stosw s (execStosw s) := by
  by_cases h : s.drep = .none
  · rw [execStosw_of_single h]
    split
    · exact (((Wrote.refl _ s).store _ _).setReg _ (by decide)).finish 1
    · exact .of_raise rfl
  · rw [execStosw_of_repeated h]
    have hw : Wrote .stosw s (stosLoop s.regs.cx.toNat s).1 := (Wrote.refl _ s).stosLoop _
    split
    · exact hw.finish 1
    · obtain ⟨regs, bus, heq, -, -⟩ := stosLoop_frame s.regs.cx.toNat s
      exact hw.raise _ (by rw [heq]) (by rw [heq])

/-- Writing a flag leaves the other bits of FLAGS alone. -/
theorem getLsbD_withFlag_of_ne {f : Flag} {k : Nat} (h : k ≠ f.bit) (b : Bool) (w : Word) :
    (withFlag f b w).getLsbD k = w.getLsbD k := by
  rw [getLsbD_withFlag, if_neg h]

theorem getLsbD_zeroParityOf_of_ne {k : Nat} (hz : k ≠ Flag.zero.bit) (hp : k ≠ Flag.parity.bit) (r w : Word) :
    (zeroParityOf r w).getLsbD k = w.getLsbD k := by
  unfold zeroParityOf
  rw [getLsbD_withFlag_of_ne hp, getLsbD_withFlag_of_ne hz]

theorem getLsbD_auxCarryOfInc_of_ne {k : Nat} (h : k ≠ Flag.auxCarry.bit) (clears : Bool) (old w : Word) :
    (auxCarryOfInc clears old w).getLsbD k = w.getLsbD k := by
  unfold auxCarryOfInc
  split
  · exact getLsbD_withFlag_of_ne h _ _
  · split
    · exact getLsbD_withFlag_of_ne h _ _
    · rfl

/-- Over all instructions of the interpreter: each answers a next state, has written its targets only, left the engine
and the control state alone, transmitted nothing, and ended in one of the three ways of R104. -/
theorem exec_effect (i : Instr) (hi : i.isRsp = false) (s : State) : Effect i s (exec i s) := by
  have h0 := Wrote.refl i s
  cases i with
  | esOverride =>
    obtain ⟨_, h⟩ | ⟨_, hrep, h⟩ := takePrefix_cases 0x26#8 (fun s => { s with dseg := .es }) s
    · exact .of_raise h
    · exact ⟨_, h, { h0 with }, .esPrefix rfl rfl hrep⟩
  | repz =>
    obtain ⟨_, h⟩ | ⟨hseg, _, h⟩ := takePrefix_cases 0xF3#8 (fun s => { s with drep := .repZ }) s
    · exact .of_raise h
    · exact ⟨_, h, { h0 with }, .repPrefix rfl hseg rfl⟩
  | xorAxAx =>
    exact ((h0.setReg _ (by decide)).setFlags fun k hk =>
      getLsbD_zeroParityOf_of_ne (hk _ (by decide)) (hk _ (by decide)) _ _).finish 2
  | xorDiDi =>
    exact ((h0.setReg _ (by decide)).setFlags fun k hk =>
      getLsbD_zeroParityOf_of_ne (hk _ (by decide)) (hk _ (by decide)) _ _).finish 2
  | cmpRegDi r =>
    show Effect _ s (execCmpRegDi r s)
    rw [execCmpRegDi_eq]
    split
    · exact ((h0.grow _).setFlags fun k hk =>
        getLsbD_withFlag_of_ne (hk .zero List.mem_cons_self) _ _).finish 2
    · exact .of_raise rfl
  | incAx =>
    exact ((h0.setReg _ (by decide)).setFlags fun k hk =>
      (getLsbD_withFlag_of_ne (hk .parity (by decide)) _ _).trans
        (getLsbD_auxCarryOfInc_of_ne (hk .auxCarry (by decide)) _ _ _)).finish 1
  | incAl => exact (h0.setReg8 _ (by decide)).finish 2
  | movDiDx =>
    show Effect _ s (execMovDiDx s)
    rw [execMovDiDx_eq]
    split
    · exact (h0.store _ _).finish 2
    · exact .of_raise rfl
  | movSiMem d =>
    show Effect _ s (execMovSiMem d s)
    rw [execMovSiMem_eq]
    split
    · exact ((h0.grow _).setReg _ List.mem_cons_self).finish 4
    · exact .of_raise rfl
  | movRegReg dst src => exact (h0.setReg _ List.mem_cons_self).finish 2
  | movEsAx => exact (h0.setSReg _ (by decide)).finish 2
  | movEsBx => exact (h0.setSReg _ (by decide)).finish 2
  | movDsAx => exact (h0.setSReg _ (by decide)).finish 2
  | movDsBx => exact (h0.setSReg _ (by decide)).finish 2
  | movReg8Imm dst imm => exact (h0.setReg8 _ List.mem_cons_self).finish 2
  | movReg16Imm dst imm => exact (h0.setReg _ List.mem_cons_self).finish 3
  | jnz rel => exact h0.finishAt _
  | jmpFar off seg => exact (h0.setSReg _ List.mem_cons_self).finishAt off
  | stosw => exact stosw_effect s
  | nop => exact h0.finish 1
  | outImmAl port => exact (h0.portWrite _).finish 2
  | outDxAl => exact (h0.portWrite _).finish 1
  | cli =>
    exact (h0.setFlags fun k hk => getLsbD_withFlag_of_ne (hk .interrupt (by decide)) _ _).finish 1
  | cld =>
    exact (h0.setFlags fun k hk => getLsbD_withFlag_of_ne (hk .direction (by decide)) _ _).finish 1
  | rspQuestion | rspGetRegs | rspReadMem | rspUnknown => cases hi

theorem exec_wrote {i : Instr} (hi : i.isRsp = false) {s t : State} (h : exec i s = .next t) : Wrote i s t := by
  obtain ⟨u, hu, hw, -⟩ := exec_effect i hi s
  cases h.symm.trans hu
  exact hw

theorem exec_prefixOutcome {i : Instr} (hi : i.isRsp = false) {s t : State} (h : exec i s = .next t) :
    PrefixOutcome s t := by
  obtain ⟨u, hu, -, hp⟩ := exec_effect i hi s
  cases h.symm.trans hu
  exact hp

end Sys2Proof.Machine

/-! ### What the RSP engine does -/

namespace Sys2Proof.Machine

/-- What the RSP engine may have done on the way from `s` to `t`: its own state within R221 and R225, the length of the
scratch buffer and further outputs; nothing of the CPU, of any byte of memory or of the control state. -/
structure EngineOnly (s t : State) : Prop where
  cpu : SameCpu s t
  control : SameControl s t
  bytes : t.bus = { s.bus with scrLen := t.bus.scrLen }
  grows : s.bus.scrLen ≤ t.bus.scrLen
  session : s.sessionOk = true → t.sessionOk = true
  out : s.out <+: t.out

/-- With the receive machine in IDLE, session and measured writes agree as before (46_rsp_framer.md R221). -/
theorem sessionOk_idle {s : State} (h : s.sessionOk = true) : ({ s with rx := .idle } : State).sessionOk = true := by
  simp only [State.sessionOk, Bool.and_eq_true, Bool.or_eq_true] at h ⊢
  exact ⟨h.1.imp_right fun hl => ⟨rfl, hl.2⟩, rfl⟩

/-- In Accepted every receive state but `DELIM(m)` is legal (46_rsp_framer.md R221, R225). -/
theorem sessionOk_of_accepted {s : State} (hs : s.sess = .accepted) (hr : s.rx ≠ .delim .readMem) :
    s.sessionOk = true := by
  simp [State.sessionOk, hs, hr]

theorem rx_of_sessionOk {s : State} (h : s.sessionOk = true) : s.rx ≠ .delim .readMem := by
  simp only [State.sessionOk, Bool.and_eq_true, bne_iff_ne] at h
  exact h.2

namespace EngineOnly

variable {s t u : State}

theorem refl (s : State) : EngineOnly s s where
  cpu := ⟨rfl, rfl, rfl, rfl, rfl, rfl, rfl⟩
  control := ⟨rfl, rfl, rfl, rfl, rfl, rfl⟩
  bytes := rfl
  grows := Nat.le_refl _
  session h := h
  out := List.prefix_rfl

theorem emit (h : EngineOnly s u) (o : Output) : EngineOnly s (emit o u) :=
  { h with out := h.out.trans (List.prefix_append _ _) }

theorem hangup (h : EngineOnly s u) : EngineOnly s (hangup u) :=
  { h with session := fun _ => rfl }

theorem tx (h : EngineOnly s u) (b : List Byte) : EngineOnly s (tx b u) := by
  have hsession := fun hs => sessionOk_tx b (h.session hs)
  obtain heq | ⟨k, heq⟩ | ⟨k, heq⟩ := tx_cases b u <;> rw [heq] at hsession ⊢
  · exact h
  · exact { h with session := hsession, out := h.out.trans (List.prefix_append _ _) }
  · exact (h.emit _).hangup

theorem idle (h : EngineOnly s u) : EngineOnly s { u with rx := .idle } :=
  { h with session := fun hs => sessionOk_idle (h.session hs) }

theorem acked (s : State) : EngineOnly s (acked s) := ((refl s).tx ackBytes).idle

theorem emptyReply (h : EngineOnly s u) : EngineOnly s (emptyReply u) := h.tx _

theorem readMemory (h : EngineOnly s u) (addr len : DWord) : EngineOnly s (readMemory addr len u).2 :=
  { h with
    bytes := (Bus.grow_eq _ _).trans
      (congrArg (fun b : Bus => { b with scrLen := (Machine.readMemory addr len u).2.bus.scrLen }) h.bytes)
    grows := h.grows.trans (Bus.scrLen_le_grow _ _) }

/-- In Accepted the parser's registers may take any value, and the receive machine any state but `DELIM(m)`. -/
theorem parser (hs : s.sess = .accepted) {r : RxState} (hr : r ≠ .delim .readMem ∨ r = s.rx) (c : Byte)
    (addr len : DWord) (t0 : Byte) :
    EngineOnly s { s with rx := r, csum := c, accAddr := addr, accLen := len, t0 := t0 } :=
  { refl s with
    session := fun h => sessionOk_of_accepted hs (hr.elim id fun he => he ▸ rx_of_sessionOk h) }

theorem rejectByte (s : State) : EngineOnly s (rejectByte s) := (refl s).idle.emptyReply

/-- The service of a slot's verb (46_rsp_framer.md R228 to R230). -/
theorem serveSlot {slot : Slot} {handler : State → Result}
    (hh : ∀ u t, handler u = .next t → EngineOnly s u → EngineOnly s t) (h : serveSlot slot handler s = .next t) :
    EngineOnly s t := by
  obtain ⟨-, hr⟩ | ⟨-, ⟨-, hr⟩ | ⟨-, hr⟩⟩ := serveSlot_cases slot handler s <;> rw [hr] at h
  · cases h
    exact (refl s).tx _
  · exact hh _ _ h (acked s)
  · cases h
    exact ((acked s).emit _).emptyReply

end EngineOnly

/-- No verb touches the CPU, a byte of memory or the control state (46_rsp_framer.md R227 to R231). -/
theorem exec_engineOnly {i : Instr} (hi : i.isRsp = true) {s t : State} (h : exec i s = .next t) : EngineOnly s t := by
  cases i with
  | rspQuestion =>
    refine EngineOnly.serveSlot (fun u t hu he => ?_) h
    cases hu
    exact he.tx _
  | rspGetRegs =>
    refine EngineOnly.serveSlot (fun u t hu he => ?_) h
    cases hg : getRegs u <;> simp only [hg] at hu <;> cases hu
    exact he.tx _
  | rspReadMem =>
    refine EngineOnly.serveSlot (fun u t hu he => ?_) h
    cases hu
    exact (he.readMemory _ _).tx _
  | rspUnknown v =>
    obtain ⟨-, hr⟩ | ⟨-, hr⟩ := serve_cases (fun s => .next (emptyReply s)) s <;> cases hr.symm.trans h
    · exact (EngineOnly.refl s).tx _
    · exact (EngineOnly.acked s).emptyReply
  | _ => cases hi

/-- The first payload byte selects a verb's DELIM, the addresses of `m`, or the skipping of an unknown packet
(46_rsp_framer.md R226). -/
theorem rxVerb_engineOnly (v : Byte) {s : State} (hs : s.sess = .accepted) : EngineOnly s (rxVerb v s) := by
  unfold rxVerb
  split <;> exact .parser hs (.inl (by decide)) _ _ _ _

theorem rxMAddr_engineOnly (b : Byte) {s : State} (hs : s.sess = .accepted) : EngineOnly s (rxMAddr b s) := by
  unfold rxMAddr
  split
  · exact .parser hs (.inr rfl) _ _ _ _
  · split
    · exact .parser hs (.inl (by decide)) _ _ _ _
    · exact .rejectByte s

theorem rxMLen_engineOnly (b : Byte) {s : State} (hs : s.sess = .accepted) : EngineOnly s (rxMLen b s) := by
  unfold rxMLen
  split
  · exact .parser hs (.inr rfl) _ _ _ _
  · split
    · exact .parser hs (.inl (by decide)) _ _ _ _
    · exact .rejectByte s

/-- A received byte, in each receive state (46_rsp_framer.md R226 to R231). -/
theorem rxByte_engineOnly {b : Byte} {s t : State} (hs : s.sess = .accepted) (h : rxByte b s = .next t) :
    EngineOnly s t := by
  unfold rxByte at h
  cases hrx : s.rx with
  | idle =>
    rw [hrx] at h
    cases h
    unfold rxIdle
    split
    · exact .refl s
    · split
      · exact .parser hs (.inl (by decide)) _ _ _ _
      · exact .rejectByte s
  | verb => rw [hrx] at h; cases h; exact rxVerb_engineOnly b hs
  | delim v =>
    rw [hrx] at h
    cases h
    unfold rxDelim
    split
    · exact .parser hs (.inl (by nofun)) _ _ _ _
    · exact .rejectByte s
  | mAddr => rw [hrx] at h; cases h; exact rxMAddr_engineOnly b hs
  | mLen => rw [hrx] at h; cases h; exact rxMLen_engineOnly b hs
  | trailer0 v => rw [hrx] at h; cases h; exact .parser hs (.inl (by nofun)) _ _ _ _
  | trailer1 v =>
    rw [hrx] at h
    have hv : exec v.instr s = .next t := by simpa [rxTrailer1] using h
    exact exec_engineOnly (by cases v <;> rfl) hv
  | skip =>
    rw [hrx] at h
    cases h
    split
    · exact .parser hs (.inl (by decide)) _ _ _ _
    · exact .refl s
  | skipTrailer0 => rw [hrx] at h; cases h; exact .parser hs (.inl (by decide)) _ _ _ _
  | skipTrailer1 => rw [hrx] at h; exact exec_engineOnly rfl h

/-- Whatever arrives on the wire, the engine works on its own state only (46_rsp_framer.md R220 to R222, R231, R233). -/
theorem receive_engineOnly {e : WireEvent} {s t : State} (h : receive e s = .next t) : EngineOnly s t := by
  cases e with
  | connect =>
    cases h
    unfold connect
    split
    · exact { EngineOnly.refl s with session := fun _ => rfl }
    · exact .refl s
  | hangup => cases h; exact (EngineOnly.refl s).hangup
  | rx b =>
    cases hs : s.sess <;> simp only [receive, hs] at h
    · cases h
      exact .refl s
    · exact rxByte_engineOnly hs h
  | shortWriteAfter k =>
    cases hs : s.sess <;> simp only [receive, hs] at h <;> cases h
    · exact .refl s
    · exact { EngineOnly.refl s with session := fun h => sessionOk_of_accepted rfl (rx_of_sessionOk (s := s) h) }

/-! ### What every step keeps -/

/-- What every step keeps on the way from `s` to `t`, a host call of `kill` or `intr` apart: the parameters, the sticky
flags, the outputs, a lower bound of the scratch length, and each part of the invariant of a legal state. -/
structure Keeps (s t : State) : Prop where
  kill : t.kill = s.kill
  intr : t.intr = s.intr
  cfg : t.cfg = s.cfg
  grows : s.bus.scrLen ≤ t.bus.scrLen
  out : s.out <+: t.out
  legal : s.bus.wf s.cfg = true → t.bus.wf t.cfg = true
  prefixOk : s.prefixOk = true → t.prefixOk = true
  session : s.sessionOk = true → t.sessionOk = true

namespace Keeps

variable {s t u : State}

theorem refl (s : State) : Keeps s s where
  kill := rfl
  intr := rfl
  cfg := rfl
  grows := Nat.le_refl _
  out := List.prefix_rfl
  legal h := h
  prefixOk h := h
  session h := h

theorem trans (h : Keeps s t) (h' : Keeps t u) : Keeps s u where
  kill := h'.kill.trans h.kill
  intr := h'.intr.trans h.intr
  cfg := h'.cfg.trans h.cfg
  grows := h.grows.trans h'.grows
  out := h.out.trans h'.out
  legal := h'.legal ∘ h.legal
  prefixOk := h'.prefixOk ∘ h.prefixOk
  session := h'.session ∘ h.session

theorem emit (o : Output) (s : State) : Keeps s (emit o s) :=
  { refl s with out := List.prefix_append _ _ }

theorem endRun (s : State) : Keeps s (endRun s) :=
  { refl s with out := List.prefix_append _ _ }

theorem afterStep (s : State) : Keeps s (afterStep s) := by
  unfold Machine.afterStep
  split
  · exact endRun s
  · split
    · exact endRun s
    · exact refl s
  · exact refl s
  · exact refl s

theorem fetch (s : State) : Keeps s (fetch s).2 :=
  { refl s with
    grows := Bus.scrLen_le_grow _ _
    legal := Bus.wf_grow _ }

theorem readMemory (addr len : DWord) (s : State) : Keeps s (readMemory addr len s).2 :=
  { refl s with
    grows := Bus.scrLen_le_grow _ _
    legal := Bus.wf_grow _ }

end Keeps

/-- An instruction ends with at most one prefix outstanding and none of kind `RepNZ` (10_state.md R46, R47). -/
theorem PrefixOutcome.prefixOk {s t : State} (h : PrefixOutcome s t) (hs : s.prefixOk = true) : t.prefixOk = true := by
  unfold State.prefixOk at hs ⊢
  cases h with
  | done _ hseg hrep => rw [hseg, hrep]; rfl
  | esPrefix _ hseg hrep => rw [hseg, hrep]; rfl
  | repPrefix _ hseg hrep => rw [hseg, hrep]; rfl
  | error _ _ hseg hrep => rwa [hseg, hrep]

theorem Wrote.keeps {i : Instr} {s t : State} (h : Wrote i s t) (hp : PrefixOutcome s t) : Keeps s t := by
  obtain ⟨hkill, hintr, hcfg, -, -, -⟩ := h.control
  obtain ⟨hsess, hrx, -, -, -, -, hroom⟩ := h.engine
  obtain ⟨new, hnew, -⟩ := h.quiet
  exact {
    kill := hkill
    intr := hintr
    cfg := hcfg
    grows := h.grows
    out := ⟨new, hnew.symm⟩
    legal := h.legal
    prefixOk := hp.prefixOk
    session := by unfold State.sessionOk; rw [hsess, hrx, hroom]; exact id }

theorem EngineOnly.keeps {s t : State} (h : EngineOnly s t) : Keeps s t := by
  obtain ⟨hkill, hintr, hcfg, -, -, -⟩ := h.control
  obtain ⟨-, -, -, -, hseg, hrep, -⟩ := h.cpu
  exact {
    kill := hkill
    intr := hintr
    cfg := hcfg
    grows := h.grows
    out := h.out
    legal := fun hs => by
      rw [hcfg]
      have hb : t.bus = s.bus.grow ⟨.scratch, 0, t.bus.scrLen⟩ := by
        rw [h.bytes]
        simp [Bus.grow, h.grows]
      rw [hb]
      exact Bus.wf_grow _ hs
    prefixOk := by unfold State.prefixOk; rw [hseg, hrep]; exact id
    session := h.session }

theorem exec_keeps {i : Instr} {s t : State} (h : exec i s = .next t) : Keeps s t := by
  cases hi : i.isRsp
  · exact (exec_wrote hi h).keeps (exec_prefixOutcome hi h)
  · exact (exec_engineOnly hi h).keeps

theorem interp_keeps {s t : State} (h : interp s = .next t) : Keeps s t := by
  refine (Keeps.fetch s).trans ?_
  cases hd : decode s.cfg (fetch s).1 with
  | ok i => exact exec_keeps (interp_of_ok hd ▸ h)
  | error e =>
    cases (interp_of_error hd).symm.trans h
    exact { Keeps.refl _ with }

theorem runLoopIteration_keeps {s t : State} (h : runLoopIteration s = .next t) : Keeps s t := by
  unfold runLoopIteration at h
  split at h
  · cases h
    exact .endRun s
  · obtain ⟨u, -, hu, -⟩ := interp_answers s
    rw [hu] at h
    cases h
    exact (interp_keeps hu).trans (.afterStep u)

theorem advance_keeps {s t : State} (h : advance s = .next t) : Keeps s t := by
  unfold advance at h
  split at h
  · exact runLoopIteration_keeps h
  · exact runLoopIteration_keeps h
  · rename_i e rest _ _
    have hr : Keeps s { s with wire := rest } := { Keeps.refl s with }
    exact hr.trans (receive_engineOnly h).keeps
  · cases h
    exact .refl s

/-- A call of the host goes through its slot where that is present, and else leaves a log line
(47_debug_bridge.md R260). -/
theorem throughSlot_cases {slot : Slot} {call : State → Result} {s t : State} (h : throughSlot slot call s = .next t) :
    (hasSlot s.cfg.slots slot = true ∧ call s = .next t) ∨ t = emit (.unsupported slot) s := by
  unfold throughSlot at h
  cases hs : hasSlot s.cfg.slots slot
  · rw [withSlot_of_absent _ _ hs] at h
    cases h
    exact .inr rfl
  · rw [withSlot_of_present _ _ hs] at h
    exact .inl ⟨rfl, h⟩

/-- A call that must not overlap a run loop is answered only where none is in progress (47_debug_bridge.md R268). -/
theorem exclusive_next {call : State → Result} {s t : State} (h : exclusive call s = .next t) :
    s.run = .idle ∧ call s = .next t := by
  unfold exclusive at h
  split at h
  · exact ⟨‹_›, h⟩
  all_goals cases h

/-- A call keeps what every step keeps if it does so where its slot is present. -/
theorem throughSlot_keeps {slot : Slot} {call : State → Result} {s t : State}
    (hc : ∀ t, call s = .next t → Keeps s t) (h : throughSlot slot call s = .next t) : Keeps s t := by
  obtain ⟨-, h⟩ | rfl := throughSlot_cases h
  · exact hc t h
  · exact .emit _ s

/-- What a host call can do: set the sticky flag it is named after, or keep what every step keeps. -/
theorem hostCall_cases {c : HostCall} {s t : State} (h : hostCall c s = .next t) :
    Keeps s t ∨ (c = .kill ∧ s.cfg.slots.kill = true ∧ t = { s with kill := true }) ∨
      (c = .intr ∧ s.cfg.slots.intr = true ∧ t = { s with intr := true }) := by
  cases c with
  | quiet => exact .inl (advance_keeps h)
  | kill =>
    obtain ⟨hs, h⟩ | rfl := throughSlot_cases h
    · cases h
      exact .inr (.inl ⟨rfl, hs, rfl⟩)
    · exact .inl (.emit _ s)
  | intr =>
    obtain ⟨hs, h⟩ | rfl := throughSlot_cases h
    · cases h
      exact .inr (.inr ⟨rfl, hs, rfl⟩)
    · exact .inl (.emit _ s)
  | stepi | cont =>
    refine .inl (throughSlot_keeps (fun t h => ?_) h)
    cases (exclusive_next h).2
    exact { Keeps.refl s with }
  | question =>
    refine .inl (throughSlot_keeps (fun t h => ?_) h)
    cases h
    exact .emit _ s
  | getRegs =>
    refine .inl (throughSlot_keeps (fun t h => ?_) h)
    have hg := (exclusive_next h).2
    cases hp : getRegs s <;> simp only [hp] at hg <;> cases hg
    exact .emit _ s
  | readMem addr len =>
    refine .inl (throughSlot_keeps (fun t h => ?_) h)
    cases (exclusive_next h).2
    exact (Keeps.readMemory addr len s).trans (.emit _ _)

/-- What a step can do, whoever moves: set a sticky flag by the host call of that name, or keep what every step
keeps. -/
theorem step_cases {s t : State} (h : step s = .next t) :
    Keeps s t ∨
      (∃ rest, s.calls = .kill :: rest ∧ s.cfg.slots.kill = true ∧ t = { s with calls := rest, kill := true }) ∨
      (∃ rest, s.calls = .intr :: rest ∧ s.cfg.slots.intr = true ∧ t = { s with calls := rest, intr := true }) := by
  unfold step blockStep at h
  split at h
  · rename_i c rest hc
    have hrest : Keeps s { s with calls := rest } := { Keeps.refl s with }
    obtain hk | ⟨rfl, hs, rfl⟩ | ⟨rfl, hs, rfl⟩ := hostCall_cases h
    · exact .inl (hrest.trans hk)
    · exact .inr (.inl ⟨rest, hc, hs, rfl⟩)
    · exact .inr (.inr ⟨rest, hc, hs, rfl⟩)
  · exact .inl (advance_keeps h)

/-- A step along `Keeps` leads from a legal state to a legal state. -/
theorem Keeps.inv {s t : State} (h : Keeps s t) (hs : s.Inv) : t.Inv := by
  obtain ⟨hcfg, hbus, hprefix, hsession⟩ := hs
  exact ⟨h.cfg ▸ hcfg, h.legal hbus, h.prefixOk hprefix, h.session hsession⟩

/-- Settles O60: `kill` and `intr` are no part of the invariant, and every other step keeps each part of it. -/
theorem everyStepKeepsLegality : Obligations.EveryStepKeepsLegality := by
  unfold Obligations.EveryStepKeepsLegality
  intro s t hs h
  obtain hk | ⟨rest, -, -, rfl⟩ | ⟨rest, -, -, rfl⟩ := step_cases h
  · exact hk.inv hs
  · exact hs
  · exact hs

/-- Settles O56: the two calls that set a flag set one and change nothing else that is named here. -/
theorem stickyFlagsParametersAndOutputs : Obligations.StickyFlagsParametersAndOutputs := by
  unfold Obligations.StickyFlagsParametersAndOutputs
  intro s t h
  obtain hk | ⟨rest, hc, hs, rfl⟩ | ⟨rest, hc, hs, rfl⟩ := step_cases h
  · have hkill : s.kill = false → t.kill ≠ true := fun h => by rw [hk.kill, h]; decide
    have hintr : s.intr = false → t.intr ≠ true := fun h => by rw [hk.intr, h]; decide
    exact ⟨hk.kill.trans, hk.intr.trans, fun h h' => absurd h' (hkill h), fun h h' => absurd h' (hintr h),
      hk.cfg, hk.grows, hk.out⟩
  · exact ⟨fun _ => rfl, id, fun _ _ => ⟨hs, rest, hc⟩, fun h h' => absurd (h.symm.trans h') (by decide), rfl,
      Nat.le_refl _, List.prefix_rfl⟩
  · exact ⟨id, fun _ => rfl, fun h h' => absurd (h.symm.trans h') (by decide), fun _ _ => ⟨hs, rest, hc⟩, rfl,
      Nat.le_refl _, List.prefix_rfl⟩

end Sys2Proof.Machine

/-! ### Rules about every instruction -/

namespace Sys2Proof.Machine

/-- The five flags that have a writer (10_state.md R34). -/
theorem flagTargets_subset (i : Instr) :
    flagTargets i ⊆ [.zero, .parity, .auxCarry, .interrupt, .direction] := by
  cases i <;> simp [flagTargets]

/-- No flag with a writer stands at any of these bits: CF, SF, TF, OF and the unnamed ones. -/
theorem ne_bit_of_flagTargets {i : Instr} {k : Nat} (hk : k ∈ [0, 1, 3, 5, 7, 8, 11, 12, 13, 14, 15]) {f : Flag}
    (hf : f ∈ flagTargets i) : k ≠ f.bit := by
  have hall : ∀ f ∈ [Flag.zero, .parity, .auxCarry, .interrupt, .direction],
      ∀ k ∈ [0, 1, 3, 5, 7, 8, 11, 12, 13, 14, 15], k ≠ f.bit := by decide
  exact hall f (flagTargets_subset i hf) k hk

theorem eq_cli_of_interrupt_target {i : Instr} (h : .interrupt ∈ flagTargets i) : i = .cli := by
  cases i <;> simp [flagTargets] at h ⊢

theorem eq_cld_of_direction_target {i : Instr} (h : .direction ∈ flagTargets i) : i = .cld := by
  cases i <;> simp [flagTargets] at h ⊢

/-- Every row of the opcode table writes targets only; a verb has none (10_state.md R23, R34, R41). -/
theorem exec_targets {i : Instr} {s t : State} (h : exec i s = .next t) :
    RegsOnly (regTargets i) s t ∧ SRegsOnly (sregTargets i) s t ∧ FlagsOnly (flagTargets i) s t := by
  cases hi : i.isRsp
  · have hw := exec_wrote hi h
    exact ⟨hw.regs, hw.sregs, hw.flags⟩
  · obtain ⟨hregs, hsregs, -, hflags, -, -, -⟩ := (exec_engineOnly hi h).cpu
    exact ⟨fun _ _ => by rw [hregs], fun _ _ => by rw [hsregs], fun _ _ => by rw [hflags]⟩

theorem FlagsOnly.flagOf_eq {fs : List Flag} {s t : State} (h : FlagsOnly fs s t) {f : Flag} (hf : f ∉ fs) :
    flagOf f t.flags = flagOf f s.flags :=
  h f.bit fun _ hg he => hf (Flag.bit_injective.1 he ▸ hg)

/-- A flag that its writers only clear is never set. -/
theorem FlagsOnly.not_set {fs : List Flag} {s t : State} (h : FlagsOnly fs s t) {f : Flag}
    (hclears : f ∈ fs → flagOf f t.flags = false) (ht : flagOf f t.flags = true) : flagOf f s.flags = true := by
  by_cases hf : f ∈ fs
  · rw [hclears hf] at ht
    cases ht
  · rwa [h.flagOf_eq hf] at ht

/-- Settles O31: IF and DF have one writer each, which clears the flag. -/
theorem flagWritersAreComplete : Obligations.FlagWritersAreComplete := by
  unfold Obligations.FlagWritersAreComplete
  intro i s t h
  obtain ⟨-, -, hflags⟩ := exec_targets h
  refine ⟨fun f hf => hflags.flagOf_eq hf, fun k hk => hflags k fun f hf => ne_bit_of_flagTargets hk hf,
    hflags.not_set fun hf => ?_, hflags.not_set fun hf => ?_⟩
  · obtain rfl := eq_cli_of_interrupt_target hf
    cases h
    exact flagOf_withFlag_same _ _ _
  · obtain rfl := eq_cld_of_direction_target hf
    cases h
    exact flagOf_withFlag_same _ _ _

/-- Settles O32, by the targets of each row. -/
theorem registerWritersAreComplete : Obligations.RegisterWritersAreComplete := by
  unfold Obligations.RegisterWritersAreComplete
  intro i s t h
  obtain ⟨hregs, hsregs, -⟩ := exec_targets h
  exact ⟨hregs, hsregs⟩

/-- Settles O33, by the frame of each instruction of the interpreter. -/
theorem instructionsLeaveTheEngineAlone : Obligations.InstructionsLeaveTheEngineAlone := by
  unfold Obligations.InstructionsLeaveTheEngineAlone
  intro i s t hi h
  have hw := exec_wrote hi h
  exact ⟨hw.engine, hw.control, hw.quiet⟩

/-! ### The prefix state after a run loop's call of the interpreter -/

/-- Only the result and the two fields of the prefix state matter. -/
theorem PrefixOutcome.congr {s s' t t' : State} (h : PrefixOutcome s t) (hs : s'.dseg = s.dseg ∧ s'.drep = s.drep)
    (ht : t'.res = t.res ∧ t'.dseg = t.dseg ∧ t'.drep = t.drep) : PrefixOutcome s' t' := by
  obtain ⟨hsegs, hreps⟩ := hs
  obtain ⟨hrest, hsegt, hrept⟩ := ht
  cases h with
  | done hres hseg hrep => exact .done (hrest.trans hres) (hsegt.trans hseg) (hrept.trans hrep)
  | esPrefix hres hseg hrep => exact .esPrefix (hrest.trans hres) (hsegt.trans hseg) (hrept.trans hrep)
  | repPrefix hres hseg hrep => exact .repPrefix (hrest.trans hres) (hsegt.trans hseg) (hrept.trans hrep)
  | error e hres hseg hrep =>
    exact .error e (hrest.trans hres) (by rw [hsegt, hseg, hsegs]) (by rw [hrept, hrep, hreps])

theorem interp_prefixOutcome {s t : State} (h : interp s = .next t) : PrefixOutcome s t := by
  cases hd : decode s.cfg (fetch s).1 with
  | ok i =>
    rw [interp_of_ok hd] at h
    exact (exec_prefixOutcome (decode_isRsp hd) h).congr ⟨rfl, rfl⟩ ⟨rfl, rfl, rfl⟩
  | error e =>
    cases (interp_of_error hd).symm.trans h
    exact .error _ rfl rfl rfl

/-- What a run loop does with the result writes the loop and the outputs only (47_debug_bridge.md R265, R266). -/
theorem afterStep_eq (s : State) : ∃ l o, afterStep s = { s with run := l, out := o } := by
  unfold afterStep
  split
  · exact ⟨_, _, rfl⟩
  · split
    · exact ⟨_, _, rfl⟩
    · exact ⟨s.run, s.out, rfl⟩
  · exact ⟨s.run, s.out, rfl⟩
  · exact ⟨s.run, s.out, rfl⟩

/-- A step of a running loop is a call of the interpreter and what the loop makes of its result. -/
theorem running_step {s t : State} (hr : s.running) (h : step s = .next t) :
    ∃ u, interp s = .next u ∧ t = afterStep u := by
  obtain ⟨u, -, hu, -⟩ := interp_answers s
  rw [step_of_running hr hu] at h
  cases h
  exact ⟨u, hu, rfl⟩

theorem running_prefixOutcome {s t : State} (hr : s.running) (h : step s = .next t) : PrefixOutcome s t := by
  obtain ⟨u, hu, rfl⟩ := running_step hr h
  obtain ⟨l, o, heq⟩ := afterStep_eq u
  rw [heq]
  exact (interp_prefixOutcome hu).congr ⟨rfl, rfl⟩ ⟨rfl, rfl, rfl⟩

/-- Settles O14, by the ways a call of the interpreter ends. -/
theorem prefixLastsOneOpcode : Obligations.PrefixLastsOneOpcode := by
  unfold Obligations.PrefixLastsOneOpcode
  intro s t hr h
  cases running_prefixOutcome hr h with
  | done hres hseg hrep => simp [hres, hseg, hrep]
  | esPrefix hres hseg hrep => simp [hres, hseg, hrep]
  | repPrefix hres hseg hrep => simp [hres, hseg, hrep]
  | error e hres hseg hrep => simp [hres, hseg, hrep]

/-! ### What no instruction reads -/

/-- The same block under another last result, another run loop and other outputs so far
(10_state.md R55; logs 1, 6, 16). -/
def State.relabel (r : Option StepResult) (l : RunLoop) (o : List Output) (s : State) : State :=
  { s with res := r, run := l, out := o }

/-- The loop of a repeated STOSW runs alike under other labels. -/
theorem stosLoop_relabel (r : Option StepResult) (l : RunLoop) (o : List Output) (n : Nat) : ∀ s : State,
    stosLoop n (s.relabel r l o) = ((stosLoop n s).1.relabel r l o, (stosLoop n s).2) := by
  induction n with
  | zero => exact fun _ => rfl
  | succ n ih =>
    intro s
    by_cases hcx : s.regs.cx = 0#16
    · rw [stosLoop_cx_zero _ hcx, stosLoop_cx_zero _ (s := s.relabel r l o) hcx]
    · rw [stosLoop_succ n hcx, stosLoop_succ n (s := s.relabel r l o) hcx]
      show (if (stosView s 0).len = 2 then stosLoop n ((stosNext s).relabel r l o) else _) = _
      split
      · exact ih _
      · rfl

/-- Two answers that are the same next state but for the labels, which the second brings along from its own start; `new`
is what both add to the outputs. -/
def Alike (l : RunLoop) (o : List Output) (s : State) (x y : Result) : Prop :=
  ∃ t new, x = .next t ∧ t.run = s.run ∧ t.out = s.out ++ new ∧ y = .next (t.relabel t.res l (o ++ new))

theorem Alike.of_silent {l : RunLoop} {o : List Output} {s t : State} {y : Result} (hl : t.run = s.run)
    (ho : t.out = s.out) (hy : y = .next (t.relabel t.res l o)) : Alike l o s (.next t) y :=
  ⟨t, [], rfl, hl, by rw [ho, List.append_nil], by rw [hy, List.append_nil]⟩

theorem Alike.ite {l : RunLoop} {o : List Output} {s : State} {c : Prop} [Decidable c] {x x' y y' : Result}
    (hx : Alike l o s x x') (hy : Alike l o s y y') : Alike l o s (if c then x else y) (if c then x' else y') := by
  split
  · exact hx
  · exact hy

theorem stosw_alike (r : Option StepResult) (l : RunLoop) (o : List Output) (s : State) :
    Alike l o s (execStosw s) (execStosw (s.relabel r l o)) := by
  by_cases h : s.drep = .none
  · rw [execStosw_of_single h, execStosw_of_single (s := s.relabel r l o) h]
    exact .ite (.of_silent rfl rfl rfl) (.of_silent rfl rfl rfl)
  · obtain ⟨regs, bus, heq, -, -⟩ := stosLoop_frame s.regs.cx.toNat s
    have hl : (stosLoop s.regs.cx.toNat s).1.run = s.run := by rw [heq]
    have ho : (stosLoop s.regs.cx.toNat s).1.out = s.out := by rw [heq]
    rw [execStosw_of_repeated h, execStosw_of_repeated (s := s.relabel r l o) h,
      show (s.relabel r l o).regs = s.regs from rfl, stosLoop_relabel]
    cases (stosLoop s.regs.cx.toNat s).2 with
    | none => exact .of_silent hl ho rfl
    | some e => exact .of_silent hl ho rfl

/-- No instruction of the interpreter reads the last result, the run loop or the outputs (10_state.md R55). -/
theorem exec_alike (i : Instr) (hi : i.isRsp = false) (r : Option StepResult) (l : RunLoop) (o : List Output)
    (s : State) : Alike l o s (exec i s) (exec i (s.relabel r l o)) := by
  cases i with
  | esOverride | repz => exact .ite (.of_silent rfl rfl rfl) (.of_silent rfl rfl rfl)
  | cmpRegDi q =>
    show Alike l o s (execCmpRegDi q s) (execCmpRegDi q (s.relabel r l o))
    rw [execCmpRegDi_eq, execCmpRegDi_eq]
    exact .ite (.of_silent rfl rfl rfl) (.of_silent rfl rfl rfl)
  | movDiDx =>
    show Alike l o s (execMovDiDx s) (execMovDiDx (s.relabel r l o))
    rw [execMovDiDx_eq, execMovDiDx_eq]
    exact .ite (.of_silent rfl rfl rfl) (.of_silent rfl rfl rfl)
  | movSiMem d =>
    show Alike l o s (execMovSiMem d s) (execMovSiMem d (s.relabel r l o))
    rw [execMovSiMem_eq, execMovSiMem_eq]
    exact .ite (.of_silent rfl rfl rfl) (.of_silent rfl rfl rfl)
  | stosw => exact stosw_alike r l o s
  | outImmAl port => exact ⟨_, [_], rfl, rfl, rfl, rfl⟩
  | outDxAl => exact ⟨_, [_], rfl, rfl, rfl, rfl⟩
  | rspQuestion | rspGetRegs | rspReadMem | rspUnknown => cases hi
  | _ => exact .of_silent rfl rfl rfl

/-- No call of the interpreter reads the last result, the run loop or the outputs. -/
theorem interp_alike (r : Option StepResult) (l : RunLoop) (o : List Output) (s : State) :
    Alike l o s (interp s) (interp (s.relabel r l o)) := by
  cases hd : decode s.cfg (fetch s).1 with
  | ok i =>
    rw [interp_of_ok hd, interp_of_ok (s := s.relabel r l o) hd]
    exact exec_alike i (decode_isRsp hd) r l o (fetch s).2
  | error e =>
    rw [interp_of_error hd, interp_of_error (s := s.relabel r l o) hd]
    exact .of_silent rfl rfl rfl

/-- The result of the last call of the interpreter has no influence on the next (10_state.md R55). -/
theorem interp_ignores_res (r : Option StepResult) (s : State) : interp { s with res := r } = interp s := by
  obtain ⟨t, new, ht, hrun, hout, hr⟩ := interp_alike r s.run s.out s
  have hsame : t.relabel t.res s.run (s.out ++ new) = t := by rw [← hrun, ← hout]; rfl
  rw [ht, ← hsame]
  exact hr

/-! ### An error repeats -/

/-- The answer is a completed instruction or prefix, or the error raised in the state `s` itself. -/
def Precise (s : State) (x : Result) : Prop :=
  ∀ t e, x = .next t → t.res = some (.error e) → t = { s with res := some (.error e) }

theorem Precise.raise (e : StepError) (s : State) : Precise s (raise e s) := by
  rintro _ _ ⟨⟩ ⟨⟩
  rfl

theorem Precise.finishAt (target : Word) (s u : State) : Precise s (.next (finishAt target u)) := by
  rintro _ _ ⟨⟩ ⟨⟩

theorem Precise.ite {s : State} {c : Prop} [Decidable c] {x y : Result} (hx : Precise s x) (hy : Precise s y) :
    Precise s (if c then x else y) := by
  split
  · exact hx
  · exact hy

/-- An error of any instruction but a repeated STOSW changes nothing but the result (60_exceptions.md R285). -/
theorem exec_precise {i : Instr} (hi : i.isRsp = false) {s : State} (hs : i ≠ .stosw ∨ s.drep = .none) :
    Precise s (exec i s) := by
  cases i with
  | esOverride | repz => exact .ite (.raise _ s) (by rintro _ _ ⟨⟩ ⟨⟩)
  | cmpRegDi q =>
    show Precise s (execCmpRegDi q s)
    rw [execCmpRegDi_eq]
    exact .ite (.finishAt _ s _) (.raise _ s)
  | movDiDx =>
    show Precise s (execMovDiDx s)
    rw [execMovDiDx_eq]
    exact .ite (.finishAt _ s _) (.raise _ s)
  | movSiMem d =>
    show Precise s (execMovSiMem d s)
    rw [execMovSiMem_eq]
    exact .ite (.finishAt _ s _) (.raise _ s)
  | stosw =>
    show Precise s (execStosw s)
    rw [execStosw_of_single (hs.resolve_left (fun h => h rfl))]
    exact .ite (.finishAt _ s _) (.raise _ s)
  | rspQuestion | rspGetRegs | rspReadMem | rspUnknown => cases hi
  | _ => exact .finishAt _ s _

/-- A call of the interpreter that ends in an error, of a repeated STOSW apart, leaves the state after the fetch. -/
theorem interp_precise {s : State} (hs : decode s.cfg (fetch s).1 ≠ .ok .stosw ∨ s.drep = .none) :
    Precise (fetch s).2 (interp s) := by
  cases hd : decode s.cfg (fetch s).1 with
  | ok i =>
    rw [interp_of_ok hd]
    exact exec_precise (decode_isRsp hd) (hs.imp_left fun h hi => h (hi ▸ hd))
  | error e =>
    rw [interp_of_error hd]
    exact .raise _ _

/-- Under other labels such a call ends in the same error, and again leaves everything else alone. -/
theorem interp_fails_again {s u : State} {e : StepError} (hu : interp s = .next u) (he : u.res = some (.error e))
    (hs : decode s.cfg (fetch s).1 ≠ .ok .stosw ∨ s.drep = .none) (r : Option StepResult) (l : RunLoop)
    (o : List Output) :
    interp (s.relabel r l o) = .next ((fetch s).2.relabel (some (.error e)) l o) := by
  obtain ⟨t, new, ht, -, hout, hr⟩ := interp_alike r l o s
  cases hu.symm.trans ht
  obtain rfl := interp_precise hs u e hu he
  have hnew : new = [] := by simpa [fetch_state] using hout
  rw [hr, hnew, List.append_nil]
  rfl

/-- Settles O36: an instruction reads neither the last result nor the outputs, and an error leaves the state after the
fetch, where the next call of the interpreter finds the same view and fails again. -/
theorem haltIsNotLatchedAndRepeats : Obligations.HaltIsNotLatchedAndRepeats := by
  unfold Obligations.HaltIsNotLatchedAndRepeats
  intro s hrun
  have ⟨hcalls, _, hkill, hintr⟩ := hrun
  refine ⟨fun r => ?_, fun t e loop ht he hs hl => ?_⟩
  · obtain ⟨u, -, hu, -⟩ := interp_answers s
    have hrun' : State.running { s with res := r } := hrun
    rw [step_of_running hrun hu, step_of_running hrun' ((interp_ignores_res r s).trans hu)]
  · obtain ⟨u, hu, rfl⟩ := running_step hrun ht
    obtain ⟨l, o, heq⟩ := afterStep_eq u
    rw [heq] at he
    obtain rfl := interp_precise hs u e hu he
    rw [afterStep_of_error rfl]
    have hagain := interp_fails_again hu he hs (some (.error e)) loop (s.out ++ [statusReport s])
    rw [← interp_fetch] at hagain
    have hrun' : State.running ((fetch s).2.relabel (some (.error e)) loop (s.out ++ [statusReport s])) :=
      ⟨hcalls, hl, hkill, hintr⟩
    exact (step_of_running hrun' hagain).trans (congrArg _ (afterStep_of_error rfl))

/-! ### Reset -/

/-- A cell that no other cell of its offset contradicts is what the array built from the cells lists. -/
theorem lookup_foldl_store {fill : Byte} {size a : Nat} {x : Byte} (ha : a < size) (cells : List Host.Cell) :
    ∀ m : Mem, Mem.wf fill m = true → (∀ d ∈ cells, d.1 = a → d.2 = x) →
      (Mem.lookup fill m a = x ∨ ∃ d ∈ cells, d.1 = a) →
      Mem.lookup fill (cells.foldl (fun m c => if c.1 < size then Mem.store fill m c.1 c.2 else m) m) a = x := by
  induction cells with
  | nil =>
    intro m _ _ h
    exact h.resolve_right (by simp)
  | cons c rest ih =>
    intro m hm hall h
    have hrest := fun d hd => hall d (List.mem_cons_of_mem c hd)
    rw [List.foldl_cons]
    split
    · refine ih _ (Mem.wf_store _ _ hm) hrest ?_
      by_cases hca : c.1 = a
      · left
        rw [Mem.lookup_store _ _ _ hm, if_pos hca.symm]
        exact hall c List.mem_cons_self hca
      · rw [Mem.lookup_store _ _ _ hm, if_neg (Ne.symm hca)]
        simpa [hca] using h
    · refine ih m hm hrest ?_
      have hca : c.1 ≠ a := by omega
      simpa [hca] using h

theorem lookup_ofCells {fill : Byte} {size : Nat} {cells : List Host.Cell} {c : Host.Cell} (hc : c ∈ cells)
    (hsize : c.1 < size) (hall : ∀ d ∈ cells, d.1 = c.1 → d = c) :
    Mem.lookup fill (Mem.ofCells fill size cells) c.1 = c.2 :=
  lookup_foldl_store hsize cells [] rfl (fun d hd h => congrArg Prod.snd (hall d hd h)) (.inr ⟨c, hc, rfl⟩)

/-- Settles O58: the fields by definition, RAM and ROM by what an array built from cells lists. -/
theorem resetValues : Obligations.ResetValues := by
  unfold Obligations.ResetValues
  intro cfg ramInit romImage s
  refine ⟨fun r => by cases r <;> rfl, rfl, rfl, rfl, rfl, rfl, rfl, rfl, rfl, rfl, rfl,
    fun c hc hsize hall => lookup_ofCells hc hsize hall, fun c hc hsize hall => lookup_ofCells hc hsize hall,
    rfl, rfl, rfl, rfl, rfl, rfl, rfl, rfl, step_of_nothing rfl rfl rfl⟩

/-- Settles O59, by the canonical form of a bus built from cells. -/
theorem resetIsLegal : Obligations.ResetIsLegal := by
  unfold Obligations.ResetIsLegal
  exact fun cfg ramInit romImage h => ⟨h, Bus.init_wf cfg ramInit romImage, rfl, rfl⟩

end Sys2Proof.Machine

/-! ### The rows of the opcode map with operands -/

namespace Sys2Proof

theorem needByte_cons (b : Byte) (rest : List Byte) (k : Byte → List Byte → Decoded) :
    needByte (b :: rest) k = k b rest := rfl

theorem needWord_cons (lo hi : Byte) (rest : List Byte) (k : Word → List Byte → Decoded) :
    needWord (lo :: hi :: rest) k = k (mkWord lo hi) rest := rfl

/-- A word of which the view holds less than two bytes is a missing byte (20_memory.md R74). -/
theorem needWord_short {rest : List Byte} (h : rest.length < 2) (k : Word → List Byte → Decoded) :
    needWord rest k = .error .short := by
  match rest, h with
  | [], _ => rfl
  | [_], _ => rfl

section Rows

variable {cfg : Config} (hx : cfg.xorOpcode = 0x33#8 ∨ cfg.xorOpcode = 0x31#8) (rest : List Byte)
include hx

theorem decode_xor : decode cfg (cfg.xorOpcode :: rest) = needByte rest fun m _ => decodeXor cfg.xorOpcode m := by
  obtain h | h := hx <;> simp [decode, needByte_cons, h]

theorem decode_3B : decode cfg (0x3B#8 :: rest) = needByte rest fun m _ => decodeCmp 0x3B#8 m := by
  obtain h | h := hx <;> simp [decode, needByte_cons, h]

theorem decode_89 : decode cfg (0x89#8 :: rest) = needByte rest fun m _ => decode89 cfg 0x89#8 m := by
  obtain h | h := hx <;> simp [decode, needByte_cons, h]

theorem decode_8B : decode cfg (0x8B#8 :: rest) = needByte rest fun m rest' => decode8B cfg 0x8B#8 m rest' := by
  obtain h | h := hx <;> simp [decode, needByte_cons, h]

theorem decode_8E : decode cfg (0x8E#8 :: rest) = needByte rest fun m _ => decode8E 0x8E#8 m := by
  obtain h | h := hx <;> simp [decode, needByte_cons, h]

theorem decode_FE : decode cfg (0xFE#8 :: rest) = needByte rest fun m _ => decodeFE 0xFE#8 m := by
  obtain h | h := hx <;> simp [decode, needByte_cons, h]

theorem decode_movReg8 (r : Reg8) :
    decode cfg ((0b10110#5 ++ r.num) :: rest) = needByte rest fun v _ => .ok (.movReg8Imm r v) := by
  obtain h | h := hx <;> cases r <;> simp [decode, needByte_cons, h, Reg8.num] <;> rfl

theorem decode_movReg16 (r : Reg16) :
    decode cfg ((0b10111#5 ++ r.num) :: rest) = needWord rest fun v _ => .ok (.movReg16Imm r v) := by
  obtain h | h := hx <;> cases r <;> simp [decode, needByte_cons, h, Reg16.num] <;> rfl

theorem decode_75 : decode cfg (0x75#8 :: rest) = needByte rest fun r _ => .ok (.jnz r) := by
  obtain h | h := hx <;> simp [decode, needByte_cons, h]

theorem decode_EA : decode cfg (0xEA#8 :: rest) =
    needWord rest fun off rest' => needWord rest' fun seg _ => .ok (.jmpFar off seg) := by
  obtain h | h := hx <;> simp [decode, needByte_cons, h]

theorem decode_E6 : decode cfg (0xE6#8 :: rest) = needByte rest fun p _ => .ok (.outImmAl p) := by
  obtain h | h := hx <;> simp [decode, needByte_cons, h]

end Rows

/-- The first byte of a longer instruction asks for the next one. -/
theorem decode_first_byte_short {cfg : Config} (hx : cfg.xorOpcode = 0x33#8 ∨ cfg.xorOpcode = 0x31#8) {i : Instr}
    (hi : i.isRsp = false) (hlen : 1 < i.length) : decode cfg ((encode cfg i).take 1) = .error .short := by
  cases i with
  | esOverride | repz | incAx | stosw | nop | outDxAl | cli | cld => exact absurd hlen (by decide)
  | rspQuestion | rspGetRegs | rspReadMem | rspUnknown => cases hi
  | xorAxAx | xorDiDi => exact decode_xor hx []
  | cmpRegDi => exact decode_3B hx []
  | incAl => exact decode_FE hx []
  | movDiDx => exact decode_89 hx []
  | movSiMem => exact decode_8B hx []
  | movRegReg =>
    show decode cfg ((encodeMovRR cfg _ _).take 1) = _
    unfold encodeMovRR
    split
    · exact decode_89 hx []
    · exact decode_8B hx []
  | movEsAx | movEsBx | movDsAx | movDsBx => exact decode_8E hx []
  | movReg8Imm r => exact decode_movReg8 hx [] r
  | movReg16Imm r => exact decode_movReg16 hx [] r
  | jnz => exact decode_75 hx []
  | jmpFar => exact decode_EA hx []
  | outImmAl => exact decode_E6 hx []

theorem decode_movSiMem_cut {cfg : Config} (hx : cfg.xorOpcode = 0x33#8 ∨ cfg.xorOpcode = 0x31#8) {rest : List Byte}
    (h : rest.length < 2) : decode cfg (0x8B#8 :: 0x36#8 :: rest) = .error .short := by
  rw [decode_8B hx]
  show needWord rest (fun d _ => .ok (.movSiMem d)) = _
  exact needWord_short h _

theorem decode_movReg16Imm_cut {cfg : Config} (hx : cfg.xorOpcode = 0x33#8 ∨ cfg.xorOpcode = 0x31#8) (r : Reg16)
    {rest : List Byte} (h : rest.length < 2) : decode cfg ((0b10111#5 ++ r.num) :: rest) = .error .short :=
  (decode_movReg16 hx _ r).trans (needWord_short h _)

theorem decode_jmpFar_cut {cfg : Config} (hx : cfg.xorOpcode = 0x33#8 ∨ cfg.xorOpcode = 0x31#8) {rest : List Byte}
    (h : rest.length < 4) : decode cfg (0xEA#8 :: rest) = .error .short := by
  rw [decode_EA hx]
  match rest, h with
  | [], _ => rfl
  | [_], _ => rfl
  | _ :: _ :: rest', h =>
    have hrest : rest'.length < 2 := by simp only [List.length_cons] at h; omega
    rw [needWord_cons, needWord_short hrest]

/-- Settles O6: no byte is no opcode, one byte asks for the second, and the three longer instructions ask for each word
of their operands. -/
theorem cutInstructionIsShort : Obligations.CutInstructionIsShort := by
  unfold Obligations.CutInstructionIsShort
  intro cfg hcfg i k hi hk
  have hx := (Config.opcodes_of_wf hcfg).1
  match k with
  | 0 => rfl
  | 1 => exact decode_first_byte_short hx hi hk
  | k + 2 =>
    cases i with
    | movSiMem => exact decode_movSiMem_cut hx ((List.length_take_le _ _).trans_lt (Nat.lt_of_add_lt_add_right hk))
    | movReg16Imm r => exact decode_movReg16Imm_cut hx r ((List.length_take_le _ _).trans_lt (Nat.lt_of_succ_lt_succ hk))
    | jmpFar => exact decode_jmpFar_cut hx ((List.length_take_le _ _).trans_lt (Nat.lt_of_succ_lt_succ hk))
    | _ => simp [Instr.length] at hk

end Sys2Proof

/-! ### Requests to the memory bus -/

namespace Sys2Proof.Machine

/-- The region of an address, with the range that decides it (20_memory.md R64). -/
theorem regionOf_cases (cfg : Config) (a : Nat) :
    (a < cfg.ramSize ∧ regionOf cfg a = .ram) ∨
      (¬ a < cfg.ramSize ∧ (0xF0000 ≤ a ∧ a ≤ 0xFFFFF) ∧ regionOf cfg a = .rom) ∨
      (¬ a < cfg.ramSize ∧ ¬ (0xF0000 ≤ a ∧ a ≤ 0xFFFFF) ∧ regionOf cfg a = .scratch) := by
  unfold regionOf
  by_cases hram : a < cfg.ramSize
  · exact .inl ⟨hram, if_pos hram⟩
  · by_cases hrom : 0xF0000 ≤ a ∧ a ≤ 0xFFFFF
    · exact .inr (.inl ⟨hram, hrom, by rw [if_neg hram, if_pos hrom]⟩)
    · exact .inr (.inr ⟨hram, hrom, by rw [if_neg hram, if_neg hrom]⟩)

theorem resolve_of_ram {cfg : Config} {a : Nat} (n : Nat) (h : regionOf cfg a = .ram) :
    resolve cfg a n = ⟨.ram, a, min n (cfg.ramSize - a)⟩ := by
  rw [resolve, h]

theorem resolve_of_rom {cfg : Config} {a : Nat} (n : Nat) (h : regionOf cfg a = .rom) :
    resolve cfg a n = ⟨.rom, a - 0xF0000, min n (0x100000 - a)⟩ := by
  rw [resolve, h]

/-- Every unmapped address resolves to the start of the one buffer (20_memory.md R65, R70). -/
theorem resolve_of_scratch {cfg : Config} {a : Nat} (n : Nat) (h : regionOf cfg a = .scratch) :
    resolve cfg a n = ⟨.scratch, 0, n⟩ := by
  rw [resolve, h]

/-- A request is clamped where it runs past the end of RAM or of ROM, and nowhere else (20_memory.md R66). -/
theorem resolve_len_lt_iff (cfg : Config) (a n : Nat) :
    (resolve cfg a n).len < n ↔
      (a < cfg.ramSize ∧ a + n > cfg.ramSize) ∨
        (¬ a < cfg.ramSize ∧ 0xF0000 ≤ a ∧ a ≤ 0xFFFFF ∧ a + n > 0x100000) := by
  obtain ⟨hram, hr⟩ | ⟨hram, hrom, hr⟩ | ⟨hram, hrom, hr⟩ := regionOf_cases cfg a
  · rw [resolve_of_ram n hr]
    dsimp only
    omega
  · rw [resolve_of_rom n hr]
    dsimp only
    omega
  · rw [resolve_of_scratch n hr]
    dsimp only
    omega

/-- A request of no byte grows nothing (20_memory.md R69). -/
theorem Bus.grow_of_len_zero (b : Bus) {v : View} (h : v.len = 0) : b.grow v = b := by
  unfold Bus.grow
  split
  · rw [h, Nat.max_zero]
  · rfl
  · rfl

theorem resolve_len_zero (cfg : Config) (a : Nat) : (resolve cfg a 0).len = 0 :=
  Nat.le_zero.1 (resolve_len_le cfg a 0)

/-- Settles O38, by the clamp of each region; a request of no byte resolves to an empty view. -/
theorem requestsAreClampedAtRegionEnds : Obligations.RequestsAreClampedAtRegionEnds := by
  unfold Obligations.RequestsAreClampedAtRegionEnds
  intro cfg b a n
  have hgrow : b.grow (resolve cfg a 0) = b := b.grow_of_len_zero (resolve_len_zero cfg a)
  refine ⟨resolve_len_pos cfg a, resolve_len_lt_iff cfg a n, ?_, hgrow, ?_⟩
  · rw [(busRead_spec cfg b a 0).1, resolve_len_zero]
    rfl
  · rw [busWrite, List.take_nil]
    exact hgrow

/-! ### Reading back what was written -/

/-- A run of bytes read is the run of bytes it agrees with. -/
theorem Bus.readFrom_eq {b : Bus} {r : Region} {off len : Nat} {xs : List Byte} (hlen : len ≤ xs.length)
    (h : ∀ i < len, b.get r (off + i) = xs.getD i 0#8) : b.readFrom r off len = xs.take len := by
  refine List.ext_getElem (by simpa using hlen) fun i hi hi' => ?_
  rw [length_readFrom] at hi
  rw [List.getElem_take, ← List.getD_eq_getElem xs 0#8, ← h i hi]
  simp [readFrom]

/-- A run of bytes is read in two parts. -/
theorem Bus.readFrom_add (b : Bus) (r : Region) (off m n : Nat) :
    b.readFrom r off (m + n) = b.readFrom r off m ++ (List.range n).map fun i => b.get r (off + m + i) := by
  simp [readFrom, List.range_add, Nat.add_assoc]

/-- What a store left in the view of its request is the bytes that fit (20_memory.md R68). -/
theorem readFrom_busWrite {cfg : Config} {b : Bus} (h : b.wf cfg = true) (a : Nat) (bytes : List Byte) :
    (busWrite cfg b a bytes).readFrom (resolve cfg a bytes.length).region (resolve cfg a bytes.length).offset
      (resolve cfg a bytes.length).len = bytes.take (resolve cfg a bytes.length).len := by
  refine Bus.readFrom_eq (resolve_len_le _ _ _) fun i hi => ?_
  rw [(busWrite_spec h a bytes).2, if_pos ⟨rfl, by omega, by omega⟩, Nat.add_sub_cancel_left]

/-- Settles O39, by what a store leaves at every offset of every region. -/
theorem writeThenReadReturnsTheBytes : Obligations.WriteThenReadReturnsTheBytes := by
  unfold Obligations.WriteThenReadReturnsTheBytes
  intro cfg b a bytes h
  refine ⟨?_, fun r k hout => ?_⟩
  · rw [(busRead_spec _ _ _ _).1, readFrom_busWrite h]
  · rw [(busWrite_spec h a bytes).2, if_neg hout]

/-! ### The one buffer of the unmapped addresses -/

/-- Storing in one region writes no cell of another. -/
theorem Bus.cells_writeFrom_of_ne {r q : Region} (hq : q ≠ r) (xs : List Byte) : ∀ (b : Bus) (off : Nat),
    (b.writeFrom r off xs).cells q = b.cells q := by
  induction xs with
  | nil => exact fun _ _ => rfl
  | cons x xs ih =>
    intro b off
    rw [writeFrom, ih, cells_put, if_neg hq]

@[simp] theorem Bus.cells_grow (b : Bus) (v : View) (q : Region) : (b.grow v).cells q = b.cells q := by
  rw [grow_eq]
  cases q <;> rfl

/-- A store writes no cell outside the region of its address. -/
theorem cells_busWrite_of_ne {cfg : Config} {a : Nat} {q : Region} (hq : q ≠ regionOf cfg a) (b : Bus)
    (bytes : List Byte) : (busWrite cfg b a bytes).cells q = b.cells q := by
  have hr : (resolve cfg a bytes.length).region = regionOf cfg a := by
    unfold resolve
    cases regionOf cfg a <;> rfl
  rw [busWrite, Bus.cells_writeFrom_of_ne (by rwa [hr]), Bus.cells_grow]

/-- Settles O40: the buffer is read in two parts, the bytes stored and what lay beyond them. -/
theorem unmappedAddressesShareOneBuffer : Obligations.UnmappedAddressesShareOneBuffer := by
  unfold Obligations.UnmappedAddressesShareOneBuffer
  intro cfg b a a' n bytes h ha ha'
  have hv : resolve cfg a bytes.length = ⟨.scratch, 0, bytes.length⟩ := resolve_of_scratch _ ha
  refine ⟨?_, cells_busWrite_of_ne (q := .ram) (by rw [ha]; decide) b bytes,
    cells_busWrite_of_ne (q := .rom) (by rw [ha]; decide) b bytes, ?_⟩
  · have hstored := readFrom_busWrite h a bytes
    rw [hv, List.take_length] at hstored
    rw [(busRead_spec _ _ _ _).1, resolve_of_scratch _ ha', Bus.readFrom_add, hstored]
    congr 1
    refine List.map_congr_left fun i _ => ?_
    rw [(busWrite_spec h a bytes).2, hv, if_neg (by simp only; omega), Nat.zero_add]
  · rw [busWrite, hv, Bus.scrLen_writeFrom]
    rfl

end Sys2Proof.Machine

/-! ### Where the block stops -/

namespace Sys2Proof.Machine

/-- The answer `x` is the fault of log 15 exactly under `clash`, the refusal of log 13 exactly under `dump`, and no other
stop. -/
def StopsIff (clash dump : Prop) (x : Result) : Prop :=
  (∀ r, x = .fault r ↔ r = .overlappingCall ∧ clash) ∧ (∀ r, x = .refused r ↔ r = .dump64LenOpen ∧ dump)

namespace StopsIff

variable {clash clash' dump dump' : Prop} {x : Result}

theorem congr (h : StopsIff clash dump x) (hc : clash ↔ clash') (hd : dump ↔ dump') : StopsIff clash' dump' x :=
  ⟨fun r => by rw [h.1 r, hc], fun r => by rw [h.2 r, hd]⟩

theorem of_next (h : ∃ t, x = .next t) (hc : ¬ clash) (hd : ¬ dump) : StopsIff clash dump x := by
  obtain ⟨t, rfl⟩ := h
  exact ⟨fun r => by simp [hc], fun r => by simp [hd]⟩

theorem next (t : State) : StopsIff False False (.next t) := of_next ⟨t, rfl⟩ id id

theorem of_fault (hc : clash) (hd : ¬ dump) : StopsIff clash dump (.fault .overlappingCall) :=
  ⟨fun r => by simp [hc], fun r => by simp [hd]⟩

theorem of_refused (hc : ¬ clash) (hd : dump) : StopsIff clash dump (.refused .dump64LenOpen) :=
  ⟨fun r => by simp [hc], fun r => by simp [hd, eq_comm]⟩

/-- A call of the host stops only where its slot is present (47_debug_bridge.md R260). -/
theorem throughSlot (slot : Slot) {call : State → Result} {s : State} (h : StopsIff clash dump (call s)) :
    StopsIff (hasSlot s.cfg.slots slot = true ∧ clash) (hasSlot s.cfg.slots slot = true ∧ dump)
      (throughSlot slot call s) := by
  unfold Machine.throughSlot
  cases hs : hasSlot s.cfg.slots slot
  · rw [withSlot_of_absent _ _ hs]
    exact of_next ⟨_, rfl⟩ (by simp) (by simp)
  · rw [withSlot_of_present _ _ hs]
    exact h.congr (by simp) (by simp)

/-- A call that must not overlap a run loop (47_debug_bridge.md R268; log 15). -/
theorem exclusive {call : State → Result} {s : State} (h : StopsIff False dump (call s)) :
    StopsIff (s.run ≠ .idle) (s.run = .idle ∧ dump) (exclusive call s) := by
  unfold Machine.exclusive
  cases hr : s.run
  · exact h.congr (by simp) (by simp)
  · exact of_fault (by simp) (by simp)
  · exact of_fault (by simp) (by simp)

end StopsIff

/-- A 64-bit dump is asked of a block that has the slot for it and no length (47_debug_bridge.md R262; log 13). -/
def State.dumpOpen (s : State) : Prop :=
  s.cfg.regWidth = .w64 ∧ s.cfg.dump64Len = none ∧ s.cfg.slots.getRegs = true

/-- The event `e` is the last trailer byte of a `g` packet whose `+` the client takes (46_rsp_framer.md R227, R229). -/
def State.dumpPacket (e : WireEvent) (s : State) : Prop :=
  (∃ b, e = .rx b) ∧ s.sess = .accepted ∧ s.rx = .trailer1 .getRegs ∧ s.txRoom ≠ some 0

theorem getRegs_eq_none_iff (s : State) : getRegs s = none ↔ s.cfg.regWidth = .w64 ∧ s.cfg.dump64Len = none := by
  unfold getRegs
  cases s.cfg.regWidth <;> simp

/-- Of all rows of the opcode table, only the verb `g` can stop the block. -/
theorem exec_answers_of_ne {i : Instr} (hi : i ≠ .rspGetRegs) (s : State) : ∃ t, exec i s = .next t := by
  cases hrsp : i.isRsp with
  | false =>
    obtain ⟨t, -, ht, -⟩ := exec_answers i hrsp s
    exact ⟨t, ht⟩
  | true =>
    cases i with
    | rspQuestion | rspReadMem =>
      obtain ⟨-, h⟩ | ⟨-, ⟨-, h⟩ | ⟨-, h⟩⟩ := serveSlot_cases _ _ s <;> exact ⟨_, h⟩
    | rspUnknown v =>
      obtain ⟨-, h⟩ | ⟨-, h⟩ := serve_cases (fun s => .next (emptyReply s)) s <;> exact ⟨_, h⟩
    | rspGetRegs => exact absurd rfl hi
    | _ => cases hrsp

/-- Where the verb `g` refuses: its handler is called and has no dump to give (R229, R262; log 13). -/
theorem execRspGetRegs_stops {s : State} (hs : s.sess = .accepted) :
    StopsIff False (s.dumpOpen ∧ s.txRoom ≠ some 0) (execRspGetRegs s) := by
  have hack := ack_accepted_iff s
  obtain ⟨hl, h⟩ | ⟨ha, ⟨hslot, hg, h⟩ | ⟨-, p, hg, h⟩ | ⟨hslot, h⟩⟩ := execRspGetRegs_cases s
  · refine .of_next ⟨_, h⟩ id fun ⟨_, hroom⟩ => ?_
    simp [hack.2 ⟨hs, hroom⟩] at hl
  · rw [h]
    obtain ⟨hwidth, hlen⟩ := (getRegs_eq_none_iff s).1 hg
    exact .of_refused id ⟨⟨hwidth, hlen, hslot⟩, (hack.1 ha).2⟩
  · refine .of_next ⟨_, h⟩ id fun ⟨⟨hwidth, hlen, _⟩, _⟩ => ?_
    simp [(getRegs_eq_none_iff s).2 ⟨hwidth, hlen⟩] at hg
  · refine .of_next ⟨_, h⟩ id fun ⟨⟨_, _, hpresent⟩, _⟩ => ?_
    simp [hpresent] at hslot

/-- A received byte is answered in every receive state but that of a `g` packet's last trailer byte. -/
theorem rxByte_answers {b : Byte} {s : State} (h : s.rx ≠ .trailer1 .getRegs) : ∃ t, rxByte b s = .next t := by
  unfold rxByte
  cases hrx : s.rx with
  | trailer1 v =>
    cases v with
    | getRegs => exact absurd hrx h
    | question | readMem => simpa [rxTrailer1] using exec_answers_of_ne (by decide) s
  | skipTrailer1 => exact exec_answers_of_ne (by simp) s
  | _ => exact ⟨_, rfl⟩

/-- Where the engine stops on a transport event: at a `g` packet's last trailer byte. -/
theorem receive_stops (e : WireEvent) (s : State) :
    StopsIff False (s.dumpOpen ∧ s.dumpPacket e) (receive e s) := by
  cases e with
  | connect | hangup => exact .of_next ⟨_, rfl⟩ id (by simp [State.dumpPacket])
  | shortWriteAfter k =>
    refine .of_next ?_ id (by simp [State.dumpPacket])
    cases hs : s.sess <;> simp [receive, hs]
  | rx b =>
    cases hs : s.sess with
    | listening => exact .of_next ⟨s, by simp [receive, hs]⟩ id (by simp [State.dumpPacket, hs])
    | accepted =>
      have hbyte : receive (.rx b) s = rxByte b s := by simp [receive, hs]
      rw [hbyte]
      by_cases hrx : s.rx = .trailer1 .getRegs
      · have hverb : rxByte b s = execRspGetRegs s := by simp [rxByte, hrx, rxTrailer1, Verb.instr, exec]
        rw [hverb]
        exact (execRspGetRegs_stops hs).congr Iff.rfl (by simp [State.dumpPacket, hs, hrx])
      · exact .of_next (rxByte_answers hrx) id (by simp [State.dumpPacket, hrx])

/-- A run loop's iteration always answers: it ends, or it calls the interpreter. -/
theorem runLoopIteration_answers (s : State) : ∃ t, runLoopIteration s = .next t := by
  unfold runLoopIteration
  split
  · exact ⟨_, rfl⟩
  · obtain ⟨u, -, hu, -⟩ := interp_answers s
    exact ⟨afterStep u, by rw [hu]⟩

/-- Where the block stops when the host does nothing: with no run loop in progress, on a wire event. -/
theorem advance_stops (s : State) :
    StopsIff False (s.dumpOpen ∧ s.run = .idle ∧ ∃ e rest, s.wire = e :: rest ∧ s.dumpPacket e) (advance s) := by
  unfold advance
  split
  · exact .of_next (runLoopIteration_answers s) id (by simp [*])
  · exact .of_next (runLoopIteration_answers s) id (by simp [*])
  · rename_i e rest hr hw
    exact (receive_stops e { s with wire := rest }).congr Iff.rfl (by
      simp [hr, hw, State.dumpOpen, State.dumpPacket])
  · exact .of_next ⟨s, rfl⟩ id (by simp [*])

/-- The four calls of the host that must not overlap a run loop, each with its slot present (47_debug_bridge.md R268; log
15). -/
def HostCall.guarded (p : Slots) (c : HostCall) : Prop :=
  (c = .stepi ∧ p.stepi = true) ∨ (c = .cont ∧ p.cont = true) ∨ (c = .getRegs ∧ p.getRegs = true) ∨
    ∃ a n, c = .readMem a n ∧ p.readMem = true

/-- Where a call of the host stops the block. -/
theorem hostCall_stops (c : HostCall) (s : State) :
    StopsIff (s.run ≠ .idle ∧ c.guarded s.cfg.slots)
      (s.dumpOpen ∧ s.run = .idle ∧
        (c = .getRegs ∨ c = .quiet ∧ ∃ e rest, s.wire = e :: rest ∧ s.dumpPacket e)) (hostCall c s) := by
  cases c with
  | quiet => exact (advance_stops s).congr (by simp [HostCall.guarded]) (by simp)
  | kill | intr | question =>
    refine .congr (.throughSlot _ (.next _)) ?_ ?_ <;> simp [HostCall.guarded]
  | stepi | cont | readMem =>
    refine .congr (.throughSlot _ (.exclusive (.next _))) ?_ ?_ <;> simp [HostCall.guarded, hasSlot, and_comm]
  | getRegs =>
    refine .congr (.throughSlot _ (.exclusive (dump := getRegs s = none) ?_)) ?_ ?_
    · cases getRegs s with
      | none => exact .of_refused id rfl
      | some p => exact .of_next ⟨_, rfl⟩ id (by simp)
    · simp [HostCall.guarded, hasSlot, and_comm]
    · simp only [hasSlot, getRegs_eq_none_iff, State.dumpOpen]
      tauto

/-- Where a step stops the block. -/
theorem step_stops (s : State) :
    StopsIff (s.run ≠ .idle ∧ ∃ c rest, s.calls = c :: rest ∧ c.guarded s.cfg.slots)
      (s.dumpOpen ∧ s.run = .idle ∧
        ((∃ rest, s.calls = .getRegs :: rest) ∨
          (s.calls = [] ∨ ∃ rest, s.calls = .quiet :: rest) ∧ ∃ e rest, s.wire = e :: rest ∧ s.dumpPacket e))
      (step s) := by
  unfold step blockStep
  split
  · rename_i c rest hc
    exact (hostCall_stops c { s with calls := rest }).congr (by simp [hc])
      (by simp [hc, State.dumpOpen, State.dumpPacket])
  · rename_i hc
    exact (advance_stops s).congr (by simp [hc]) (by simp [hc])

/-- A run loop's call of the interpreter leaves its result (30_encoding.md R103). -/
theorem running_answers {s : State} (h : s.running) : ∃ t r, step s = .next t ∧ t.res = some r := by
  obtain ⟨u, r, hu, hr⟩ := interp_answers s
  obtain ⟨l, o, heq⟩ := afterStep_eq u
  exact ⟨afterStep u, r, step_of_running h hu, by rw [heq, hr]⟩

/-- Settles O11, by where the step of each agent stops. -/
theorem stepStopsOnlyAsLogged : Obligations.StepStopsOnlyAsLogged := by
  unfold Obligations.StepStopsOnlyAsLogged
  intro s
  obtain ⟨hfault, hrefused⟩ := step_stops s
  refine ⟨running_answers, hfault, fun r => (hrefused r).trans ?_⟩
  have hpacket : (∃ e rest, s.wire = e :: rest ∧ s.dumpPacket e) ↔ (∃ b rest, s.wire = .rx b :: rest) ∧
      s.sess = .accepted ∧ s.rx = .trailer1 .getRegs ∧ s.txRoom ≠ some 0 := by
    constructor
    · rintro ⟨_, rest, hw, ⟨b, rfl⟩, hp⟩
      exact ⟨⟨b, rest, hw⟩, hp⟩
    · rintro ⟨⟨b, rest, hw⟩, hp⟩
      exact ⟨_, rest, hw, ⟨b, rfl⟩, hp⟩
  rw [hpacket, State.dumpOpen, and_assoc, and_assoc]

end Sys2Proof.Machine

/-! ### Encoding and decoding back -/

namespace Sys2Proof

theorem isMemDi_iff (m : Byte) : isMemDi m = true ↔ modOf m = 0#2 ∧ rmOf m = 5#3 := by
  simp [isMemDi]

theorem isMemDirect_iff (m : Byte) : isMemDirect m = true ↔ modOf m = 0#2 ∧ rmOf m = 6#3 := by
  simp [isMemDirect]

theorem isRegForm_iff (m : Byte) : isRegForm m = true ↔ modOf m = 3#2 := by
  simp [isRegForm]

section ModRM

variable {cfg : Config} {b0 m : Byte}

/-! What each opcode with a ModRM byte makes of it, class by class (30_encoding.md R108, R112). -/

theorem decodeXor_of_mem (h : modOf m ≠ 3#2) : decodeXor b0 m = .error (.addrMode b0 m) := by
  simp [decodeXor, isRegForm_iff, h]

theorem decodeXor_of_other_regs (h : modOf m = 3#2) (hr : (regOf m, rmOf m) ∉ [(0#3, 0#3), (7#3, 7#3)]) :
    decodeXor b0 m = .error (.regOp b0 m) := by
  simp only [List.mem_cons, Prod.mk.injEq, List.not_mem_nil, or_false, not_or] at hr
  obtain ⟨hax, hdi⟩ := hr
  simp only [decodeXor, isRegForm_iff, h, hax, hdi, if_true, if_false]

theorem decodeCmp_of_memDi (h : modOf m = 0#2 ∧ rmOf m = 5#3) :
    decodeCmp b0 m = .ok (.cmpRegDi (Reg16.ofNum (regOf m))) :=
  if_pos ((isMemDi_iff m).2 h)

theorem decodeCmp_of_other (h : ¬ (modOf m = 0#2 ∧ rmOf m = 5#3)) : decodeCmp b0 m = .error (.addrMode b0 m) :=
  if_neg (h ∘ (isMemDi_iff m).1)

theorem decode89_of_other (h : ¬ (modOf m = 0#2 ∧ rmOf m = 5#3)) (hr : modOf m = 3#2 → cfg.movRROpcode ≠ 0x89#8) :
    decode89 cfg b0 m = .error (.addrMode b0 m) := by
  rw [decode89, if_neg (h ∘ (isMemDi_iff m).1), if_neg (by simpa [isRegForm] using hr)]

theorem decode89_of_memDi (hm : modOf m = 0#2) (hrm : rmOf m = 5#3) (h : regOf m ≠ 2#3) :
    decode89 cfg b0 m = .error (.regOp b0 m) := by
  simp [decode89, isMemDi_iff, hm, hrm, h]

theorem decode89_of_regForm (h : modOf m = 3#2) (hr : cfg.movRROpcode = 0x89#8) :
    decode89 cfg b0 m = .ok (.movRegReg (Reg16.ofNum (rmOf m)) (Reg16.ofNum (regOf m))) := by
  simp [decode89, isMemDi_iff, isRegForm_iff, h, hr]

theorem decode8B_of_other {rest : List Byte} (h : ¬ (modOf m = 0#2 ∧ rmOf m = 6#3))
    (hr : modOf m = 3#2 → cfg.movRROpcode ≠ 0x8B#8) : decode8B cfg b0 m rest = .error (.addrMode b0 m) := by
  rw [decode8B, if_neg (h ∘ (isMemDirect_iff m).1), if_neg (by simpa [isRegForm] using hr)]

theorem decode8B_of_memDirect {rest : List Byte} (hm : modOf m = 0#2) (hrm : rmOf m = 6#3) (h : regOf m ≠ 6#3) :
    decode8B cfg b0 m rest = .error (.regOp b0 m) := by
  simp [decode8B, isMemDirect_iff, hm, hrm, h]

theorem decode8B_si (rest : List Byte) :
    decode8B cfg b0 0x36#8 rest = needWord rest fun d _ => .ok (.movSiMem d) := rfl

theorem decode8B_of_regForm {rest : List Byte} (h : modOf m = 3#2) (hr : cfg.movRROpcode = 0x8B#8) :
    decode8B cfg b0 m rest = .ok (.movRegReg (Reg16.ofNum (regOf m)) (Reg16.ofNum (rmOf m))) := by
  simp [decode8B, isMemDirect_iff, isRegForm_iff, h, hr]

theorem decode8E_of_mem (h : modOf m ≠ 3#2) : decode8E b0 m = .error (.addrMode b0 m) := by
  simp [decode8E, isRegForm_iff, h]

theorem decode8E_of_other_regs (h : modOf m = 3#2) (hr : regOf m ∉ [0#3, 3#3] ∨ rmOf m ∉ [0#3, 3#3]) :
    decode8E b0 m = .error (.regOp b0 m) := by
  simp only [List.mem_cons, List.not_mem_nil, or_false, not_or] at hr
  obtain ⟨hes, hds⟩ | ⟨hax, hbx⟩ := hr
  · simp [decode8E, isRegForm_iff, h, hes, hds]
  · simp [decode8E, isRegForm_iff, h, hax, hbx]

theorem decodeFE_of_other_sub (h : regOf m ≠ 0#3) : decodeFE b0 m = .error (.subOp b0 m) := if_neg h

theorem decodeFE_of_mem (hr : regOf m = 0#3) (h : modOf m ≠ 3#2) : decodeFE b0 m = .error (.addrMode b0 m) := by
  simp [decodeFE, isRegForm_iff, hr, h]

theorem decodeFE_of_other_reg (hr : regOf m = 0#3) (h : modOf m = 3#2) (hrm : rmOf m ≠ 0#3) :
    decodeFE b0 m = .error (.regOp b0 m) := by
  simp [decodeFE, isRegForm_iff, hr, h, hrm]

end ModRM

section Encoded

variable {cfg : Config} (hx : cfg.xorOpcode = 0x33#8 ∨ cfg.xorOpcode = 0x31#8) (rest : List Byte)
include hx

/-- Either register move is read back under the value of `MOV_RR_OPCODE` it was written under (30_encoding.md R122). -/
theorem decode_encodeMovRR (hr : cfg.movRROpcode = 0x8B#8 ∨ cfg.movRROpcode = 0x89#8) (dst src : Reg16) :
    decode cfg (encodeMovRR cfg dst src ++ rest) = .ok (.movRegReg dst src) := by
  obtain hr | hr := hr
  · rw [encodeMovRR, if_neg (by rw [hr]; decide)]
    exact (decode_8B hx _).trans ((decode8B_of_regForm (by simp) hr).trans (by simp))
  · rw [encodeMovRR, if_pos hr]
    exact (decode_89 hx _).trans ((decode89_of_regForm (by simp) hr).trans (by simp))

/-- The instructions of one byte are read back. -/
theorem decode_encode_byte {i : Instr} (hi : i.isRsp = false) (hlen : i.length = 1) :
    decode cfg (encode cfg i ++ rest) = .ok i := by
  cases i with
  | esOverride | repz => rfl
  | incAx | stosw | nop | outDxAl | cli | cld =>
    obtain h | h := hx <;> simp [encode, decode, needByte_cons, h]
  | rspQuestion | rspGetRegs | rspReadMem | rspUnknown => cases hi
  | _ => cases hlen

end Encoded

/-- The decoder reads every instruction of the interpreter back, whatever bytes follow (30_encoding.md R110, R122). -/
theorem decode_encode {cfg : Config} (hcfg : cfg.wf = true) {i : Instr} (hi : i.isRsp = false) (rest : List Byte) :
    decode cfg (encode cfg i ++ rest) = .ok i := by
  obtain ⟨hx, hr⟩ := Config.opcodes_of_wf hcfg
  cases i with
  | esOverride | repz | incAx | stosw | nop | outDxAl | cli | cld => exact decode_encode_byte hx rest rfl rfl
  | rspQuestion | rspGetRegs | rspReadMem | rspUnknown => cases hi
  | xorAxAx | xorDiDi => exact decode_xor hx _
  | cmpRegDi r => exact (decode_3B hx _).trans ((decodeCmp_of_memDi (by simp)).trans (by simp))
  | incAl => exact decode_FE hx _
  | movDiDx => exact decode_89 hx _
  | movSiMem d => exact (decode_8B hx _).trans ((decode8B_si _).trans (by simp [needWord_cons]))
  | movRegReg dst src => exact decode_encodeMovRR hx rest hr dst src
  | movEsAx | movEsBx | movDsAx | movDsBx => exact decode_8E hx _
  | movReg8Imm r => exact decode_movReg8 hx _ r
  | movReg16Imm r v => exact (decode_movReg16 hx _ r).trans (by simp [needWord_cons])
  | jnz => exact decode_75 hx _
  | jmpFar => exact (decode_EA hx _).trans (by simp [needWord_cons])
  | outImmAl => exact decode_E6 hx _

/-- The verb decoder reads the one byte of an RSP row back (46_rsp_framer.md R245). -/
theorem decodeVerb_encode (cfg : Config) {i : Instr} (hi : i.isRsp = true) (hwf : i.wf = true) :
    ∃ v, encode cfg i = [v] ∧ decodeVerb v = i := by
  cases i with
  | rspQuestion | rspGetRegs | rspReadMem => exact ⟨_, rfl, rfl⟩
  | rspUnknown v =>
    have ⟨h1, h2, h3⟩ : v ≠ 0x3F#8 ∧ v ≠ 0x67#8 ∧ v ≠ 0x6D#8 := by simpa [Instr.wf, knownVerbs] using hwf
    exact ⟨v, rfl, by simp only [decodeVerb, h1, h2, h3, if_false]⟩
  | _ => cases hi

/-- Settles O1, by the interpreter's rows (`decode_encode`) and the four RSP rows (`decodeVerb_encode`). -/
theorem decodeOfEncodeIsTheInstruction : Obligations.DecodeOfEncodeIsTheInstruction := by
  unfold Obligations.DecodeOfEncodeIsTheInstruction
  exact fun cfg hcfg i rest hwf => ⟨fun hi => decode_encode hcfg hi rest, fun hi => decodeVerb_encode cfg hi hwf⟩

/-! ### Decoding and encoding back -/

/-- An answer of the decoder for bytes of the opcode map: an instruction whose encoding the bytes begin with, or an
error of any class but `E_OPCODE` (30_encoding.md R110 to R112). -/
inductive Listed (cfg : Config) (bytes : List Byte) : Decoded → Prop
  | ok {i : Instr} (h : encode cfg i <+: bytes) : Listed cfg bytes (.ok i)
  | addrMode (b m : Byte) : Listed cfg bytes (.error (.addrMode b m))
  | regOp (b m : Byte) : Listed cfg bytes (.error (.regOp b m))
  | subOp (b m : Byte) : Listed cfg bytes (.error (.subOp b m))
  | short : Listed cfg bytes (.error .short)

namespace Listed

variable {cfg : Config} {bytes rest : List Byte}

theorem needByte {k : Byte → List Byte → Decoded} (h : ∀ b tail, rest = b :: tail → Listed cfg bytes (k b tail)) :
    Listed cfg bytes (needByte rest k) := by
  cases rest with
  | nil => exact .short
  | cons b tail => exact h b tail rfl

theorem needWord {k : Word → List Byte → Decoded}
    (h : ∀ w tail, rest = w.lo :: w.hi :: tail → Listed cfg bytes (k w tail)) : Listed cfg bytes (needWord rest k) :=
  .needByte fun lo _ hlo => .needByte fun hi _ hhi => h (mkWord lo hi) _ (by simp [hlo, hhi])

theorem ite {c : Prop} [Decidable c] {x y : Decoded} (hx : c → Listed cfg bytes x) (hy : ¬ c → Listed cfg bytes y) :
    Listed cfg bytes (if c then x else y) := by
  split
  · exact hx ‹c›
  · exact hy ‹¬ c›

/-- An instruction of an opcode and one ModRM byte, whose three fields are known. -/
theorem modRM {i : Instr} {b0 m : Byte} {md : BitVec 2} {reg rm : BitVec 3}
    (he : encode cfg i = [b0, mkModRM md reg rm]) (hmd : modOf m = md) (hreg : regOf m = reg) (hrm : rmOf m = rm) :
    Listed cfg (b0 :: m :: rest) (.ok i) := by
  refine .ok ?_
  rw [he, ← eq_mkModRM hmd hreg hrm]
  exact List.prefix_append [b0, m] rest

theorem xor (m : Byte) : Listed cfg (cfg.xorOpcode :: m :: rest) (decodeXor cfg.xorOpcode m) :=
  .ite
    (fun hf => .ite (fun ⟨hreg, hrm⟩ => .modRM rfl ((isRegForm_iff m).1 hf) hreg hrm) fun _ =>
      .ite (fun ⟨hreg, hrm⟩ => .modRM rfl ((isRegForm_iff m).1 hf) hreg hrm) fun _ => .regOp _ m)
    fun _ => .addrMode _ m

theorem cmp (m : Byte) : Listed cfg (0x3B#8 :: m :: rest) (decodeCmp 0x3B#8 m) := by
  refine .ite (fun hm => ?_) fun _ => .addrMode _ m
  obtain ⟨hmd, hrm⟩ := (isMemDi_iff m).1 hm
  exact .modRM (by simp [encode]) hmd rfl hrm

theorem mov89 (m : Byte) : Listed cfg (0x89#8 :: m :: rest) (decode89 cfg 0x89#8 m) := by
  refine .ite (fun hm => .ite (fun hreg => ?_) fun _ => .regOp _ m) fun _ => .ite (fun hf => ?_) fun _ => .addrMode _ m
  · obtain ⟨hmd, hrm⟩ := (isMemDi_iff m).1 hm
    exact .modRM rfl hmd hreg hrm
  · obtain ⟨hf, hr⟩ := (Bool.and_eq_true ..).mp hf
    exact .modRM (by simp [encode, encodeMovRR, eq_of_beq hr]) ((isRegForm_iff m).1 hf) rfl rfl

theorem mov8B (m : Byte) : Listed cfg (0x8B#8 :: m :: rest) (decode8B cfg 0x8B#8 m rest) := by
  refine .ite (fun hm => .ite (fun hreg => ?_) fun _ => .regOp _ m) fun _ => .ite (fun hf => ?_) fun _ => .addrMode _ m
  · obtain ⟨hmd, hrm⟩ := (isMemDirect_iff m).1 hm
    obtain rfl : m = 0x36#8 := eq_mkModRM hmd hreg hrm
    exact .needWord fun d tail hd => .ok (hd ▸ List.prefix_append [0x8B#8, 0x36#8, d.lo, d.hi] tail)
  · obtain ⟨hf, hr⟩ := (Bool.and_eq_true ..).mp hf
    exact .modRM (by simp [encode, encodeMovRR, eq_of_beq hr]) ((isRegForm_iff m).1 hf) rfl rfl

theorem mov8E (m : Byte) : Listed cfg (0x8E#8 :: m :: rest) (decode8E 0x8E#8 m) := by
  refine .ite (fun hf => ?_) fun _ => .addrMode _ m
  have hmd := (isRegForm_iff m).1 hf
  refine .ite (fun ⟨hreg, hrm⟩ => .modRM rfl hmd hreg hrm) fun _ => ?_
  refine .ite (fun ⟨hreg, hrm⟩ => .modRM rfl hmd hreg hrm) fun _ => ?_
  refine .ite (fun ⟨hreg, hrm⟩ => .modRM rfl hmd hreg hrm) fun _ => ?_
  exact .ite (fun ⟨hreg, hrm⟩ => .modRM rfl hmd hreg hrm) fun _ => .regOp _ m

theorem inc (m : Byte) : Listed cfg (0xFE#8 :: m :: rest) (decodeFE 0xFE#8 m) :=
  .ite (fun hreg => .ite (fun hf => .ite (fun hrm => .modRM rfl ((isRegForm_iff m).1 hf) hreg hrm) fun _ => .regOp _ m)
    fun _ => .addrMode _ m) fun _ => .subOp _ m

/-- An instruction of one byte. -/
theorem byte {i : Instr} {b0 : Byte} (he : encode cfg i = [b0]) : Listed cfg (b0 :: rest) (.ok i) :=
  .ok (he ▸ List.prefix_append [b0] rest)

/-- An instruction of an opcode and an immediate byte. -/
theorem immByte {b0 : Byte} {k : Byte → Instr} (he : ∀ v, encode cfg (k v) = [b0, v]) :
    Listed cfg (b0 :: rest) (Sys2Proof.needByte rest fun v _ => .ok (k v)) :=
  .needByte fun v tail hv => .ok (by rw [he, hv]; exact List.prefix_append [b0, v] tail)

/-- An instruction of an opcode and an immediate word. -/
theorem immWord {b0 : Byte} {k : Word → Instr} (he : ∀ v, encode cfg (k v) = [b0, v.lo, v.hi]) :
    Listed cfg (b0 :: rest) (Sys2Proof.needWord rest fun v _ => .ok (k v)) :=
  .needWord fun v tail hv => .ok (by rw [he, hv]; exact List.prefix_append [b0, v.lo, v.hi] tail)

theorem jmpFar : Listed cfg (0xEA#8 :: rest)
    (Sys2Proof.needWord rest fun off tail => Sys2Proof.needWord tail fun seg _ => .ok (.jmpFar off seg)) :=
  .needWord fun off _ hoff => .needWord fun seg tail hseg =>
    .ok (by rw [hoff, hseg]; exact List.prefix_append [0xEA#8, off.lo, off.hi, seg.lo, seg.hi] tail)

end Listed

end Sys2Proof

/-! ### The opcode map -/

namespace Sys2Proof

open Machine

/-- The decoder's answer for a first byte outside the opcode map (30_encoding.md R120). -/
theorem decode_unlisted {cfg : Config} {b0 : Byte} (h : b0 ∉ supportedFirstBytes cfg) (rest : List Byte) :
    decode cfg (b0 :: rest) = .error (.opcode b0 (rest.take 3)) := by
  obtain ⟨hmov8, hmov16⟩ := opcodeField_eq_iff b0
  simp only [supportedFirstBytes, List.mem_cons, List.not_mem_nil, or_false, not_or] at h
  simp [decode, needByte_cons, hmov8, hmov16, h]

/-- The decoder's answer for a first byte of the opcode map, row by row (30_encoding.md R110). -/
theorem decode_listed {cfg : Config} {b0 : Byte} (hb : b0 ∈ supportedFirstBytes cfg) (rest : List Byte) :
    Listed cfg (b0 :: rest) (decode cfg (b0 :: rest)) := by
  rw [decode, needByte_cons]
  refine .ite (fun h => h ▸ .byte rfl) fun hes => ?_
  refine .ite (fun h => h ▸ .byte rfl) fun hrep => ?_
  refine .ite (fun h => h ▸ .needByte fun m _ hm => hm ▸ .xor m) fun hxor => ?_
  refine .ite (fun h => h ▸ .needByte fun m _ hm => hm ▸ .cmp m) fun hcmp => ?_
  refine .ite (fun h => h ▸ .needByte fun m _ hm => hm ▸ .mov89 m) fun h89 => ?_
  refine .ite (fun h => h ▸ .needByte fun m _ hm => hm ▸ .mov8B m) fun h8B => ?_
  refine .ite (fun h => h ▸ .needByte fun m _ hm => hm ▸ .mov8E m) fun h8E => ?_
  refine .ite (fun h => h ▸ .needByte fun m _ hm => hm ▸ .inc m) fun hFE => ?_
  refine .ite (fun h => h ▸ .byte rfl) fun hinc => ?_
  refine .ite (fun h => .immByte fun v => by rw [encode, Reg8.num_ofNum, ← h, opcodeField_rmOf]) fun hmov8 => ?_
  refine .ite (fun h => .immWord fun v => by rw [encode, Reg16.num_ofNum, ← h, opcodeField_rmOf]) fun hmov16 => ?_
  refine .ite (fun h => h ▸ .immByte fun _ => rfl) fun hjnz => ?_
  refine .ite (fun h => h ▸ .jmpFar) fun hjmp => ?_
  refine .ite (fun h => h ▸ .byte rfl) fun hstos => ?_
  refine .ite (fun h => h ▸ .byte rfl) fun hnop => ?_
  refine .ite (fun h => h ▸ .immByte fun _ => rfl) fun hout => ?_
  refine .ite (fun h => h ▸ .byte rfl) fun houtDx => ?_
  refine .ite (fun h => h ▸ .byte rfl) fun hcli => ?_
  refine .ite (fun h => h ▸ .byte rfl) fun hcld => ?_
  rw [(opcodeField_eq_iff b0).1] at hmov8
  rw [(opcodeField_eq_iff b0).2] at hmov16
  simp only [List.mem_cons, List.not_mem_nil, or_false, not_or] at hmov8 hmov16
  exact absurd hb (by simp [supportedFirstBytes, hes, hrep, hxor, hcmp, h89, h8B, h8E, hFE, hinc, hmov8, hmov16, hjnz,
    hjmp, hstos, hnop, hout, houtDx, hcli, hcld])

/-- Exactly the bytes outside the opcode map are `E_OPCODE` (30_encoding.md R120). -/
theorem decode_eq_opcodeError_iff {cfg : Config} {b0 : Byte} {rest : List Byte} :
    decode cfg (b0 :: rest) = .error (.opcode b0 (rest.take 3)) ↔ b0 ∉ supportedFirstBytes cfg := by
  refine ⟨fun h hb => ?_, fun h => decode_unlisted h rest⟩
  cases h ▸ decode_listed hb rest

/-- Bytes that decode begin with the encoding of what they decode to. -/
theorem encode_prefix_of_decode {cfg : Config} {bytes : List Byte} {i : Instr} (h : decode cfg bytes = .ok i) :
    encode cfg i <+: bytes := by
  cases bytes with
  | nil => cases h
  | cons b0 rest =>
    by_cases hb : b0 ∈ supportedFirstBytes cfg
    · cases h ▸ decode_listed hb rest with
      | ok he => exact he
    · cases (decode_unlisted hb rest).symm.trans h

/-- The encoder writes as many bytes as the instruction is long (30_encoding.md R102). -/
theorem length_encode (cfg : Config) (i : Instr) : (encode cfg i).length = i.length := by
  cases i with
  | movRegReg dst src => exact (Laws.EncodeLength.movRegReg dst src cfg).1
  | _ => rfl

/-- The 33 first bytes of the map are distinct, whatever the parameter (30_encoding.md R120). -/
theorem supportedFirstBytes_nodup {cfg : Config} (hx : cfg.xorOpcode = 0x33#8 ∨ cfg.xorOpcode = 0x31#8) :
    (supportedFirstBytes cfg).Nodup := by
  obtain h | h := hx <;> rw [supportedFirstBytes, h] <;> decide

/-- Distinct bytes and the values that stand for no one of them are all 256. -/
theorem length_filter_not_contains {l : List Byte} (h : l.Nodup) :
    l.length + ((List.range 256).filter fun n => !l.contains (BitVec.ofNat 8 n)).length = 256 := by
  have hperm : ((List.range 256).filter fun n => l.contains (BitVec.ofNat 8 n)).Perm (l.map BitVec.toNat) := by
    have hvalues : (l.map BitVec.toNat).Nodup := h.map fun _ _ => BitVec.eq_of_toNat_eq
    refine (List.perm_ext_iff_of_nodup (List.nodup_range.filter _) hvalues).2 fun n => ?_
    simp only [List.mem_filter, List.mem_range, List.contains_iff_mem, List.mem_map]
    constructor
    · exact fun ⟨hn, hl⟩ => ⟨_, hl, Nat.mod_eq_of_lt hn⟩
    · rintro ⟨b, hb, rfl⟩
      exact ⟨b.isLt, by rwa [BitVec.ofNat_toNat, BitVec.setWidth_eq]⟩
  have hsplit := List.length_eq_length_filter_add (l := List.range 256) fun n => l.contains (BitVec.ofNat 8 n)
  rw [List.length_range, hperm.length_eq, List.length_map] at hsplit
  exact hsplit.symm

/-- Settles O2: every answer of the decoder is one of the map's (`decode_listed`), and the encoder writes as many bytes
as the instruction is long. -/
theorem encodeOfDecodeIsTheBytes : Obligations.EncodeOfDecodeIsTheBytes := by
  unfold Obligations.EncodeOfDecodeIsTheBytes
  intro cfg _ bytes i h
  have hp := encode_prefix_of_decode h
  have hlen := length_encode cfg i
  exact ⟨decode_isRsp h, hlen ▸ hp.length_le, hlen ▸ List.prefix_iff_eq_take.1 hp⟩

/-- Settles O4: under the default parameters each opcode hands the ModRM byte to its own row, whose classes are
known. -/
theorem rejectedModRMClasses : Obligations.RejectedModRMClasses := by
  unfold Obligations.RejectedModRMClasses
  intro cfg m rest hxor hrr
  have hx : cfg.xorOpcode = 0x33#8 ∨ cfg.xorOpcode = 0x31#8 := .inl hxor
  have h33 : decode cfg (0x33#8 :: m :: rest) = decodeXor 0x33#8 m := hxor ▸ decode_xor hx (m :: rest)
  have h3B : decode cfg (0x3B#8 :: m :: rest) = decodeCmp 0x3B#8 m := decode_3B hx _
  have h89 : decode cfg (0x89#8 :: m :: rest) = decode89 cfg 0x89#8 m := decode_89 hx _
  have h8B : decode cfg (0x8B#8 :: m :: rest) = decode8B cfg 0x8B#8 m rest := decode_8B hx _
  have h8E : decode cfg (0x8E#8 :: m :: rest) = decode8E 0x8E#8 m := decode_8E hx _
  have hFE : decode cfg (0xFE#8 :: m :: rest) = decodeFE 0xFE#8 m := decode_FE hx _
  rw [h33, h3B, h89, h8B, h8E, hFE]
  exact ⟨decodeXor_of_mem, decodeXor_of_other_regs, decodeCmp_of_other,
    fun h => decode89_of_other h fun _ => by rw [hrr]; decide, decode89_of_memDi, decode8B_of_memDirect,
    fun hm h => decode8B_of_other h fun hf => absurd hf hm, decode8E_of_mem, decode8E_of_other_regs,
    decodeFE_of_other_sub, decodeFE_of_mem, decodeFE_of_other_reg⟩

/-- Settles O5: the byte not selected is outside the opcode map, or its row has no register form. -/
theorem opcodeParametersSelect : Obligations.OpcodeParametersSelect := by
  unfold Obligations.OpcodeParametersSelect
  intro cfg m rest
  refine ⟨fun h => ⟨h ▸ decode_xor (.inr h) _, h ▸ decode_xor (.inr h) _, decode_unlisted ?_ rest⟩,
    fun h => ⟨h ▸ decode_xor (.inl h) _, h ▸ decode_xor (.inl h) _, decode_unlisted ?_ rest⟩, ?_, ?_⟩
  · simp [supportedFirstBytes, h]
  · simp [supportedFirstBytes, h]
  · intro hx hr hm
    have hx : cfg.xorOpcode = 0x33#8 ∨ cfg.xorOpcode = 0x31#8 := by simpa using hx
    exact ⟨(decode_89 hx _).trans (decode89_of_regForm hm hr),
      (decode_8B hx _).trans (decode8B_of_other (by simp [hm]) fun _ => by rw [hr]; decide)⟩
  · intro hx hr hm
    have hx : cfg.xorOpcode = 0x33#8 ∨ cfg.xorOpcode = 0x31#8 := by simpa using hx
    exact ⟨(decode_8B hx _).trans (decode8B_of_regForm hm hr),
      (decode_89 hx _).trans (decode89_of_other (by simp [hm]) fun _ => by rw [hr]; decide)⟩

/-- Settles O7: each word is what the encoder writes for its instruction. -/
theorem writtenWordsDecode : Obligations.WrittenWordsDecode := by
  unfold Obligations.WrittenWordsDecode
  have h {i : Instr} (hi : i.isRsp = false) := decode_encode (cfg := Config.default) (by decide) hi []
  exact ⟨h (i := .cmpRegDi .bx) rfl, h (i := .movSiMem 0x0234#16) rfl, h (i := .movRegReg .ax .bx) rfl,
    h (i := .movReg8Imm .dh 0xB8#8) rfl, h (i := .movReg16Imm .dx 0x03D8#16) rfl,
    h (i := .jmpFar 0xE05B#16 0xF000#16) rfl, rfl⟩

end Sys2Proof

/-! ### What a run loop does with the view it fetches -/

namespace Sys2Proof.Machine

/-- A run loop that ends reports the status string of the parameters (47_debug_bridge.md R267). -/
theorem endRun_eq {s t : State} (h : t.cfg = s.cfg) :
    endRun t = { t with run := .idle, out := t.out ++ [statusReport s] } := by
  rw [statusReport, ← h]
  rfl

/-- A run loop that fetches bytes that do not decode ends with the error of the class (60_exceptions.md R285, R286). -/
theorem halted_of_decode_error {s : State} {e : DecodeError} (hr : s.running)
    (h : decode s.cfg (fetch s).1 = .error e) :
    ∃ t, step s = .next t ∧ Halted (toStepError (addrFetch s) e) s t := by
  obtain ⟨u, hu, hraised⟩ := raised_after_fetch s (toStepError (addrFetch s) e)
  refine ⟨endRun u, ?_, u, hraised, rfl⟩
  have hres : u.res = some (.error (toStepError (addrFetch s) e)) := by rw [hraised.1]
  rw [step_of_running hr ((interp_of_error h).trans hu), afterStep_of_error hres]

/-- Settles O3: the decoder answers `E_OPCODE` outside the map only, the map has 33 distinct bytes, and an error of the
decoder ends the run loop. -/
theorem unlistedFirstByteIsOpcodeError : Obligations.UnlistedFirstByteIsOpcodeError := by
  unfold Obligations.UnlistedFirstByteIsOpcodeError
  intro cfg hcfg
  refine ⟨fun b0 rest => decode_eq_opcodeError_iff, ?_, ?_⟩
  · have hlen := length_filter_not_contains (supportedFirstBytes_nodup (Config.opcodes_of_wf hcfg).1)
    exact Nat.add_left_cancel (n := 33) hlen
  · rintro s b0 rest rfl hr hf hb
    exact halted_of_decode_error hr (hf ▸ decode_unlisted hb rest)

/-- Settles O8, by the result of the instruction; the instruction itself leaves the run loop and the parameters
alone. -/
theorem stepRunsDecodedInstruction : Obligations.StepRunsDecodedInstruction := by
  unfold Obligations.StepRunsDecodedInstruction
  intro s i hr hd
  refine ⟨?_, fetch_state_of_mapped s, by rw [fetch_state, Bus.grow_eq]⟩
  have hi := decode_isRsp hd
  obtain ⟨t, r, ht, hres⟩ := exec_answers i hi (fetch s).2
  obtain ⟨-, -, hcfg, hrun, -, -⟩ := (exec_wrote hi ht).control
  have hstep := step_of_running hr ((interp_of_ok hd).trans ht)
  have hend : endRun t = { t with run := .idle, out := t.out ++ [statusReport s] } := endRun_eq hcfg
  refine ⟨t, ht, fun h => ?_, fun h hl => ?_, fun h hl => ?_, fun e h => ?_, by simp [hres]⟩
  · rw [hstep, afterStep_of_prefix h]
  · rw [hstep, afterStep_of_done h, if_neg (by rw [hrun.trans hl]; decide)]
  · rw [hstep, afterStep_of_done h, if_pos (hrun.trans hl), hend]
  · rw [hstep, afterStep_of_error h, hend]

end Sys2Proof.Machine

/-! ### The prefixes -/

namespace Sys2Proof.Machine

theorem takePrefix_of_outstanding {s : State} (h : s.dseg ≠ .ds ∨ s.drep ≠ .none) (b0 : Byte) (set : State → State) :
    takePrefix b0 set s = raise (.prefixPair b0) s := by
  obtain ⟨-, hraise⟩ | ⟨hseg, hrep, -⟩ := takePrefix_cases b0 set s
  · exact hraise
  · exact (h.elim (fun hne => hne hseg) (fun hne => hne hrep)).elim

theorem takePrefix_of_none {s : State} (hseg : s.dseg = .ds) (hrep : s.drep = .none) (b0 : Byte)
    (set : State → State) : takePrefix b0 set s = .next (finishPrefix (set s)) := by
  obtain ⟨hp, -⟩ | ⟨-, -, hnext⟩ := takePrefix_cases b0 set s
  · simp [State.prefixed, hseg, hrep] at hp
  · exact hnext

theorem exec_esOverride (s : State) : exec .esOverride s = takePrefix 0x26#8 (fun s => { s with dseg := .es }) s := rfl

theorem exec_repz (s : State) : exec .repz s = takePrefix 0xF3#8 (fun s => { s with drep := .repZ }) s := rfl

theorem Wrote.frame {i : Instr} {s t : State} (h : Wrote i s t) :
    Frame (regTargets i) (sregTargets i) (flagTargets i) s t :=
  ⟨h.regs, h.sregs, h.flags, h.engine, h.control⟩

/-- Settles O12: a prefix has no target to write, and the epilogue keeps what it set. -/
theorem prefixIsRecorded : Obligations.PrefixIsRecorded := by
  unfold Obligations.PrefixIsRecorded
  intro s hseg hrep
  constructor
  · have h := (exec_esOverride s).trans (takePrefix_of_none hseg hrep _ _)
    exact ⟨_, h, rfl, hrep, rfl, rfl, (exec_wrote rfl h).frame, ⟨fun _ _ => rfl, rfl⟩, rfl⟩
  · have h := (exec_repz s).trans (takePrefix_of_none hseg hrep _ _)
    exact ⟨_, h, hseg, rfl, rfl, rfl, (exec_wrote rfl h).frame, ⟨fun _ _ => rfl, rfl⟩, rfl⟩

/-- A run loop whose call of the interpreter raises an error on the state after the fetch ends with it
(60_exceptions.md R285, R286). -/
theorem halted_of_interp_raise {s : State} {e : StepError} (hr : s.running) (h : interp s = raise e (fetch s).2) :
    ∃ t, step s = .next t ∧ Halted e s t := by
  obtain ⟨u, hu, hraised⟩ := raised_after_fetch s e
  have hres : u.res = some (.error e) := by rw [hraised.1]
  exact ⟨endRun u, by rw [step_of_running hr (h.trans hu), afterStep_of_error hres], u, hraised, rfl⟩

/-- The call of the interpreter that fetches a prefix byte with a prefix outstanding (40_prefixes.md R142). -/
theorem interp_second_prefix {s : State} {b0 : Byte} {rest : List Byte} (hf : (fetch s).1 = b0 :: rest)
    (hb : b0 ∈ [0x26#8, 0xF3#8]) (h : s.dseg ≠ .ds ∨ s.drep ≠ .none) :
    interp s = raise (.prefixPair b0) (fetch s).2 := by
  have h' : (fetch s).2.dseg ≠ .ds ∨ (fetch s).2.drep ≠ .none := h
  simp only [List.mem_cons, List.not_mem_nil, or_false] at hb
  obtain rfl | rfl := hb
  · have hd : decode s.cfg (fetch s).1 = .ok .esOverride := by rw [hf]; rfl
    rw [interp_of_ok hd, exec_esOverride, takePrefix_of_outstanding h']
  · have hd : decode s.cfg (fetch s).1 = .ok .repz := by rw [hf]; rfl
    rw [interp_of_ok hd, exec_repz, takePrefix_of_outstanding h']

/-- Settles O13: the second prefix is an error of the interpreter, and an error ends the run loop. -/
theorem secondPrefixRaises : Obligations.SecondPrefixRaises := by
  unfold Obligations.SecondPrefixRaises
  exact fun s b0 rest hr hf hb h => halted_of_interp_raise hr (interp_second_prefix hf hb h)

/-! ### What does not consult a prefix -/

/-- The same block under another prefix state (10_state.md R45). -/
def State.withPrefix (d : DataSeg) (p : Repeat) (s : State) : State := { s with dseg := d, drep := p }

/-- The answers of one instruction started in `s` (`x`) and in `s.withPrefix d p` (`y`) differ by the prefix state at
most: they complete alike, which clears it, or raise one error, which keeps it (40_prefixes.md R143). -/
inductive AlikeButPrefix (s : State) (d : DataSeg) (p : Repeat) : Result → Result → Prop
  | done (target : Word) (u : State) :
      AlikeButPrefix s d p (.next (finishAt target u)) (.next (finishAt target u))
  | error (e : StepError) (u : State) (hseg : u.dseg = s.dseg) (hrep : u.drep = s.drep) :
      AlikeButPrefix s d p (raise e u) (raise e (u.withPrefix d p))

namespace AlikeButPrefix

variable {s : State} {d : DataSeg} {p : Repeat} {x x' y y' : Result}

theorem ite {c : Prop} [Decidable c] (hx : AlikeButPrefix s d p x x') (hy : AlikeButPrefix s d p y y') :
    AlikeButPrefix s d p (if c then x else y) (if c then x' else y') := by
  split
  · exact hx
  · exact hy

/-- Where only the segment prefix was another. -/
theorem of_dseg (h : AlikeButPrefix s d s.drep x y) :
    ∃ t u, x = .next t ∧ y = .next u ∧ { t with dseg := .ds } = { u with dseg := .ds } ∧
      (t.res = some .done → t = u ∧ t.dseg = .ds ∧ t.drep = .none) ∧ (t.res ≠ some .done → u.dseg = d) := by
  cases h with
  | done target u => exact ⟨_, _, rfl, rfl, rfl, fun _ => ⟨rfl, rfl, rfl⟩, fun h => absurd rfl h⟩
  | error e u _ hrep =>
    refine ⟨_, _, rfl, rfl, ?_, nofun, fun _ => rfl⟩
    rw [← hrep]
    rfl

/-- Where only the repeat prefix was another. -/
theorem of_drep (h : AlikeButPrefix s s.dseg p x y) :
    ∃ t u, x = .next t ∧ y = .next u ∧ { t with drep := .none } = { u with drep := .none } ∧
      (t.res = some .done → t = u ∧ t.dseg = .ds ∧ t.drep = .none) ∧ (t.res ≠ some .done → u.drep = p) := by
  cases h with
  | done target u => exact ⟨_, _, rfl, rfl, rfl, fun _ => ⟨rfl, rfl, rfl⟩, fun h => absurd rfl h⟩
  | error e u hseg _ =>
    refine ⟨_, _, rfl, rfl, ?_, nofun, fun _ => rfl⟩
    rw [← hseg]
    rfl

end AlikeButPrefix

/-- The loop of a repeated STOSW consults no prefix: its store is in ES (44_string.md R200). -/
theorem stosLoop_withPrefix (d : DataSeg) (p : Repeat) (n : Nat) : ∀ s : State,
    stosLoop n (s.withPrefix d p) = ((stosLoop n s).1.withPrefix d p, (stosLoop n s).2) := by
  induction n with
  | zero => exact fun _ => rfl
  | succ n ih =>
    intro s
    by_cases hcx : s.regs.cx = 0#16
    · rw [stosLoop_cx_zero _ hcx, stosLoop_cx_zero _ (s := s.withPrefix d p) hcx]
    · rw [stosLoop_succ n hcx, stosLoop_succ n (s := s.withPrefix d p) hcx]
      show (if (stosView s 0).len = 2 then stosLoop n ((stosNext s).withPrefix d p) else _) = _
      split
      · exact ih _
      · rfl

/-- STOSW asks for the repeat prefix and for no segment (44_string.md R200). -/
theorem stosw_ignores_dseg (d : DataSeg) (s : State) :
    AlikeButPrefix s d s.drep (execStosw s) (execStosw (s.withPrefix d s.drep)) := by
  by_cases h : s.drep = .none
  · rw [execStosw_of_single h, execStosw_of_single (s := s.withPrefix d s.drep) h]
    exact .ite (.done _ _) (.error _ s rfl rfl)
  · obtain ⟨regs, bus, heq, -, -⟩ := stosLoop_frame s.regs.cx.toNat s
    rw [execStosw_of_repeated h, execStosw_of_repeated (s := s.withPrefix d s.drep) h,
      show (s.withPrefix d s.drep).regs = s.regs from rfl, stosLoop_withPrefix]
    cases (stosLoop s.regs.cx.toNat s).2 with
    | none => exact .done _ _
    | some e => exact .error e _ (by rw [heq]) (by rw [heq])

/-- Another prefix state makes no difference to an instruction that consults neither part in which it is another
(40_prefixes.md R143). -/
theorem exec_ignores_prefix {i : Instr} (hi : i.isRsp = false) (hes : i ≠ .esOverride) (hrepz : i ≠ .repz) {s : State}
    {d : DataSeg} {p : Repeat}
    (hseg : d = s.dseg ∨ ((∀ r, i ≠ .cmpRegDi r) ∧ i ≠ .movDiDx ∧ ∀ a, i ≠ .movSiMem a))
    (hrep : p = s.drep ∨ i ≠ .stosw) : AlikeButPrefix s d p (exec i s) (exec i (s.withPrefix d p)) := by
  cases i with
  | esOverride => exact absurd rfl hes
  | repz => exact absurd rfl hrepz
  | cmpRegDi r =>
    obtain rfl := hseg.resolve_right fun ⟨hcmp, _, _⟩ => hcmp r rfl
    show AlikeButPrefix s s.dseg p (execCmpRegDi r s) (execCmpRegDi r (s.withPrefix s.dseg p))
    rw [execCmpRegDi_eq, execCmpRegDi_eq]
    exact .ite (.done _ _) (.error _ s rfl rfl)
  | movDiDx =>
    obtain rfl := hseg.resolve_right fun ⟨_, hmov, _⟩ => hmov rfl
    show AlikeButPrefix s s.dseg p (execMovDiDx s) (execMovDiDx (s.withPrefix s.dseg p))
    rw [execMovDiDx_eq, execMovDiDx_eq]
    exact .ite (.done _ _) (.error _ s rfl rfl)
  | movSiMem a =>
    obtain rfl := hseg.resolve_right fun ⟨_, _, hmov⟩ => hmov a rfl
    show AlikeButPrefix s s.dseg p (execMovSiMem a s) (execMovSiMem a (s.withPrefix s.dseg p))
    rw [execMovSiMem_eq, execMovSiMem_eq]
    exact .ite (.done _ _) (.error _ s rfl rfl)
  | stosw =>
    obtain rfl := hrep.resolve_right fun h => h rfl
    exact stosw_ignores_dseg d s
  | rspQuestion | rspGetRegs | rspReadMem | rspUnknown => cases hi
  | _ => exact .done _ _

/-- Settles O15, by the two runs of each instruction; what consults one prefix still ignores the other. -/
theorem unconsultedPrefixIsIgnored : Obligations.UnconsultedPrefixIsIgnored := by
  unfold Obligations.UnconsultedPrefixIsIgnored
  intro i s hi hes hrepz
  refine ⟨fun hcmp hmov hmovSi => ?_, fun hstosw d => ?_⟩
  · exact (exec_ignores_prefix (s := { s with dseg := .ds }) (d := .es) hi hes hrepz
      (.inr ⟨hcmp, hmov, hmovSi⟩) (.inl rfl)).of_dseg
  · exact (exec_ignores_prefix (s := { s with drep := .none }) (p := d) hi hes hrepz
      (.inl rfl) (.inr hstosw)).of_drep

end Sys2Proof.Machine

/-! ### Arithmetic and logic -/

namespace Sys2Proof.Machine

theorem exec_xorAxAx (s : State) : exec .xorAxAx s = xorSelf .ax s := rfl

theorem exec_xorDiDi (s : State) : exec .xorDiDi s = xorSelf .di s := rfl

theorem exec_cmpRegDi (r : Reg16) (s : State) : exec (.cmpRegDi r) s = execCmpRegDi r s := rfl

theorem exec_incAx (s : State) :
    exec .incAx s = .next (finish 1 (setFlags
      (withFlag .parity (parity16 (s.regs.ax + 1#16)) (auxCarryOfInc s.cfg.incAxAfClears s.regs.ax s.flags))
      (setReg .ax (s.regs.ax + 1#16) s))) := rfl

theorem exec_incAl (s : State) : exec .incAl s = .next (finish 2 (setReg8 .al (s.regs.getByte .al + 1#8) s)) := rfl

/-- What an instruction of the interpreter leaves alone when it ends from a state in which IP, memory and outputs are
still the old ones. -/
theorem frame_of_finish {i : Instr} (hi : i.isRsp = false) {n : Nat} {s u : State} (h : exec i s = .next (finish n u))
    (hip : u.ip = s.ip) (hbus : u.bus = s.bus) (hout : u.out = s.out) :
    Frame (regTargets i) (sregTargets i) (flagTargets i) s (finish n u) ∧
      Completed (s.ip + BitVec.ofNat 16 n) (finish n u) ∧ SameMemory s (finish n u) ∧ (finish n u).out = s.out := by
  refine ⟨(exec_wrote hi h).frame, ⟨?_, rfl, rfl, rfl⟩, ⟨fun r k => ?_, ?_⟩, hout⟩
  · rw [finish_ip, hip]
  · rw [finish_bus, hbus]
  · rw [finish_bus, hbus]

/-! What each rule makes of a flag (10_state.md R31, R32; 41_alu.md R153). -/

@[simp] theorem flagOf_zero_zeroParityOf (r w : Word) : flagOf .zero (zeroParityOf r w) = isZero r := by
  simp [zeroParityOf, flagOf_withFlag]

@[simp] theorem flagOf_parity_zeroParityOf (r w : Word) : flagOf .parity (zeroParityOf r w) = parity16 r := by
  simp [zeroParityOf]

theorem parity16_iff (v : Word) : parity16 v = true ↔ popcount v % 2 = 0 := by
  simp [parity16]

/-- The zero flag of a difference says whether the operands are equal (41_alu.md R152). -/
theorem isZero_sub_iff (a b : Word) : isZero (a - b) = true ↔ a = b := by
  rw [isZero, beq_iff_eq, BitVec.sub_eq_iff_eq_add, BitVec.zero_add]

theorem lo_eq_allOnes_iff (w : Word) : w.lo = 0xFF#8 ↔ w.toNat % 256 = 255 := by
  rw [← BitVec.toNat_inj, toNat_lo]
  rfl

theorem flagOf_auxCarryOfInc (clears : Bool) (old w : Word) :
    flagOf .auxCarry (auxCarryOfInc clears old w) =
      if old.toNat % 256 = 255 then true else if clears then false else flagOf .auxCarry w := by
  simp only [auxCarryOfInc, lo_eq_allOnes_iff, apply_ite (flagOf .auxCarry), flagOf_withFlag_same]

/-- Both XOR forms, for the value they compute (41_alu.md R150, R151). -/
theorem xorSelf_eq (r : Reg16) (s : State) :
    xorSelf r s = .next (finish 2 (setFlags (zeroParityOf 0#16 s.flags) (setReg r 0#16 s))) := by
  simp only [xorSelf, BitVec.xor_self]

/-- An XOR form clears its register, sets the two flags of the result 0, and leaves the rest alone. -/
theorem xorSelf_completes {i : Instr} (hi : i.isRsp = false) {r : Reg16} {s : State} (hexec : exec i s = xorSelf r s) :
    ∃ t, exec i s = .next t ∧ t.regs.get r = 0#16 ∧ flagOf .zero t.flags = true ∧ flagOf .parity t.flags = true ∧
      Frame (regTargets i) (sregTargets i) (flagTargets i) s t ∧ Completed (s.ip + 2#16) t ∧ SameMemory s t ∧
      t.out = s.out := by
  have h := hexec.trans (xorSelf_eq r s)
  refine ⟨_, h, Regs.get_set_same _ _ _, ?_, ?_, frame_of_finish hi h rfl rfl rfl⟩
  · exact flagOf_zero_zeroParityOf _ _
  · exact flagOf_parity_zeroParityOf _ _

/-- Settles O16: the result of either form is 0, whose zero and parity rules both answer 1. -/
theorem xorClearsRegisterSetsZeroAndParity : Obligations.XorClearsRegisterSetsZeroAndParity := by
  unfold Obligations.XorClearsRegisterSetsZeroAndParity
  intro s
  refine ⟨fun hx => ?_, xorSelf_completes rfl (exec_xorAxAx s), xorSelf_completes rfl (exec_xorDiDi s)⟩
  have hrow rest : decode s.cfg (0x33#8 :: rest) = needByte rest fun m _ => decodeXor 0x33#8 m :=
    hx ▸ decode_xor (.inl hx) rest
  exact ⟨hrow [], fun rest => ⟨hrow _, hrow _⟩⟩

/-- Settles O17: the difference with the word is 0 exactly when the register equals it, and a read changes no byte. -/
theorem cmpWritesZeroFlagOnly : Obligations.CmpWritesZeroFlagOnly := by
  unfold Obligations.CmpWritesZeroFlagOnly
  intro s r
  constructor
  · intro hfit
    have h := (exec_cmpRegDi r s).trans ((execCmpRegDi_eq r s).trans (if_pos hfit))
    refine ⟨_, h, ?_, (exec_wrote rfl h).frame, ⟨rfl, rfl, rfl, rfl⟩, fun q k => ?_, rfl⟩
    · rw [finish_flags, setFlags_flags, flagOf_withFlag_same, isZero_sub_iff]
    · exact Bus.get_grow _ _ _ _
  · intro hcut
    rw [exec_cmpRegDi, execCmpRegDi_eq, if_neg hcut]
    rfl

/-- Settles O18: PF is written last and leaves AF as `auxCarryOfInc` made it. -/
theorem incAxResultAndFlags : Obligations.IncAxResultAndFlags := by
  unfold Obligations.IncAxResultAndFlags
  intro s
  have h := exec_incAx s
  refine ⟨_, h, ?_, ?_, ?_, ?_, ?_, frame_of_finish rfl h rfl rfl rfl⟩
  · exact BitVec.toNat_add _ _
  · exact (Bool.eq_iff_iff.1 (flagOf_withFlag_same _ _ _)).trans (parity16_iff _)
  all_goals rw [finish_flags, setFlags_flags, flagOf_withFlag, if_neg (by decide), flagOf_auxCarryOfInc]
  · exact fun hFF => if_pos hFF
  · exact fun hFF hkeeps => by rw [if_neg hFF, hkeeps, if_neg Bool.false_ne_true]
  · exact fun hFF hclears => by rw [if_neg hFF, if_pos hclears]

/-- Settles O19: a write of AL leaves AH, the other half of its parent, alone. -/
theorem incAlResult : Obligations.IncAlResult := by
  unfold Obligations.IncAlResult
  intro s
  have h := exec_incAl s
  refine ⟨_, h, ?_, ?_, frame_of_finish rfl h rfl rfl rfl⟩
  · rw [finish_regs, setReg8_regs, Regs.getByte_setByte, if_pos rfl]
    exact BitVec.toNat_add _ _
  · rw [finish_regs, setReg8_regs, Regs.getByte_setByte, if_neg (by decide)]

end Sys2Proof.Machine

/-! ### Data movement -/

namespace Sys2Proof.Machine

theorem exec_movDiDx (s : State) : exec .movDiDx s = execMovDiDx s := rfl

theorem exec_movSiMem (disp : Word) (s : State) : exec (.movSiMem disp) s = execMovSiMem disp s := rfl

theorem exec_movRegReg (dst src : Reg16) (s : State) :
    exec (.movRegReg dst src) s = .next (finish 2 (setReg dst (s.regs.get src) s)) := rfl

theorem exec_movReg16Imm (dst : Reg16) (imm : Word) (s : State) :
    exec (.movReg16Imm dst imm) s = .next (finish 3 (setReg dst imm s)) := rfl

theorem exec_movReg8Imm (dst : Reg8) (imm : Byte) (s : State) :
    exec (.movReg8Imm dst imm) s = .next (finish 2 (setReg8 dst imm s)) := rfl

theorem exec_movEsAx (s : State) : exec .movEsAx s = movSReg .es .ax s := rfl

theorem exec_movEsBx (s : State) : exec .movEsBx s = movSReg .es .bx s := rfl

theorem exec_movDsAx (s : State) : exec .movDsAx s = movSReg .ds .ax s := rfl

theorem exec_movDsBx (s : State) : exec .movDsBx s = movSReg .ds .bx s := rfl

/-- The first byte as R174 writes it is the opcode row of the byte register. -/
theorem movReg8_opcode (r : Reg8) : 0xB0#8 + r.num.setWidth 8 = 0b10110#5 ++ r.num := by
  cases r <;> rfl

/-- A move into a word register loads it and leaves the rest alone (42_mov.md R172, R175). -/
theorem setReg_completes {i : Instr} (hi : i.isRsp = false) {n : Nat} {dst : Reg16} {v : Word} {s : State}
    (hexec : exec i s = .next (finish n (setReg dst v s))) :
    ∃ t, exec i s = .next t ∧ t.regs.get dst = v ∧ Frame (regTargets i) (sregTargets i) (flagTargets i) s t ∧
      Completed (s.ip + BitVec.ofNat 16 n) t ∧ SameMemory s t ∧ t.out = s.out :=
  ⟨_, hexec, Regs.get_set_same _ _ _, frame_of_finish hi hexec rfl rfl rfl⟩

/-- A move into a segment register loads it and leaves the rest alone (42_mov.md R173). -/
theorem movSReg_completes {i : Instr} (hi : i.isRsp = false) {dst : SReg} {src : Reg16} {s : State}
    (hexec : exec i s = movSReg dst src s) :
    ∃ t, exec i s = .next t ∧ t.sregs.get dst = s.regs.get src ∧
      Frame (regTargets i) (sregTargets i) (flagTargets i) s t ∧ Completed (s.ip + 2#16) t ∧ SameMemory s t ∧
      t.out = s.out :=
  ⟨_, hexec, (SRegs.get_set _ _ _ _).trans (if_pos rfl), frame_of_finish hi hexec rfl rfl rfl⟩

/-- Settles O20: a word that is not cut is stored whole, and the epilogue writes no memory. -/
theorem movDiDxStoresTheWord : Obligations.MovDiDxStoresTheWord := by
  unfold Obligations.MovDiDxStoresTheWord
  intro s
  constructor
  · intro hwf hfit
    have h := (exec_movDiDx s).trans ((execMovDiDx_eq s).trans (if_pos hfit))
    exact ⟨_, h, busWrite_word hwf hfit _, (exec_wrote rfl h).frame, ⟨rfl, rfl, rfl, rfl⟩, rfl⟩
  · intro hcut
    rw [exec_movDiDx, execMovDiDx_eq, if_neg hcut]
    rfl

/-- Settles O21: the word read goes to SI, and a read changes no byte. -/
theorem movSiLoadsTheWord : Obligations.MovSiLoadsTheWord := by
  unfold Obligations.MovSiLoadsTheWord
  intro s disp
  constructor
  · intro hfit
    have h := (exec_movSiMem disp s).trans ((execMovSiMem_eq disp s).trans (if_pos hfit))
    exact ⟨_, h, Regs.get_set_same _ .si _, (exec_wrote rfl h).frame, ⟨rfl, rfl, rfl, rfl⟩,
      fun _ _ => Bus.get_grow _ _ _ _, rfl⟩
  · intro hcut
    rw [exec_movSiMem, execMovSiMem_eq, if_neg hcut]
    rfl

/-- Settles O22: both forms are one write of the destination. -/
theorem movWritesExactlyOneRegister : Obligations.MovWritesExactlyOneRegister := by
  unfold Obligations.MovWritesExactlyOneRegister
  intro s dst src imm
  exact ⟨setReg_completes rfl (exec_movRegReg dst src s), setReg_completes rfl (exec_movReg16Imm dst imm s)⟩

/-- Settles O23: the opcode row gives the form, and a write of one byte register leaves the other seven alone. -/
theorem movByteWritesExactlyOneHalf : Obligations.MovByteWritesExactlyOneHalf := by
  unfold Obligations.MovByteWritesExactlyOneHalf
  intro s dst imm
  constructor
  · intro hcfg
    have hrow := fun rest => decode_movReg8 (Config.opcodes_of_wf hcfg).1 rest dst
    rw [movReg8_opcode]
    exact ⟨hrow [], fun rest => hrow (imm :: rest)⟩
  · have h := exec_movReg8Imm dst imm s
    refine ⟨_, h, ?_, fun q hq => ?_, frame_of_finish rfl h rfl rfl rfl⟩
    · rw [finish_regs, setReg8_regs, Regs.getByte_setByte, if_pos rfl]
    · rw [finish_regs, setReg8_regs, Regs.getByte_setByte, if_neg hq]

/-- Settles O24: the four forms are one write of a segment register each. -/
theorem movSegmentForms : Obligations.MovSegmentForms := by
  unfold Obligations.MovSegmentForms
  intro s
  exact ⟨movSReg_completes rfl (exec_movEsAx s), movSReg_completes rfl (exec_movEsBx s),
    movSReg_completes rfl (exec_movDsAx s), movSReg_completes rfl (exec_movDsBx s)⟩

end Sys2Proof.Machine

/-! ### Control transfer -/

namespace Sys2Proof.Machine

/-- How far ahead `JNZ` goes: its own two bytes and, when ZF is clear, the displacement read unsigned
(43_control_transfer.md R190). -/
def jnzAdvance (rel : Byte) (s : State) : Word :=
  if flagOf .zero s.flags then 2#16 else 2#16 + rel.setWidth 16

theorem exec_jnz (rel : Byte) (s : State) : exec (.jnz rel) s = .next (finishAt (s.ip + jnzAdvance rel s) s) := by
  change (.next (finishAt (if flagOf .zero s.flags then s.ip + 2#16 else s.ip + 2#16 + rel.setWidth 16) s) : Result) = _
  rw [jnzAdvance, apply_ite (s.ip + ·), BitVec.add_assoc]

theorem exec_jmpFar (off seg : Word) (s : State) :
    exec (.jmpFar off seg) s = .next (finishAt off (setSReg .cs seg s)) := rfl

theorem toNat_jnzAdvance_of_clear {s : State} (hzf : flagOf .zero s.flags = false) (rel : Byte) :
    (jnzAdvance rel s).toNat = 2 + rel.toNat := by
  rw [jnzAdvance, hzf, if_neg Bool.false_ne_true, BitVec.toNat_add, BitVec.toNat_setWidth, BitVec.toNat_ofNat]
  omega

theorem toNat_jnzAdvance_of_set {s : State} (hzf : flagOf .zero s.flags = true) (rel : Byte) :
    (jnzAdvance rel s).toNat = 2 := by
  rw [jnzAdvance, if_pos hzf]
  rfl

/-- Taken or not, `JNZ` goes at least past itself and at most 255 bytes beyond: never backward. -/
theorem jnzAdvance_bounds (rel : Byte) (s : State) :
    2 ≤ (jnzAdvance rel s).toNat ∧ (jnzAdvance rel s).toNat ≤ 257 := by
  cases hzf : flagOf .zero s.flags
  case false =>
    rw [toNat_jnzAdvance_of_clear hzf]
    omega
  case true =>
    rw [toNat_jnzAdvance_of_set hzf]
    decide

/-- What an instruction that sets IP itself leaves alone, when memory and outputs are still the old ones at its end. -/
theorem frame_of_finishAt {i : Instr} (hi : i.isRsp = false) {target : Word} {s u : State}
    (h : exec i s = .next (finishAt target u)) (hbus : u.bus = s.bus) (hout : u.out = s.out) :
    Frame (regTargets i) (sregTargets i) (flagTargets i) s (finishAt target u) ∧
      Completed target (finishAt target u) ∧ SameMemory s (finishAt target u) ∧ (finishAt target u).out = s.out := by
  refine ⟨(exec_wrote hi h).frame, ⟨rfl, rfl, rfl, rfl⟩, ⟨fun r k => ?_, ?_⟩, hout⟩
  · rw [finishAt_bus, hbus]
  · rw [finishAt_bus, hbus]

/-- Settles O25: the new IP is the old one plus the advance, whose value is known for either ZF. -/
theorem jnzAddsUnsignedDisplacement : Obligations.JnzAddsUnsignedDisplacement := by
  unfold Obligations.JnzAddsUnsignedDisplacement
  intro s rel
  have h := exec_jnz rel s
  have hip : (s.ip + jnzAdvance rel s).toNat = (s.ip.toNat + (jnzAdvance rel s).toNat) % 65536 := BitVec.toNat_add _ _
  have hahead : s.ip + jnzAdvance rel s - s.ip = jnzAdvance rel s := by rw [BitVec.add_comm, BitVec.add_sub_cancel]
  obtain ⟨hlow, hhigh⟩ := jnzAdvance_bounds rel s
  refine ⟨_, h, fun hzf => ?_, fun hzf => ?_, ?_, ?_, frame_of_finishAt rfl h rfl rfl⟩
  · rw [finishAt_ip, hip, toNat_jnzAdvance_of_clear hzf, Nat.add_assoc]
  · rw [finishAt_ip, hip, toNat_jnzAdvance_of_set hzf]
  · rwa [finishAt_ip, hahead]
  · rwa [finishAt_ip, hahead]

/-- Settles O26: CS is the one register written before IP is set. -/
theorem jmpFarLoadsCsAndIp : Obligations.JmpFarLoadsCsAndIp := by
  unfold Obligations.JmpFarLoadsCsAndIp
  intro s off seg
  have h := exec_jmpFar off seg s
  exact ⟨_, h, (SRegs.get_set s.sregs .cs .cs seg).trans (if_pos rfl), frame_of_finishAt rfl h rfl rfl⟩

end Sys2Proof.Machine

/-! ### The string store -/

namespace Sys2Proof.Machine

theorem exec_stosw (s : State) : exec .stosw s = execStosw s := rfl

/-- Settles O27: the one store is a word store at `ES:DI`, and DI is the only register written with it. -/
theorem stoswStoresOneWord : Obligations.StoswStoresOneWord := by
  unfold Obligations.StoswStoresOneWord
  intro s hsingle
  have hexec := (exec_stosw s).trans (execStosw_of_single hsingle)
  constructor
  · intro hwf hfit
    have h := hexec.trans (if_pos hfit)
    have hregs : RegsOnly [.di] s (finish 1 (setReg .di (s.regs.di + 2#16)
        { s with bus := busWrite s.cfg s.bus (addrStos s) [s.regs.ax.lo, s.regs.ax.hi] })) := fun r hr => by
      rw [finish_regs, setReg_regs, Regs.get_set, if_neg (List.ne_of_not_mem_cons hr)]
    obtain ⟨-, hrest⟩ := (exec_wrote rfl h).frame
    exact ⟨_, h, busWrite_word hwf hfit _, BitVec.toNat_add _ _, ⟨hregs, hrest⟩, ⟨rfl, rfl, rfl, rfl⟩, rfl⟩
  · exact fun hcut => hexec.trans (if_neg hcut)

/-- Settles O28: after CX iterations in which no word is cut, the loop has none left. -/
theorem repeatedStoswFillsMemory : Obligations.RepeatedStoswFillsMemory := by
  unfold Obligations.RepeatedStoswFillsMemory
  intro s hrep hwf hfit
  obtain ⟨t, hloop, hfilled, -, hcx, hdi, hrest, -⟩ := stosLoop_spec s.regs.cx.toNat s hwf le_rfl hfit
  obtain ⟨regs, bus, rfl⟩ : ∃ regs bus, t = { s with regs := regs, bus := bus } := ⟨_, _, hrest⟩
  have hend : stosLoop s.regs.cx.toNat s = ({ s with regs := regs, bus := bus }, none) := hloop 0
  have h : exec .stosw s = .next (finish 1 { s with regs := regs, bus := bus }) := by
    rw [exec_stosw, execStosw_of_repeated hrep, hend]
  have hcx0 : regs.cx = 0#16 := BitVec.eq_of_toNat_eq (hcx.trans (Nat.sub_self _))
  exact ⟨_, h, hfilled, hcx0, hdi, (exec_wrote rfl h).frame, ⟨rfl, rfl, rfl, rfl⟩, rfl⟩

/-- A loop with iterations left stops at once where its next word is cut, and changes nothing (44_string.md R200). -/
theorem stosLoop_of_cut {s : State} (n : Nat) (hcx : 0 < s.regs.cx.toNat) (hcut : (stosView s 0).len < 2) :
    stosLoop (n + 1) s = (s, some (.noMem (addrStos s))) := by
  have hcx0 : s.regs.cx ≠ 0#16 := fun h => hcx.ne (congrArg BitVec.toNat h).symm
  rw [stosLoop_succ n hcx0, if_neg hcut.ne]

/-- Settles O29: `k` iterations complete, and the loop stops in the state they leave, whose next word is the cut one. -/
theorem repeatedStoswKeepsCompletedIterations : Obligations.RepeatedStoswKeepsCompletedIterations := by
  unfold Obligations.RepeatedStoswKeepsCompletedIterations
  intro s k hrep hwf hk hfit hcut
  obtain ⟨t, hloop, hfilled, -, hcx, hdi, hrest, -⟩ := stosLoop_spec k s hwf hk.le hfit
  obtain ⟨regs, bus, rfl⟩ : ∃ regs bus, t = { s with regs := regs, bus := bus } := ⟨_, _, hrest⟩
  obtain ⟨m, hm⟩ := Nat.exists_eq_add_of_lt hk
  have haddr : addrStos { s with regs := regs, bus := bus } =
      physAddr s.sregs.es (s.regs.di + BitVec.ofNat 16 (2 * k)) := congrArg (physAddr s.sregs.es) hdi
  have hview : stosView { s with regs := regs, bus := bus } 0 = stosView s k :=
    (stosView_zero _).trans (congrArg (resolve s.cfg · 2) haddr)
  have hleft : 0 < regs.cx.toNat := (Nat.sub_pos_of_lt hk).trans_eq hcx.symm
  have hend := stosLoop_of_cut m hleft (hview ▸ hcut)
  rw [← hloop, ← Nat.add_assoc, ← hm, haddr] at hend
  have h : exec .stosw s = raise (.noMem (physAddr s.sregs.es (s.regs.di + BitVec.ofNat 16 (2 * k))))
      { s with regs := regs, bus := bus } := by
    rw [exec_stosw, execStosw_of_repeated hrep, hend]
  exact ⟨_, h, rfl, hfilled, hcx, hdi, rfl, rfl, rfl, (exec_wrote rfl h).frame, rfl⟩

end Sys2Proof.Machine

/-! ### NOP, port output, flag control -/

namespace Sys2Proof.Machine

theorem exec_nop (s : State) : exec .nop s = .next (finish 1 s) := rfl

theorem exec_outImmAl (port : Byte) (s : State) :
    exec (.outImmAl port) s = .next (finish 2 (portWrite (port.setWidth 16) s)) := rfl

theorem exec_outDxAl (s : State) : exec .outDxAl s = .next (finish 1 (portWrite s.regs.dx s)) := rfl

theorem exec_cli (s : State) : exec .cli s = .next (finish 1 (setFlags (withFlag .interrupt false s.flags) s)) := rfl

theorem exec_cld (s : State) : exec .cld s = .next (finish 1 (setFlags (withFlag .direction false s.flags) s)) := rfl

/-- A port write hands out one event, the port and AL, and leaves the rest alone (45_system_io.md R211, R212). -/
theorem portWrite_completes {i : Instr} (hi : i.isRsp = false) {n : Nat} {port : Word} {s : State}
    (hexec : exec i s = .next (finish n (portWrite port s))) :
    ∃ t, exec i s = .next t ∧ Emits [.ioWrite port (s.regs.getByte .al)] s t ∧
      Frame (regTargets i) (sregTargets i) (flagTargets i) s t ∧ Completed (s.ip + BitVec.ofNat 16 n) t ∧
      SameMemory s t :=
  ⟨_, hexec, emit_out _ _, (exec_wrote hi hexec).frame, ⟨rfl, rfl, rfl, rfl⟩, fun _ _ => rfl, rfl⟩

/-- An instruction that clears a flag leaves it clear and leaves the rest alone (45_system_io.md R213, R214). -/
theorem clearFlag_completes {i : Instr} (hi : i.isRsp = false) {n : Nat} {f : Flag} {s : State}
    (hexec : exec i s = .next (finish n (setFlags (withFlag f false s.flags) s))) :
    ∃ t, exec i s = .next t ∧ flagOf f t.flags = false ∧ Frame (regTargets i) (sregTargets i) (flagTargets i) s t ∧
      Completed (s.ip + BitVec.ofNat 16 n) t ∧ SameMemory s t ∧ t.out = s.out :=
  ⟨_, hexec, flagOf_withFlag_same _ _ _, frame_of_finish hi hexec rfl rfl rfl⟩

/-- Settles O30: NOP is the epilogue alone, both forms of OUT are one port write, CLI and CLD clear one flag each. -/
theorem nopOutCliCld : Obligations.NopOutCliCld := by
  unfold Obligations.NopOutCliCld
  intro s port
  refine ⟨⟨_, exec_nop s, frame_of_finish rfl (exec_nop s) rfl rfl rfl⟩, ?_, ?_, ?_, ?_⟩
  · exact portWrite_completes rfl (exec_outImmAl port s)
  · exact portWrite_completes rfl (exec_outDxAl s)
  · exact clearFlag_completes rfl (exec_cli s)
  · exact clearFlag_completes rfl (exec_cld s)

end Sys2Proof.Machine

/-! ### The verbs of the RSP engine -/

namespace Sys2Proof.Machine

/-- The state a handler is called in differs from the state of the packet in the receive machine and the transmission
only (46_rsp_framer.md R227). -/
theorem acked_of_accepted {s : State} (h : (tx ackBytes s).sess = .accepted) :
    ∃ k o, acked s = { s with rx := .idle, txRoom := k, out := o } := by
  unfold acked
  obtain ht | ⟨k, ht⟩ | ⟨k, ht⟩ := tx_cases ackBytes s <;> rw [ht] at h ⊢
  · exact ⟨_, _, rfl⟩
  · exact ⟨k, _, rfl⟩
  · cases h

/-- A service depends on its handler in the state after the `+` only. -/
theorem serve_congr {handler handler' : State → Result} {s : State}
    (h : (tx ackBytes s).sess = .accepted → handler (acked s) = handler' (acked s)) :
    serve handler s = serve handler' s := by
  unfold serve
  cases hs : (tx ackBytes s).sess
  · rfl
  · exact h hs

/-- What a verb's service says after its `+`: the log line where its slot is missing (log 18), the payload of the reply,
and the memory bus it leaves. -/
structure Reply where
  payload : List Byte
  missing : Option Slot
  bus : Bus

namespace Reply

/-- The reply `payload` of a verb that goes through a slot, or the empty one where the slot is absent
(46_rsp_framer.md R228 to R230; log 18). -/
def ofSlot (slot : Slot) (payload : List Byte) (bus : Bus) (s : State) : Reply :=
  match hasSlot s.cfg.slots slot with
  | true => ⟨payload, none, bus⟩
  | false => ⟨[], some slot, s.bus⟩

/-- The log line of a missing slot. -/
def log (a : Reply) : List Output := (a.missing.map Output.unsupported).toList

/-- Handing out the reply, after the `+`. -/
def transmit (a : Reply) (s : State) : State :=
  tx (frame a.payload) { s with bus := a.bus, out := s.out ++ a.log }

/-- All that the service hands out to a client that takes everything. -/
def outputs (a : Reply) : List Output := Output.tx ackBytes :: (a.log ++ [.tx (frame a.payload)])

/-- The state after the service, for a client that takes everything. -/
def answered (a : Reply) (s : State) : State :=
  { s with rx := .idle, bus := a.bus, out := s.out ++ a.outputs }

theorem ofSlot_of_present (slot : Slot) {s : State} (h : hasSlot s.cfg.slots slot = true) (payload : List Byte)
    (bus : Bus) : ofSlot slot payload bus s = ⟨payload, none, bus⟩ := by
  rw [ofSlot, h]

theorem ofSlot_of_absent (slot : Slot) {s : State} (h : hasSlot s.cfg.slots slot = false) (payload : List Byte)
    (bus : Bus) : ofSlot slot payload bus s = ⟨[], some slot, s.bus⟩ := by
  rw [ofSlot, h]

/-- A slot verb that reads no memory leaves the bus as it is. -/
theorem ofSlot_bus (slot : Slot) (payload : List Byte) (s : State) : (ofSlot slot payload s.bus s).bus = s.bus := by
  unfold ofSlot
  split <;> rfl

theorem outputs_of_present (slot : Slot) {s : State} (h : hasSlot s.cfg.slots slot = true) (payload : List Byte)
    (bus : Bus) : (ofSlot slot payload bus s).outputs = [.tx ackBytes, .tx (frame payload)] := by
  rw [ofSlot_of_present slot h]
  rfl

theorem outputs_of_absent (slot : Slot) {s : State} (h : hasSlot s.cfg.slots slot = false) (payload : List Byte)
    (bus : Bus) : (ofSlot slot payload bus s).outputs = [.tx ackBytes, .unsupported slot, .tx (frame [])] := by
  rw [ofSlot_of_absent slot h]
  rfl

theorem transmit_of_present (payload : List Byte) (bus : Bus) (s : State) :
    transmit ⟨payload, none, bus⟩ s = tx (frame payload) { s with bus := bus } := by
  simp [transmit, log]

theorem transmit_of_open (a : Reply) {s : State} (hs : s.sess = .accepted) (hr : s.txRoom = none) :
    a.transmit s = { s with bus := a.bus, out := s.out ++ a.log ++ [.tx (frame a.payload)] } :=
  tx_of_open _ hs hr

end Reply

/-- The reply of each verb (46_rsp_framer.md R228 to R231); `g` has none where its dump is refused (log 13). -/
inductive Replies (s : State) : Instr → Reply → Prop
  | question : Replies s .rspQuestion (.ofSlot .question s.cfg.stopStatus s.bus s)
  | getRegs (p : List Byte) (h : s.cfg.slots.getRegs = true → getRegs s = some p) :
    Replies s .rspGetRegs (.ofSlot .getRegs p s.bus s)
  | readMem :
    Replies s .rspReadMem
      (.ofSlot .readMem (readMemory s.accAddr s.accLen s).1 (readMemory s.accAddr s.accLen s).2.bus s)
  | unknown (v : Byte) : Replies s (.rspUnknown v) ⟨[], none, s.bus⟩

/-- The service of a slot's verb transmits its reply, when its handler does so through the slot that is there. -/
theorem serveSlot_transmits {slot : Slot} {handler : State → Result} {payload : List Byte} {bus : Bus} {s : State}
    (h : (tx ackBytes s).sess = .accepted → hasSlot s.cfg.slots slot = true →
      handler (acked s) = .next (tx (frame payload) { acked s with bus := bus })) :
    serveSlot slot handler s = serve (fun u => .next ((Reply.ofSlot slot payload bus s).transmit u)) s := by
  refine serve_congr fun hs => ?_
  obtain ⟨k, o, hu⟩ := acked_of_accepted hs
  cases hslot : hasSlot s.cfg.slots slot
  · rw [Reply.ofSlot_of_absent slot hslot, withSlot_of_absent _ _ (by rw [hu]; exact hslot), hu]
    rfl
  · rw [Reply.ofSlot_of_present slot hslot, withSlot_of_present _ _ (by rw [hu]; exact hslot),
      Reply.transmit_of_present]
    exact h hs hslot

/-- Every verb is one service that transmits its reply. -/
theorem exec_of_replies {i : Instr} {s : State} {a : Reply} (h : Replies s i a) :
    exec i s = serve (fun u => .next (a.transmit u)) s := by
  cases h with
  | question =>
    refine serveSlot_transmits fun hs _ => ?_
    obtain ⟨k, o, hu⟩ := acked_of_accepted hs
    rw [hu]
    rfl
  | getRegs p hp =>
    refine serveSlot_transmits fun hs hslot => ?_
    obtain ⟨k, o, hu⟩ := acked_of_accepted hs
    simp only [getRegs_acked, hp hslot]
    rw [hu]
  | readMem =>
    refine serveSlot_transmits fun hs _ => ?_
    obtain ⟨k, o, hu⟩ := acked_of_accepted hs
    rw [hu]
    rfl
  | unknown v =>
    refine serve_congr (handler := fun u => .next (emptyReply u)) fun hs => ?_
    obtain ⟨k, o, hu⟩ := acked_of_accepted hs
    rw [Reply.transmit_of_present, hu]
    rfl

/-- Without a length no 64-bit dump is given (47_debug_bridge.md R262; log 13). -/
theorem rspGetRegs_refused {s : State} (hs : s.sess = .accepted) (hr : s.txRoom = none)
    (hslot : s.cfg.slots.getRegs = true) (hwidth : s.cfg.regWidth = .w64) (hlen : s.cfg.dump64Len = none) :
    exec .rspGetRegs s = .refused .dump64LenOpen :=
  ((execRspGetRegs_stops hs).2 _).2 ⟨rfl, ⟨hwidth, hlen, hslot⟩, by rw [hr]; nofun⟩

/-- A verb whose service answers a next state has a reply: `g` is refused without one (47_debug_bridge.md R262). -/
theorem replies_of_exec {i : Instr} (hi : i.isRsp = true) {s t : State} (hs : s.sess = .accepted)
    (hr : s.txRoom = none) (h : exec i s = .next t) : ∃ a, Replies s i a := by
  cases i with
  | rspQuestion => exact ⟨_, .question⟩
  | rspGetRegs =>
    cases hg : getRegs s with
    | some p => exact ⟨_, .getRegs p fun _ => hg⟩
    | none =>
      refine ⟨_, .getRegs [] fun hslot => ?_⟩
      obtain ⟨hwidth, hlen⟩ := (getRegs_eq_none_iff s).1 hg
      cases h.symm.trans (rspGetRegs_refused hs hr hslot hwidth hlen)
  | rspReadMem => exact ⟨_, .readMem⟩
  | rspUnknown v => exact ⟨_, .unknown v⟩
  | _ => cases hi

/-- In an open session a verb's service hands out one `+` and its reply and does nothing else. -/
theorem exec_of_open {i : Instr} {s : State} {a : Reply} (hs : s.sess = .accepted) (hr : s.txRoom = none)
    (h : Replies s i a) : exec i s = .next (a.answered s) := by
  rw [exec_of_replies h, serve_of_open _ hs hr, Reply.transmit_of_open]
  · simp [emit, Reply.answered, Reply.outputs]
  · exact hs
  · exact hr

/-- The verb `g` has a reply wherever it is not refused (46_rsp_framer.md R229; 47_debug_bridge.md R262). -/
theorem getRegs_of_not_refused {s : State}
    (h : s.cfg.slots.getRegs = false ∨ s.cfg.regWidth = .w32 ∨ s.cfg.dump64Len ≠ none) :
    ∃ p, s.cfg.slots.getRegs = true → getRegs s = some p := by
  cases hg : getRegs s with
  | some p => exact ⟨p, fun _ => rfl⟩
  | none =>
    obtain ⟨hwidth, hlen⟩ := (getRegs_eq_none_iff s).1 hg
    obtain habsent | hwidth' | hlen' := h
    · exact ⟨[], fun hslot => by cases habsent.symm.trans hslot⟩
    · cases hwidth.symm.trans hwidth'
    · exact absurd hlen hlen'

/-- The engine changes no byte of memory. -/
theorem EngineOnly.sameBytes {s t : State} (h : EngineOnly s t) : SameBytes s t := by
  intro r k
  rw [h.bytes]
  cases r <;> rfl

/-- Settles O42: the replies of both verbs leave the memory bus as it is. -/
theorem questionAndUnknownVerbsReply : Obligations.QuestionAndUnknownVerbsReply := by
  unfold Obligations.QuestionAndUnknownVerbsReply
  intro s v hs hr
  refine ⟨fun hslot => ?_, fun hslot => ?_, exec_of_open hs hr (.unknown v)⟩
  · rw [exec_of_open hs hr .question, Reply.ofSlot_of_present .question hslot]
    rfl
  · rw [exec_of_open hs hr .question, Reply.ofSlot_of_absent .question hslot]
    rfl

/-- Settles O43: the reply is the dump wherever the verb is not refused. -/
theorem getRegsVerbReplies : Obligations.GetRegsVerbReplies := by
  unfold Obligations.GetRegsVerbReplies
  intro s hs hr
  refine ⟨fun hopen => ?_, rspGetRegs_refused hs hr⟩
  obtain ⟨p, hp⟩ := getRegs_of_not_refused hopen
  have h := exec_of_open hs hr (.getRegs p hp)
  have hbus := Reply.ofSlot_bus .getRegs p s
  have hengine := exec_engineOnly rfl h
  exact ⟨_, h,
    fun hslot => ⟨p, hp hslot, congrArg (s.out ++ ·) (Reply.outputs_of_present .getRegs hslot _ _)⟩,
    fun hslot => congrArg (s.out ++ ·) (Reply.outputs_of_absent .getRegs hslot _ _),
    rfl, hs, hengine.cpu, ⟨hengine.sameBytes, congrArg Bus.scrLen hbus⟩, hengine.control⟩

/-- Settles O44: the reply is the dump of the accumulators' bytes, and reading grows the scratch buffer at most. -/
theorem readMemVerbReplies : Obligations.ReadMemVerbReplies := by
  unfold Obligations.ReadMemVerbReplies
  intro s hs hr
  have h := exec_of_open hs hr .readMem
  have hengine := exec_engineOnly rfl h
  exact ⟨_, h,
    fun hslot => congrArg (s.out ++ ·) (Reply.outputs_of_present .readMem hslot _ _),
    fun hslot => congrArg (s.out ++ ·) (Reply.outputs_of_absent .readMem hslot _ _),
    rfl, hs, hengine.cpu, hengine.sameBytes, hengine.control⟩

/-! ### Receiving a packet -/

/-- The last trailer byte carries out the verb, whether the checksum is right or wrong (46_rsp_framer.md R227, R232). -/
theorem rxByte_trailer1 {v : Verb} {s : State} (h : s.rx = .trailer1 v) (b : Byte) : rxByte b s = exec v.instr s := by
  simp [rxByte, h, rxTrailer1]

theorem rxByte_skipTrailer1 {s : State} (h : s.rx = .skipTrailer1) (b : Byte) :
    rxByte b s = exec (.rspUnknown s.csum) s := by
  simp [rxByte, h]

/-- Settles O9, by the two last states of the receive machine. -/
theorem stepServicesVerb : Obligations.StepServicesVerb := by
  unfold Obligations.StepServicesVerb
  intro s b rest hwire hs
  rw [step_of_rx hwire hs]
  exact ⟨fun v hrx => rxByte_trailer1 (s := { s with wire := rest }) hrx b, fun hrx =>
    rxByte_skipTrailer1 (s := { s with wire := rest }) hrx b⟩

/-- The receive machine's own registers (46_rsp_framer.md R225). -/
structure Parser where
  rx : RxState
  csum : Byte
  accAddr : DWord
  accLen : DWord
  t0 : Byte

def State.parser (s : State) : Parser := ⟨s.rx, s.csum, s.accAddr, s.accLen, s.t0⟩

/-- The block `s` with the receive machine at `p` and the events `w` waiting. -/
def State.withParser (s : State) (p : Parser) (w : List WireEvent) : State :=
  { s with rx := p.rx, csum := p.csum, accAddr := p.accAddr, accLen := p.accLen, t0 := p.t0, wire := w }

/-- The engine takes the next wire event, in an open session. -/
def State.listens (s : State) : Prop := s.calls = [] ∧ s.run = .idle ∧ s.sess = .accepted

/-- Receiving `bytes`, one a step, takes the receive machine of the block `s` from `p` to `q` and does nothing else. -/
def Reads (s : State) (bytes : List Byte) (p q : Parser) : Prop :=
  ∀ k w, steps (bytes.length + k) (s.withParser p (bytes.map WireEvent.rx ++ w)) = steps k (s.withParser q w)

namespace Reads

variable {s : State} {p q r : Parser} {xs ys : List Byte}

theorem nil (p : Parser) : Reads s [] p p := by
  intro k w
  rw [List.length_nil, Nat.zero_add]
  rfl

theorem append (h : Reads s xs p q) (h' : Reads s ys q r) : Reads s (xs ++ ys) p r := by
  intro k w
  rw [List.length_append, Nat.add_assoc, List.map_append, List.append_assoc, h, h']

theorem cons {b : Byte} (hs : s.listens) (hb : ∀ w, rxByte b (s.withParser p w) = .next (s.withParser q w))
    (h : Reads s ys q r) : Reads s (b :: ys) p r := by
  intro k w
  obtain ⟨hcalls, hrun, hsess⟩ := hs
  have hstep : step (s.withParser p (.rx b :: (ys.map WireEvent.rx ++ w))) =
      .next (s.withParser q (ys.map WireEvent.rx ++ w)) :=
    (step_of_rx (s := s.withParser p (.rx b :: (ys.map WireEvent.rx ++ w))) ⟨hcalls, hrun, rfl⟩ hsess).trans (hb _)
  rw [List.length_cons, Nat.add_right_comm]
  exact (steps_succ _ hstep).trans (h k w)

/-- A run of bytes each of which the receive machine takes by the same rule `f` on its registers. -/
theorem foldl {α : Type} (hs : s.listens) (parser : α → Parser) (f : α → Byte → α) (hf : ∀ b ∈ xs, ∀ a w,
    rxByte b (s.withParser (parser a) w) = .next (s.withParser (parser (f a b)) w)) (a : α) :
    Reads s xs (parser a) (parser (xs.foldl f a)) := by
  induction xs generalizing a with
  | nil => exact nil _
  | cons b xs ih =>
    obtain ⟨hb, hxs⟩ := List.forall_mem_cons.1 hf
    exact cons hs (hb a) (ih hxs (f a b))

/-- The step that takes the last byte of a packet. -/
theorem last {y : Byte} {rest : List WireEvent} (hs : s.listens) (h : Reads s xs s.parser q)
    (hw : s.wire = (xs ++ [y]).map WireEvent.rx ++ rest) :
    steps (xs.length + 1) s = rxByte y (s.withParser q rest) := by
  obtain ⟨hcalls, hrun, hsess⟩ := hs
  have hstart : s = s.withParser s.parser (xs.map WireEvent.rx ++ .rx y :: rest) := by
    rw [List.map_append, List.append_assoc] at hw
    exact congrArg (s.withParser s.parser) hw
  have hstep : step (s.withParser q (.rx y :: rest)) = rxByte y (s.withParser q rest) :=
    step_of_rx (s := s.withParser q (.rx y :: rest)) ⟨hcalls, hrun, rfl⟩ hsess
  conv_lhs => rw [hstart]
  rw [h 1, steps, hstep]
  cases rxByte y (s.withParser q rest) <;> rfl

end Reads

end Sys2Proof.Machine

/-! ### Whole packets -/

namespace Sys2Proof.Machine

/-- One hex digit of an argument of `m`: the accumulator and the checksum take it in (46_rsp_framer.md R230). -/
def takeDigit (a : DWord × Byte) (b : Byte) : DWord × Byte := (pushDigit a.1 ((hexValue b).getD 0), a.2 + b)

/-- A run of digits leaves its value in the accumulator. -/
theorem fst_foldl_takeDigit (digits : List Byte) (c : Byte) : (digits.foldl takeDigit (0#32, c)).1 = hexRun digits :=
  (List.foldl_hom Prod.fst fun _ _ => rfl).symm

/-- A byte that is no known verb opens an unknown packet (46_rsp_framer.md R226, R231). -/
theorem decodeVerb_of_unknown {v : Byte} (h : v ∉ knownVerbs) : decodeVerb v = .rspUnknown v := by
  simp only [knownVerbs, List.mem_cons, List.not_mem_nil, or_false, not_or] at h
  obtain ⟨hquestion, hgetRegs, hreadMem⟩ := h
  rw [decodeVerb, if_neg hquestion, if_neg hgetRegs, if_neg hreadMem]

theorem State.parser_of_idle {s : State} (h : s.rx = .idle) :
    s.parser = ⟨.idle, s.csum, s.accAddr, s.accLen, s.t0⟩ := by
  rw [parser, h]

namespace Reads

variable {s : State}

/-- The packets of `?` and `g`, up to their first trailer byte (46_rsp_framer.md R226, R227). -/
theorem plain_packet (hs : s.listens) (hrx : s.rx = .idle) {verb : Byte} {v : Verb}
    (hv : verb = 0x3F#8 ∧ v = .question ∨ verb = 0x67#8 ∧ v = .getRegs) (x : Byte) :
    Reads s [0x24#8, verb, 0x23#8, x] s.parser ⟨.trailer1 v, verb, s.accAddr, s.accLen, x⟩ := by
  rw [State.parser_of_idle hrx]
  refine .cons (q := ⟨.verb, s.csum, s.accAddr, s.accLen, s.t0⟩) hs (fun _ => rfl) <|
    .cons (q := ⟨.delim v, verb, s.accAddr, s.accLen, s.t0⟩) hs (fun _ => ?_) <|
    .cons (q := ⟨.trailer0 v, verb, s.accAddr, s.accLen, s.t0⟩) hs (fun _ => rfl) <|
    .cons hs (fun _ => rfl) (.nil _)
  obtain ⟨rfl, rfl⟩ | ⟨rfl, rfl⟩ := hv <;> rfl

/-- The first argument of `m` (46_rsp_framer.md R230). -/
theorem addr_digits (hs : s.listens) {digits : List Byte} (h : ∀ b ∈ digits, (hexValue b).isSome = true)
    (c : Byte) (l : DWord) (t : Byte) :
    Reads s digits ⟨.mAddr, c, 0#32, l, t⟩ ⟨.mAddr, (digits.foldl takeDigit (0#32, c)).2, hexRun digits, l, t⟩ := by
  rw [← fst_foldl_takeDigit digits c]
  refine foldl hs (fun a : DWord × Byte => ⟨.mAddr, a.2, a.1, l, t⟩) takeDigit (fun b hb a w => ?_) (0#32, c)
  obtain ⟨d, hd⟩ := Option.isSome_iff_exists.1 (h b hb)
  simp [rxByte, State.withParser, rxMAddr, hd, takeDigit]

/-- The second argument of `m` (46_rsp_framer.md R230). -/
theorem len_digits (hs : s.listens) {digits : List Byte} (h : ∀ b ∈ digits, (hexValue b).isSome = true)
    (c : Byte) (a : DWord) (t : Byte) :
    Reads s digits ⟨.mLen, c, a, 0#32, t⟩ ⟨.mLen, (digits.foldl takeDigit (0#32, c)).2, a, hexRun digits, t⟩ := by
  rw [← fst_foldl_takeDigit digits c]
  refine foldl hs (fun l : DWord × Byte => ⟨.mLen, l.2, a, l.1, t⟩) takeDigit (fun b hb l w => ?_) (0#32, c)
  obtain ⟨d, hd⟩ := Option.isSome_iff_exists.1 (h b hb)
  simp [rxByte, State.withParser, rxMLen, hd, takeDigit]

/-- The packet of `m`, up to its first trailer byte: the accumulators hold what the digit runs denote
(46_rsp_framer.md R230). -/
theorem readMem_packet (hs : s.listens) (hrx : s.rx = .idle) {addr len : List Byte}
    (h : ∀ b ∈ addr ++ len, (hexValue b).isSome = true) (x : Byte) :
    ∃ c, Reads s ([0x24#8, 0x6D#8] ++ addr ++ [0x2C#8] ++ len ++ [0x23#8, x]) s.parser
      ⟨.trailer1 .readMem, c, hexRun addr, hexRun len, x⟩ := by
  rw [State.parser_of_idle hrx]
  obtain ⟨haddr, hlen⟩ := List.forall_mem_append.1 h
  have hverb : Reads s [0x24#8, 0x6D#8] ⟨.idle, s.csum, s.accAddr, s.accLen, s.t0⟩ ⟨.mAddr, 0x6D#8, 0#32, 0#32, s.t0⟩ :=
    .cons (q := ⟨.verb, s.csum, s.accAddr, s.accLen, s.t0⟩) hs (fun _ => rfl) <| .cons hs (fun _ => rfl) (.nil _)
  have hcomma (c : Byte) : Reads s [0x2C#8] ⟨.mAddr, c, hexRun addr, 0#32, s.t0⟩
      ⟨.mLen, c + 0x2C#8, hexRun addr, 0#32, s.t0⟩ := .cons hs (fun _ => rfl) (.nil _)
  have hend (c : Byte) : Reads s [0x23#8, x] ⟨.mLen, c, hexRun addr, hexRun len, s.t0⟩
      ⟨.trailer1 .readMem, c, hexRun addr, hexRun len, x⟩ :=
    .cons (q := ⟨.trailer0 .readMem, c, hexRun addr, hexRun len, s.t0⟩) hs (fun _ => rfl) <|
      .cons hs (fun _ => rfl) (.nil _)
  exact ⟨_, (((hverb.append (addr_digits hs haddr _ _ _)).append (hcomma _)).append (len_digits hs hlen _ _ _)).append
    (hend _)⟩

/-- A packet of an unknown verb, up to its first trailer byte: everything before the first `#` is skipped
(46_rsp_framer.md R231). -/
theorem unknown_packet (hs : s.listens) (hrx : s.rx = .idle) {v : Byte} (hv : v ∉ knownVerbs) {skipped : List Byte}
    (h : 0x23#8 ∉ skipped) (x : Byte) :
    Reads s ([0x24#8, v] ++ skipped ++ [0x23#8, x]) s.parser ⟨.skipTrailer1, v, s.accAddr, s.accLen, s.t0⟩ := by
  rw [State.parser_of_idle hrx]
  have hverb : Reads s [0x24#8, v] ⟨.idle, s.csum, s.accAddr, s.accLen, s.t0⟩
      ⟨.skip, v, s.accAddr, s.accLen, s.t0⟩ := by
    refine .cons (q := ⟨.verb, s.csum, s.accAddr, s.accLen, s.t0⟩) hs (fun _ => rfl) <| .cons hs (fun _ => ?_) (.nil _)
    simp [rxByte, State.withParser, rxVerb, decodeVerb_of_unknown hv]
  have hskip : Reads s skipped ⟨.skip, v, s.accAddr, s.accLen, s.t0⟩ ⟨.skip, v, s.accAddr, s.accLen, s.t0⟩ := by
    refine foldl hs (fun _ : Unit => ⟨.skip, v, s.accAddr, s.accLen, s.t0⟩) (fun a _ => a) (fun b hb _ w => ?_) ()
    have hb' : b ≠ 0x23#8 := ne_of_mem_of_not_mem hb h
    simp [rxByte, State.withParser, hb']
  exact (hverb.append hskip).append <|
    .cons (q := ⟨.skipTrailer0, v, s.accAddr, s.accLen, s.t0⟩) hs (fun _ => rfl) <| .cons hs (fun _ => rfl) (.nil _)

/-- In an open session the last byte of a packet, which carries out the verb `i`, draws its reply. -/
theorem answered {bytes : List Byte} {q : Parser} {i : Instr} {a : Reply} {y : Byte} {rest : List WireEvent}
    (hs : s.listens) (hr : s.txRoom = none) (h : Reads s bytes s.parser q)
    (hi : rxByte y (s.withParser q rest) = exec i (s.withParser q rest))
    (hw : s.wire = (bytes ++ [y]).map WireEvent.rx ++ rest) (ha : Replies (s.withParser q rest) i a) :
    steps (bytes.length + 1) s = .next (a.answered (s.withParser q rest)) := by
  have ⟨_, _, hsess⟩ := hs
  rw [last hs h hw, hi]
  exact exec_of_open hsess hr ha

end Reads

/-- No verb's reply changes a byte of memory. -/
theorem Replies.sameBytes {i : Instr} {s : State} {a : Reply} (h : Replies s i a) (hs : s.sess = .accepted)
    (hr : s.txRoom = none) : SameBytes s (a.answered s) :=
  (exec_engineOnly (by cases h <;> rfl) (exec_of_open hs hr h)).sameBytes

/-- A block that has received and answered a packet has the CPU it had before. -/
theorem sameCpu_answered (a : Reply) (s : State) (q : Parser) (rest : List WireEvent) :
    SameCpu s (a.answered (s.withParser q rest)) := ⟨rfl, rfl, rfl, rfl, rfl, rfl, rfl⟩

theorem sameMemory_answered {a : Reply} {s : State} (h : a.bus = s.bus) (q : Parser) (rest : List WireEvent) :
    SameMemory s (a.answered (s.withParser q rest)) :=
  ⟨fun r k => congrArg (·.get r k) h, congrArg Bus.scrLen h⟩

/-- Settles O45: four bytes lead to the last trailer byte, which draws the reply of the verb. -/
theorem questionAndRegistersPacketsAreServiced : Obligations.QuestionAndRegistersPacketsAreServiced := by
  unfold Obligations.QuestionAndRegistersPacketsAreServiced
  intro s x y rest hcalls hrun hsess hrx hr
  have hs : s.listens := ⟨hcalls, hrun, hsess⟩
  refine ⟨fun hw => ?_, fun hw hopen => ?_⟩
  · have hreads := Reads.plain_packet hs hrx (.inl ⟨rfl, rfl⟩) x
    have h := hreads.answered hs hr (rxByte_trailer1 rfl y) hw .question
    exact ⟨_, h, rfl, rfl, sameCpu_answered _ _ _ _, sameMemory_answered (Reply.ofSlot_bus _ _ _) _ _,
      fun hslot => congrArg (s.out ++ ·) (Reply.outputs_of_present .question hslot _ _),
      fun hslot => congrArg (s.out ++ ·) (Reply.outputs_of_absent .question hslot _ _)⟩
  · obtain ⟨p, hp⟩ := getRegs_of_not_refused hopen
    have hreads := Reads.plain_packet hs hrx (.inr ⟨rfl, rfl⟩) x
    have h := hreads.answered hs hr (rxByte_trailer1 (v := .getRegs) rfl y) hw (.getRegs p hp)
    exact ⟨_, h, rfl, rfl, sameCpu_answered _ _ _ _, sameMemory_answered (Reply.ofSlot_bus _ _ _) _ _,
      fun hslot => ⟨p, hp hslot, congrArg (s.out ++ ·) (Reply.outputs_of_present .getRegs hslot _ _)⟩,
      fun hslot => congrArg (s.out ++ ·) (Reply.outputs_of_absent .getRegs hslot _ _)⟩

/-- Settles O46: the accumulators hold the two numbers when the last trailer byte comes. -/
theorem readMemPacketIsServiced : Obligations.ReadMemPacketIsServiced := by
  unfold Obligations.ReadMemPacketIsServiced
  intro s addr len x y rest hcalls hrun hsess hrx hr hdigits hw
  have hs : s.listens := ⟨hcalls, hrun, hsess⟩
  obtain ⟨c, hreads⟩ := Reads.readMem_packet hs hrx hdigits x
  have h := hreads.answered (y := y) hs hr (rxByte_trailer1 rfl y) (by simpa using hw) .readMem
  have hlen : ([0x24#8, 0x6D#8] ++ addr ++ [0x2C#8] ++ len ++ [0x23#8, x]).length + 1 =
      addr.length + len.length + 6 := by
    simp
    omega
  rw [hlen] at h
  have hsame := Replies.readMem.sameBytes (s := s.withParser ⟨.trailer1 .readMem, c, hexRun addr, hexRun len, x⟩ rest)
    hsess hr
  exact ⟨_, h, fun hslot => congrArg (s.out ++ ·) (Reply.outputs_of_present .readMem hslot _ _),
    fun hslot => congrArg (s.out ++ ·) (Reply.outputs_of_absent .readMem hslot _ _), rfl, rfl,
    sameCpu_answered _ _ _ _, hsame⟩

/-- Settles O47: up to its first trailer byte the packet is skipped, and its last draws the reply of an unknown verb. -/
theorem unknownPacketIsDiscarded : Obligations.UnknownPacketIsDiscarded := by
  unfold Obligations.UnknownPacketIsDiscarded
  intro s v x y skipped rest hcalls hrun hsess hrx hr hv hskipped hw
  have hs : s.listens := ⟨hcalls, hrun, hsess⟩
  have hreads := Reads.unknown_packet hs hrx hv hskipped x
  have h := hreads.answered (y := y) hs hr (rxByte_skipTrailer1 rfl y) (by simpa using hw) (.unknown v)
  have hlen : ([0x24#8, v] ++ skipped ++ [0x23#8, x]).length + 1 = skipped.length + 5 := by
    simp
  rw [hlen] at h
  exact ⟨_, h, rfl, rfl, rfl, sameCpu_answered _ _ _ _, sameMemory_answered rfl _ _, rfl, rfl⟩

end Sys2Proof.Machine

/-! ### The framer -/

namespace Sys2Proof.Machine

/-- The digit of a nibble is 0 to 9 or a to f, has the nibble's value, and is no framing byte (46_rsp_framer.md R224,
R240). -/
theorem hexDigit_spec : ∀ n : BitVec 4, hexValue (hexDigit n) = some n.toNat ∧
    ((0x30 ≤ (hexDigit n).toNat ∧ (hexDigit n).toNat ≤ 0x39) ∨
      (0x61 ≤ (hexDigit n).toNat ∧ (hexDigit n).toNat ≤ 0x66)) ∧
    hexDigit n ∉ framingBytes := by
  decide

theorem toNat_high_nibble (v : Byte) : (v.extractLsb' 4 4).toNat = v.toNat / 16 := by
  rw [BitVec.extractLsb'_toNat, Nat.shiftRight_eq_div_pow]
  omega

theorem toNat_low_nibble (v : Byte) : (v.extractLsb' 0 4).toNat = v.toNat % 16 := by
  rw [BitVec.extractLsb'_toNat, Nat.shiftRight_zero]

theorem toNat_foldl_add (p : List Byte) (a : Byte) :
    (p.foldl (fun acc b => acc + b) a).toNat = (a.toNat + (p.map BitVec.toNat).sum) % 256 := by
  induction p generalizing a with
  | nil =>
    simp only [List.foldl_nil, List.map_nil, List.sum_nil]
    omega
  | cons b p ih =>
    rw [List.foldl_cons, ih, BitVec.toNat_add, List.map_cons, List.sum_cons]
    omega

/-- Settles O41: the checksum by induction on the payload, the digits nibble by nibble. -/
theorem frameCarriesTheChecksum : Obligations.FrameCarriesTheChecksum := by
  unfold Obligations.FrameCarriesTheChecksum
  refine ⟨by decide, fun p => ⟨?_, ?_, fun v => ?_⟩⟩
  · rw [checksum, toNat_foldl_add]
    simp
  · simp [frame]
  · obtain ⟨hhigh, hhighRange, -⟩ := hexDigit_spec (v.extractLsb' 4 4)
    obtain ⟨hlow, hlowRange, -⟩ := hexDigit_spec (v.extractLsb' 0 4)
    rw [toNat_high_nibble] at hhigh
    rw [toNat_low_nibble] at hlow
    exact ⟨_, _, rfl, hhigh, hlow, List.forall_mem_cons.2 ⟨hhighRange, List.forall_mem_singleton.2 hlowRange⟩⟩

/-! ### Lead bytes, parse failures, sessions -/

/-- The byte `b` is an unrecognised lead byte or a parse failure (46_rsp_framer.md R233, R234). -/
def State.rejects (s : State) (b : Byte) : Prop :=
  s.rx = .idle ∧ b ≠ 0x2B#8 ∧ b ≠ 0x24#8 ∨ (∃ v, s.rx = .delim v) ∧ b ≠ 0x23#8 ∨
    s.rx = .mAddr ∧ hexValue b = none ∧ b ≠ 0x2C#8 ∨ s.rx = .mLen ∧ hexValue b = none ∧ b ≠ 0x23#8

theorem rxByte_of_rejects {s : State} {b : Byte} (h : s.rejects b) : rxByte b s = .next (rejectByte s) := by
  obtain ⟨hrx, hplus, hdollar⟩ | ⟨⟨v, hrx⟩, hhash⟩ | ⟨hrx, hdigit, hcomma⟩ | ⟨hrx, hdigit, hhash⟩ := h
  · simp [rxByte, hrx, rxIdle, hplus, hdollar]
  · simp [rxByte, hrx, rxDelim, hhash]
  · simp [rxByte, hrx, rxMAddr, hdigit, hcomma]
  · simp [rxByte, hrx, rxMLen, hdigit, hhash]

theorem step_of_rejects {s : State} {b : Byte} {rest : List WireEvent} (h : s.hears (.rx b) rest)
    (hs : s.sess = .accepted) (hb : s.rejects b) : step s = .next (rejectByte { s with wire := rest }) :=
  (step_of_rx h hs).trans (rxByte_of_rejects hb)

/-- Settles O48: a byte that is rejected draws the empty reply in IDLE. -/
theorem leadBytesAndParseFailures : Obligations.LeadBytesAndParseFailures := by
  unfold Obligations.LeadBytesAndParseFailures
  intro s b rest hwire hs hr
  refine ⟨fun hrx hb => ?_, fun hrx hb => ?_, fun hb => ?_⟩
  · rw [step_of_rx hwire hs, hb]
    simp [rxByte, hrx, rxIdle]
  · rw [step_of_rx hwire hs, hb]
    simp [rxByte, hrx, rxIdle]
  · rw [step_of_rejects hwire hs hb, rejectByte, emptyReply, tx_of_open]
    · rfl
    · exact hs
    · exact hr

/-- Settles O49, by the two transitions of the session. -/
theorem sessionTransitions : Obligations.SessionTransitions := by
  unfold Obligations.SessionTransitions
  intro s rest
  refine ⟨fun hwire hs => ?_, fun hwire hs => ?_, fun hwire => ?_⟩
  · rw [step_of_hears hwire]
    simp [receive, connect, hs]
  · rw [step_of_hears hwire]
    simp [receive, connect, hs]
  · exact ⟨_, step_of_hears hwire, rfl, rfl, rfl, rfl, rfl, rfl, ⟨rfl, rfl, rfl, rfl, rfl, rfl, rfl⟩,
      ⟨fun _ _ => rfl, rfl⟩, rfl, rfl⟩

/-! ### Short writes -/

/-- A client that takes `room` more bytes gets that much of a transmission; the session ends unless that is all of it
(46_rsp_framer.md R222, R242; log 10). -/
theorem tx_delivers {s : State} {room : Nat} (bytes : List Byte) (hs : s.sess = .accepted) (hr : s.txRoom = some room) :
    Emits [.tx (bytes.take room)] s (tx bytes s) ∧
      (room < bytes.length → (tx bytes s).sess = .listening ∧ (tx bytes s).rx = .idle) ∧
      (bytes.length ≤ room → (tx bytes s).sess = .accepted ∧ (tx bytes s).rx = s.rx) := by
  obtain hshort | hfits := Nat.lt_or_ge room bytes.length
  · rw [tx_of_short bytes hs hr hshort]
    exact ⟨rfl, fun _ => ⟨rfl, rfl⟩, fun h => absurd hshort h.not_gt⟩
  · rw [tx_of_room bytes hs hr hfits, List.take_of_length_le hfits]
    exact ⟨rfl, fun h => absurd hfits h.not_ge, fun _ => ⟨hs, rfl⟩⟩

/-- A client that takes no byte at all ends the session before the handler is called (46_rsp_framer.md R222). -/
theorem serve_of_no_room {s : State} (handler : State → Result) (hs : s.sess = .accepted) (hr : s.txRoom = some 0) :
    serve handler s = .next (hangup (emit (.tx []) s)) := by
  rw [serve, tx_of_short ackBytes hs hr (by decide)]
  rfl

/-- A client that takes a byte takes the `+`, and the handler goes on with the rest of its room. -/
theorem serve_of_room {s : State} {room : Nat} (handler : State → Result) (hs : s.sess = .accepted)
    (hr : s.txRoom = some (room + 1)) :
    serve handler s = handler { emit (.tx ackBytes) s with txRoom := some room, rx := .idle } := by
  rw [serve, tx_of_room ackBytes hs hr (by simp [ackBytes])]
  simp [emit, hs, ackBytes]

theorem txBytes_append (xs ys : List Output) : txBytes (xs ++ ys) = txBytes xs ++ txBytes ys := List.flatMap_append

/-- A log line is no transmission. -/
theorem Reply.txBytes_log (a : Reply) : txBytes a.log = [] := by
  unfold log
  cases a.missing <;> rfl

theorem Reply.txBytes_outputs (a : Reply) : txBytes a.outputs = ackBytes ++ frame a.payload := by
  show ackBytes ++ txBytes (a.log ++ [.tx (frame a.payload)]) = _
  rw [txBytes_append, txBytes_log]
  simp [txBytes]

/-- The reply of a verb does not depend on how much of it the client takes. -/
theorem Replies.of_txRoom {i : Instr} {s : State} {a : Reply} (h : Replies s i a) (k : Option Nat) :
    Replies { s with txRoom := k } i a := by
  cases h with
  | question => exact .question
  | getRegs p hp => exact .getRegs p hp
  | readMem => exact .readMem
  | unknown v => exact .unknown v

/-- A client that takes `room` bytes gets that much of a verb's `+` and reply. -/
theorem Replies.delivers {i : Instr} {s : State} {a : Reply} {room : Nat} (h : Replies s i a) (hs : s.sess = .accepted)
    (hr : s.txRoom = some room) :
    ∃ t new, exec i s = .next t ∧ Emits new s t ∧ txBytes new = (txBytes a.outputs).take room ∧
      (room < (txBytes a.outputs).length → t.sess = .listening ∧ t.rx = .idle) ∧
      ((txBytes a.outputs).length ≤ room → t.sess = .accepted ∧ t.rx = .idle) := by
  rw [exec_of_replies h, Reply.txBytes_outputs]
  cases room with
  | zero =>
    rw [serve_of_no_room _ hs hr]
    exact ⟨_, _, rfl, rfl, rfl, fun _ => ⟨rfl, rfl⟩, fun hfits => absurd hfits (by simp [ackBytes])⟩
  | succ room =>
    rw [serve_of_room _ hs hr]
    obtain ⟨hout, hshort, hfits⟩ := tx_delivers (room := room) (frame a.payload) (s :=
      { emit (.tx ackBytes) s with
        txRoom := some room, rx := .idle, bus := a.bus, out := s.out ++ [.tx ackBytes] ++ a.log }) hs rfl
    refine ⟨_, .tx ackBytes :: (a.log ++ [.tx ((frame a.payload).take room)]), rfl, hout.trans (by simp), ?_,
      fun hlt => hshort (Nat.lt_of_succ_lt_succ hlt), fun hle => hfits (Nat.le_of_succ_le_succ hle)⟩
    show ackBytes ++ txBytes (a.log ++ [.tx ((frame a.payload).take room)]) = _
    rw [txBytes_append, Reply.txBytes_log]
    simp [txBytes, ackBytes]

/-- Settles O50: a verb's `+` and reply, and the lone `$#00`, are delivered as far as the client takes them. -/
theorem shortWriteIsAHangup : Obligations.ShortWriteIsAHangup := by
  unfold Obligations.ShortWriteIsAHangup
  refine ⟨fun i s u new room hi hs hu hnew => ?_, fun s b rest room hwire hs hr hb => ?_⟩
  · obtain ⟨a, ha⟩ := replies_of_exec (s := { s with txRoom := none }) hi hs rfl hu
    cases hu.symm.trans (exec_of_open (s := { s with txRoom := none }) hs rfl ha)
    obtain rfl : a.outputs = new := List.append_cancel_left hnew
    obtain ⟨t, new', ht, hout, hbytes, hshort, hfits⟩ := (ha.of_txRoom (some room)).delivers hs rfl
    have hengine := exec_engineOnly hi ht
    exact ⟨t, new', ht, hout, hbytes, hshort, hfits, hengine.cpu, hengine.sameBytes⟩
  · have hengine := EngineOnly.rejectByte { s with wire := rest }
    obtain ⟨hout, hshort, hfits⟩ := tx_delivers (frame []) (s := { s with wire := rest, rx := .idle }) hs hr
    refine ⟨_, step_of_rejects hwire hs hb, hout, ?_, fun h => (hshort h).1, fun h => (hfits h).1, hengine.cpu,
      hengine.sameBytes⟩
    obtain h | h := Nat.lt_or_ge room (frame []).length
    · exact (hshort h).2
    · exact (hfits h).2

end Sys2Proof.Machine

/-! ### Everything transmitted is well framed -/

namespace Sys2Proof.Machine

theorem frameable_iff (p : List Byte) : frameable p = true ↔ ∀ b ∈ p, b ∉ framingBytes := by
  simp [frameable]

theorem frameable_append {p q : List Byte} (hp : frameable p = true) (hq : frameable q = true) :
    frameable (p ++ q) = true := by
  rw [frameable, List.all_append, Bool.and_eq_true]
  exact ⟨hp, hq⟩

theorem frameable_flatMap {α : Type} {f : α → List Byte} (h : ∀ x, frameable (f x) = true) (l : List α) :
    frameable (l.flatMap f) = true := by
  rw [frameable, List.all_flatMap, List.all_eq_true]
  exact fun x _ => h x

theorem frameable_zeros (n : Nat) : frameable (List.replicate n 0x30#8) = true := by
  rw [frameable_iff]
  intro b hb
  rw [List.eq_of_mem_replicate hb]
  decide

/-- Hex text holds no framing byte (46_rsp_framer.md R224, R240). -/
theorem frameable_hex2 (v : Byte) : frameable (hex2 v) = true := by
  obtain ⟨-, -, hhigh⟩ := hexDigit_spec (v.extractLsb' 4 4)
  obtain ⟨-, -, hlow⟩ := hexDigit_spec (v.extractLsb' 0 4)
  rw [frameable_iff]
  exact List.forall_mem_cons.2 ⟨hhigh, List.forall_mem_singleton.2 hlow⟩

theorem frameable_dump32 (s : State) : frameable (dump32 s) = true :=
  frameable_flatMap (fun _ => frameable_append (frameable_append (frameable_hex2 _) (frameable_hex2 _))
    (frameable_zeros 4)) (dumpValues s)

theorem frameable_getRegs {s : State} {p : List Byte} (h : getRegs s = some p) : frameable p = true := by
  unfold getRegs at h
  split at h
  · cases h
    exact frameable_dump32 s
  · obtain ⟨n, -, rfl⟩ := Option.map_eq_some_iff.1 h
    exact frameable_append (frameable_dump32 s) (frameable_zeros _)

/-- An admissible status string holds no framing byte (46_rsp_framer.md R240). -/
theorem Config.stopStatus_of_wf {cfg : Config} (h : cfg.wf = true) : frameable cfg.stopStatus = true := by
  simp only [Config.wf, Bool.and_eq_true] at h
  exact h.1.1.2

/-- Where the slot is absent the payload is empty. -/
theorem Reply.frameable_ofSlot (slot : Slot) {p : List Byte} {b : Bus} {s : State}
    (h : hasSlot s.cfg.slots slot = true → frameable p = true) : frameable (ofSlot slot p b s).payload = true := by
  cases hs : hasSlot s.cfg.slots slot
  · rw [ofSlot_of_absent slot hs]
    rfl
  · rw [ofSlot_of_present slot hs]
    exact h hs

/-- The payload of every verb's reply can be framed (46_rsp_framer.md R240). -/
theorem Replies.frameable {i : Instr} {s : State} {a : Reply} (h : Replies s i a) (hcfg : s.cfg.wf = true) :
    frameable a.payload = true := by
  cases h with
  | question => exact Reply.frameable_ofSlot .question fun _ => Config.stopStatus_of_wf hcfg
  | getRegs p hp => exact Reply.frameable_ofSlot .getRegs fun hs => frameable_getRegs (hp hs)
  | readMem => exact Reply.frameable_ofSlot .readMem fun _ => frameable_flatMap frameable_hex2 _
  | unknown v => rfl

/-- What `t` has transmitted beyond `s` are acknowledgements and well-formed frames. -/
def FramedSince (s t : State) : Prop :=
  ∃ new, Emits new s t ∧ ∀ bytes, Output.tx bytes ∈ new → wellFramed bytes

namespace FramedSince

variable {s t u : State}

theorem of_silent (h : t.out = s.out) : FramedSince s t :=
  ⟨[], by rw [Emits, h, List.append_nil], nofun⟩

theorem trans (h : FramedSince s t) (h' : FramedSince t u) : FramedSince s u := by
  obtain ⟨new, hnew, hframed⟩ := h
  obtain ⟨new', hnew', hframed'⟩ := h'
  refine ⟨new ++ new', by rw [Emits, hnew', hnew, List.append_assoc], fun bytes hb => ?_⟩
  exact (List.mem_append.1 hb).elim (hframed bytes) (hframed' bytes)

/-- An output that is no transmission. -/
theorem emit {o : Output} (h : ∀ bytes, o ≠ .tx bytes) (s : State) : FramedSince s (emit o s) :=
  ⟨[o], rfl, fun bytes hb => absurd (List.mem_singleton.1 hb).symm (h bytes)⟩

theorem endRun (s : State) : FramedSince s (endRun s) := emit (by nofun) { s with run := .idle }

theorem afterStep (s : State) : FramedSince s (afterStep s) := by
  unfold Machine.afterStep
  split
  · exact endRun s
  · split
    · exact endRun s
    · exact of_silent rfl
  · exact of_silent rfl
  · exact of_silent rfl

/-- The empty reply is a well-formed frame (46_rsp_framer.md R233). -/
theorem rejectByte (hs : s.sess = .accepted) (hr : s.txRoom = none) : FramedSince s (rejectByte s) := by
  refine ⟨[.tx (frame [])], ?_, fun bytes hb => .inr ⟨[], rfl, by simpa using hb⟩⟩
  rw [Machine.rejectByte, emptyReply, tx_of_open (s := { s with rx := .idle }) _ hs hr]
  rfl

end FramedSince

/-- A verb's `+` and reply are well framed. -/
theorem exec_framed {i : Instr} (hi : i.isRsp = true) {s t : State} (hcfg : s.cfg.wf = true) (hs : s.sess = .accepted)
    (hr : s.txRoom = none) (h : exec i s = .next t) : FramedSince s t := by
  obtain ⟨a, ha⟩ := replies_of_exec hi hs hr h
  cases h.symm.trans (exec_of_open hs hr ha)
  refine ⟨a.outputs, rfl, fun bytes hb => ?_⟩
  have hlog : Output.tx bytes ∉ a.log := by simp [Reply.log]
  simp only [Reply.outputs, List.mem_cons, List.mem_append, hlog, Output.tx.injEq, List.not_mem_nil, or_false,
    false_or] at hb
  exact hb.imp_right fun hframe => ⟨_, ha.frameable hcfg, hframe⟩

/-- A received byte is taken silently, rejected, or the last of a packet whose verb it carries out
(46_rsp_framer.md R226 to R234). -/
theorem rxByte_cases {b : Byte} {s t : State} (h : rxByte b s = .next t) :
    t.out = s.out ∨ t = rejectByte s ∨ ∃ i, i.isRsp = true ∧ exec i s = .next t := by
  cases hrx : s.rx with
  | trailer1 v =>
    rw [rxByte_trailer1 hrx] at h
    exact .inr (.inr ⟨_, by cases v <;> rfl, h⟩)
  | skipTrailer1 =>
    rw [rxByte_skipTrailer1 hrx] at h
    exact .inr (.inr ⟨_, rfl, h⟩)
  | idle | mAddr | mLen =>
    rw [rxByte, hrx] at h
    cases h
    simp only [rxIdle, rxMAddr, rxMLen]
    split
    · exact .inl rfl
    · split
      · exact .inl rfl
      · exact .inr (.inl rfl)
  | delim v =>
    rw [rxByte, hrx] at h
    cases h
    unfold rxDelim
    split
    · exact .inl rfl
    · exact .inr (.inl rfl)
  | verb =>
    rw [rxByte, hrx] at h
    cases h
    unfold rxVerb
    split <;> exact .inl rfl
  | skip =>
    rw [rxByte, hrx] at h
    cases h
    split <;> exact .inl rfl
  | trailer0 | skipTrailer0 =>
    rw [rxByte, hrx] at h
    cases h
    exact .inl rfl

/-- Whatever arrives on the wire, the engine transmits well-formed frames. -/
theorem receive_framed {e : WireEvent} {s t : State} (hcfg : s.cfg.wf = true) (hr : s.txRoom = none)
    (h : receive e s = .next t) : FramedSince s t := by
  cases e with
  | connect =>
    cases h
    refine .of_silent ?_
    unfold connect
    split <;> rfl
  | hangup =>
    cases h
    exact .of_silent rfl
  | shortWriteAfter k =>
    cases hs : s.sess <;> simp only [receive, hs] at h <;> cases h <;> exact .of_silent rfl
  | rx b =>
    cases hs : s.sess with
    | listening =>
      simp only [receive, hs] at h
      cases h
      exact .of_silent rfl
    | accepted =>
      simp only [receive, hs] at h
      obtain hout | rfl | ⟨i, hi, hexec⟩ := rxByte_cases h
      · exact .of_silent hout
      · exact .rejectByte hs hr
      · exact exec_framed hi hcfg hs hr hexec

/-- An instruction of the interpreter transmits nothing, and no more does a failed decode. -/
theorem interp_framed {s t : State} (h : interp s = .next t) : FramedSince s t := by
  cases hd : decode s.cfg (fetch s).1 with
  | ok i =>
    rw [interp_of_ok hd] at h
    obtain ⟨new, hnew, hquiet⟩ := (exec_wrote (decode_isRsp hd) h).quiet
    exact ⟨new, hnew, fun bytes hb => absurd hb (hquiet bytes)⟩
  | error e =>
    cases (interp_of_error hd).symm.trans h
    exact .of_silent rfl

theorem runLoopIteration_framed {s t : State} (h : runLoopIteration s = .next t) : FramedSince s t := by
  unfold runLoopIteration at h
  split at h
  · cases h
    exact .endRun s
  · obtain ⟨u, -, hu, -⟩ := interp_answers s
    rw [hu] at h
    cases h
    exact (interp_framed hu).trans (.afterStep u)

theorem advance_framed {s t : State} (hcfg : s.cfg.wf = true) (hr : s.txRoom = none) (h : advance s = .next t) :
    FramedSince s t := by
  unfold advance at h
  split at h
  · exact runLoopIteration_framed h
  · exact runLoopIteration_framed h
  · rename_i e rest _ _
    exact receive_framed (s := { s with wire := rest }) hcfg hr h
  · cases h
    exact .of_silent rfl

/-- A host call through a slot transmits nothing if the call itself does not: an absent slot leaves a log line. -/
theorem throughSlot_framed {slot : Slot} {call : State → Result} {s t : State}
    (hc : ∀ t, call s = .next t → FramedSince s t) (h : throughSlot slot call s = .next t) : FramedSince s t := by
  obtain ⟨-, h⟩ | rfl := throughSlot_cases h
  · exact hc t h
  · exact .emit (by nofun) s

/-- The host's calls transmit nothing; a quiet boundary lets the block advance. -/
theorem hostCall_framed {c : HostCall} {s t : State} (hcfg : s.cfg.wf = true) (hr : s.txRoom = none)
    (h : hostCall c s = .next t) : FramedSince s t := by
  cases c with
  | quiet => exact advance_framed hcfg hr h
  | kill | intr =>
    refine throughSlot_framed (fun t h => ?_) h
    cases h
    exact .of_silent rfl
  | stepi | cont =>
    refine throughSlot_framed (fun t h => ?_) h
    cases (exclusive_next h).2
    exact .of_silent rfl
  | question =>
    refine throughSlot_framed (fun t h => ?_) h
    cases h
    exact .emit (by nofun) s
  | getRegs =>
    refine throughSlot_framed (fun t h => ?_) h
    have hg := (exclusive_next h).2
    cases hp : getRegs s <;> simp only [hp] at hg <;> cases hg
    exact .emit (by nofun) s
  | readMem addr len =>
    refine throughSlot_framed (fun t h => ?_) h
    cases (exclusive_next h).2
    exact .emit (by nofun) (readMemory addr len s).2

/-- Settles O51: only the engine transmits, and what it transmits is a `+`, the empty reply or the reply of a verb. -/
theorem transmissionsAreWellFramed : Obligations.TransmissionsAreWellFramed := by
  unfold Obligations.TransmissionsAreWellFramed
  intro s t hcfg hr h
  unfold step blockStep at h
  split at h
  · rename_i c rest _
    exact hostCall_framed (s := { s with calls := rest }) hcfg hr h
  · exact advance_framed hcfg hr h

end Sys2Proof.Machine

/-! ### The dumps of the debug bridge -/

namespace Sys2Proof.Machine

/-- Where every item is written out at one width `k`, the text of item `i` stands at `k * i`. -/
theorem take_drop_flatMap {α β : Type} {f : α → List β} {k : Nat} (hf : ∀ x, (f x).length = k) {v : α} :
    ∀ {l : List α} {i : Nat}, l[i]? = some v → ((l.flatMap f).drop (k * i)).take k = f v
  | [], _, h => by cases h
  | _ :: _, 0, h => by
    cases h
    rw [List.flatMap_cons, Nat.mul_zero, List.drop_zero, List.take_left' (hf v)]
  | x :: _, i + 1, h => by
    rw [List.flatMap_cons, Nat.mul_succ, Nat.add_comm, ← List.drop_drop, List.drop_left' (hf x)]
    exact take_drop_flatMap hf h

theorem length_flatMap_of_width {α β : Type} {f : α → List β} {k : Nat} (hf : ∀ x, (f x).length = k) (l : List α) :
    (l.flatMap f).length = k * l.length := by
  simp [List.length_flatMap, hf, Nat.mul_comm]

theorem length_hex2 (v : Byte) : (hex2 v).length = 2 := rfl

theorem length_dumpField (v : Word) : (dumpField v).length = 8 := rfl

theorem length_dump32 (s : State) : (dump32 s).length = 128 := length_flatMap_of_width length_dumpField (dumpValues s)

theorem getRegs_of_w32 {s : State} (h : s.cfg.regWidth = .w32) : getRegs s = some (dump32 s) := by
  simp [getRegs, h]

theorem getRegs_of_w64 {s : State} {n : Nat} (h : s.cfg.regWidth = .w64) (hn : s.cfg.dump64Len = some n) :
    getRegs s = some (dump32 s ++ List.replicate (n - 128) 0x30#8) := by
  simp [getRegs, h, hn]

/-- Settles O52: the sixteen fields are of one width, and the 64-bit dump appends zeros to them. -/
theorem registerDumpLayout : Obligations.RegisterDumpLayout := by
  unfold Obligations.RegisterDumpLayout
  intro s
  have hlen := length_dump32 s
  refine ⟨⟨dump32 s, hlen, fun i _ v hv => ?_, getRegs_of_w32, fun n hwidth hn hle =>
    ⟨_, getRegs_of_w64 hwidth hn, ?_, List.take_left' hlen, fun b hb => ?_⟩⟩,
    fun hwidth hnone => (getRegs_eq_none_iff s).2 ⟨hwidth, hnone⟩⟩
  · exact take_drop_flatMap length_dumpField (l := dumpValues s) hv
  · rw [List.length_append, List.length_replicate, hlen]
    omega
  · rw [List.drop_left' hlen] at hb
    exact List.eq_of_mem_replicate hb

theorem Bus.getElem?_readFrom (b : Bus) (r : Region) (off : Nat) {len i : Nat} (h : i < len) :
    (b.readFrom r off len)[i]? = some (b.get r (off + i)) := by
  simp [readFrom, h]

/-- The text of a memory dump is the hex of the bytes of the view (47_debug_bridge.md R263). -/
theorem readMemory_text (addr len : DWord) (s : State) :
    (readMemory addr len s).1 = (s.bus.readFrom (resolve s.cfg addr.toNat len.toNat).region
      (resolve s.cfg addr.toNat len.toNat).offset (resolve s.cfg addr.toNat len.toNat).len).flatMap hex2 := by
  rw [← (busRead_spec s.cfg s.bus addr.toNat len.toNat).1]
  rfl

/-- Settles O53: each byte of the view has two characters, and a read at most grows the scratch buffer. -/
theorem memoryDumpLayout : Obligations.MemoryDumpLayout := by
  unfold Obligations.MemoryDumpLayout
  intro s addr len
  rw [readMemory_text]
  refine ⟨?_, fun i hi => take_drop_flatMap length_hex2 (Bus.getElem?_readFrom _ _ _ hi), fun r k => ?_⟩
  · rw [length_flatMap_of_width length_hex2, Bus.length_readFrom]
  · exact Bus.get_grow s.bus (resolve s.cfg addr.toNat len.toNat) r k

/-! ### The run loops -/

/-- What a run loop needs of a call of the interpreter on the way from `s` to `t`: a completed instruction, a prefix
taken where none was outstanding, or an error, which hands nothing out (40_prefixes.md R142; 60_exceptions.md R285). -/
inductive LoopOutcome (s t : State) : Prop
  | done (hres : t.res = some .done)
  | prefixTaken (hres : t.res = some .prefixDone) (hnone : s.prefixed = false)
  | error (e : StepError) (hres : t.res = some (.error e)) (hout : t.out = s.out)

/-- The answer `x` in state `s` is a next state that a run loop can go on from or end at. -/
def LoopAnswer (s : State) (x : Result) : Prop := ∃ t, x = .next t ∧ LoopOutcome s t

namespace LoopAnswer

variable {s u : State} {x y : Result}

theorem finishAt (target : Word) (s u : State) : LoopAnswer s (.next (finishAt target u)) := ⟨_, rfl, .done rfl⟩

theorem raise (e : StepError) (h : u.out = s.out) : LoopAnswer s (raise e u) := ⟨_, rfl, .error e rfl h⟩

theorem ite {c : Prop} [Decidable c] (hx : LoopAnswer s x) (hy : LoopAnswer s y) :
    LoopAnswer s (if c then x else y) := by
  split
  · exact hx
  · exact hy

theorem takePrefix (b0 : Byte) (set : State → State) (s : State) : LoopAnswer s (takePrefix b0 set s) := by
  unfold Machine.takePrefix
  cases hp : s.prefixed
  · exact ⟨_, rfl, .prefixTaken rfl hp⟩
  · exact raise _ rfl

theorem stosw (s : State) : LoopAnswer s (execStosw s) := by
  by_cases h : s.drep = .none
  · rw [execStosw_of_single h]
    exact ite (finishAt _ s _) (raise _ rfl)
  · rw [execStosw_of_repeated h]
    obtain ⟨regs, bus, heq, -, -⟩ := stosLoop_frame s.regs.cx.toNat s
    split
    · exact finishAt _ s _
    · exact raise _ (by rw [heq])

end LoopAnswer

theorem exec_loopAnswer {i : Instr} (hi : i.isRsp = false) (s : State) : LoopAnswer s (exec i s) := by
  cases i with
  | esOverride =>
    rw [exec_esOverride]
    exact .takePrefix _ _ s
  | repz =>
    rw [exec_repz]
    exact .takePrefix _ _ s
  | cmpRegDi r =>
    rw [exec_cmpRegDi, execCmpRegDi_eq]
    exact .ite (.finishAt _ s _) (.raise _ rfl)
  | movDiDx =>
    rw [exec_movDiDx, execMovDiDx_eq]
    exact .ite (.finishAt _ s _) (.raise _ rfl)
  | movSiMem d =>
    rw [exec_movSiMem, execMovSiMem_eq]
    exact .ite (.finishAt _ s _) (.raise _ rfl)
  | stosw => exact .stosw s
  | rspQuestion | rspGetRegs | rspReadMem | rspUnknown => cases hi
  | _ => exact .finishAt _ s _

/-- A call of the interpreter always answers with an outcome for its run loop; run control, the parameters and the
waiting inputs it leaves alone (47_debug_bridge.md R265, R266). -/
theorem interp_loopOutcome (s : State) : ∃ t, interp s = .next t ∧ LoopOutcome s t ∧ SameControl s t := by
  cases hd : decode s.cfg (fetch s).1 with
  | ok i =>
    obtain ⟨t, ht, hend⟩ := exec_loopAnswer (decode_isRsp hd) (fetch s).2
    refine ⟨t, (interp_of_ok hd).trans ht, ?_, (exec_wrote (decode_isRsp hd) ht).control⟩
    cases hend with
    | done hres => exact .done hres
    | prefixTaken hres hnone => exact .prefixTaken hres hnone
    | error e hres hout => exact .error e hres hout
  | error e => exact ⟨_, interp_of_error hd, .error _ rfl rfl, ⟨rfl, rfl, rfl, rfl, rfl, rfl⟩⟩

/-- After a prefix byte a prefix is outstanding (30_encoding.md R104). -/
theorem PrefixOutcome.prefixed_of_prefixDone {s t : State} (h : PrefixOutcome s t) (hres : t.res = some .prefixDone) :
    t.prefixed = true := by
  cases h with
  | done hres' | error _ hres' => cases hres.symm.trans hres'
  | esPrefix _ hseg _ => simp [State.prefixed, hseg]
  | repPrefix _ _ hrep => simp [State.prefixed, hrep]

theorem endRun_reports {s t : State} (h : t.cfg = s.cfg) :
    (endRun t).run = .idle ∧ (endRun t).out.getLast? = some (statusReport s) := by
  rw [endRun_eq h]
  exact ⟨rfl, List.getLast?_concat⟩

/-- A step of `stepi` ends it with the status string, or takes a prefix where none was outstanding and goes on
(47_debug_bridge.md R265, R267). -/
theorem stepi_step {s : State} (h : s.running) (hl : s.run = .stepi) :
    ∃ t, step s = .next t ∧
      ((t.run = .idle ∧ t.out.getLast? = some (statusReport s)) ∨
        (s.prefixed = false ∧ t.prefixed = true ∧ t.res = some .prefixDone ∧ t.running ∧ t.run = .stepi ∧
          t.cfg = s.cfg)) := by
  obtain ⟨t, ht, hend, hkill, hintr, hcfg, hrun, hcalls, -⟩ := interp_loopOutcome s
  have hstep := step_of_running h ht
  cases hend with
  | done hres =>
    rw [afterStep_of_done hres, if_pos (hrun.trans hl)] at hstep
    exact ⟨_, hstep, .inl (endRun_reports hcfg)⟩
  | error e hres _ =>
    rw [afterStep_of_error hres] at hstep
    exact ⟨_, hstep, .inl (endRun_reports hcfg)⟩
  | prefixTaken hres hnone =>
    rw [afterStep_of_prefix hres] at hstep
    obtain ⟨hcalls', hloop, hkill', hintr'⟩ := h
    exact ⟨t, hstep, .inr ⟨hnone, (interp_prefixOutcome ht).prefixed_of_prefixDone hres, hres,
      ⟨hcalls.trans hcalls', by rwa [hrun], hkill.trans hkill', hintr.trans hintr'⟩, hrun.trans hl, hcfg⟩⟩

/-- Settles O54: after the prefix of a first step one is outstanding, so the second step takes none. -/
theorem stepiEndsWithinTwoSteps : Obligations.StepiEndsWithinTwoSteps := by
  unfold Obligations.StepiEndsWithinTwoSteps
  intro s hcalls hl hkill hintr
  have hrun : s.running := ⟨hcalls, by rw [hl]; decide, hkill, hintr⟩
  obtain ⟨t, ht, hdone | ⟨-, hp, hres, hrunning, hl', hcfg⟩⟩ := stepi_step hrun hl
  · exact ⟨t, ht, .inl hdone⟩
  · obtain ⟨u, hu, ⟨hidle, hlast⟩ | ⟨hnone, -⟩⟩ := stepi_step hrunning hl'
    · rw [statusReport, hcfg] at hlast
      exact ⟨t, ht, .inr ⟨hres, hl', u, hu, hidle, hlast⟩⟩
    · rw [hp] at hnone
      cases hnone

/-- With the host doing nothing, a run loop in progress makes its next iteration (47_debug_bridge.md R266; log 6). -/
theorem advance_of_loop {s : State} (h : s.run ≠ .idle) : advance s = runLoopIteration s := by
  unfold advance
  cases hr : s.run with
  | idle => exact absurd hr h
  | stepi | cont => rfl

theorem step_of_no_call {s : State} (h : s.calls = []) : step s = advance s := by
  simp [step, blockStep, h]

/-- Either flag pauses a run loop before its step (47_debug_bridge.md R264). -/
theorem runLoopIteration_of_flag {s : State} (h : s.kill = true ∨ s.intr = true) :
    runLoopIteration s = .next (endRun s) := by
  rw [runLoopIteration, if_pos (by simpa using h)]

/-- A step of `cont` ends it on an error, and goes on after an instruction or a prefix (47_debug_bridge.md R266). -/
theorem cont_step {s : State} (h : s.running) (hl : s.run = .cont) :
    ∃ t, step s = .next t ∧ t.wire = s.wire ∧
      ((∃ e, t.res = some (.error e) ∧ t.run = .idle ∧ t.out = s.out ++ [statusReport s]) ∨
        (t.run = .cont ∧ (t.res = some .done ∨ t.res = some .prefixDone))) := by
  obtain ⟨t, ht, hend, -, -, hcfg, hrun, -, hwire⟩ := interp_loopOutcome s
  have hstep := step_of_running h ht
  have hl' := hrun.trans hl
  cases hend with
  | done hres =>
    rw [afterStep_of_done hres, if_neg (by rw [hl']; decide)] at hstep
    exact ⟨t, hstep, hwire, .inr ⟨hl', .inl hres⟩⟩
  | prefixTaken hres _ =>
    rw [afterStep_of_prefix hres] at hstep
    exact ⟨t, hstep, hwire, .inr ⟨hl', .inr hres⟩⟩
  | error e hres hout =>
    rw [afterStep_of_error hres, endRun_eq hcfg, hout] at hstep
    exact ⟨_, hstep, hwire, .inl ⟨e, hres, rfl, rfl⟩⟩

/-- Settles O55, by what a flag and what each result does to a run loop. -/
theorem runLoopsStopOnFlagsAndErrors : Obligations.RunLoopsStopOnFlagsAndErrors := by
  unfold Obligations.RunLoopsStopOnFlagsAndErrors
  intro s hcalls
  constructor
  · intro hl hflag
    rw [step_of_no_call hcalls, advance_of_loop hl, runLoopIteration_of_flag hflag]
    rfl
  · intro hl hkill hintr
    exact cont_step ⟨hcalls, by rw [hl]; decide, hkill, hintr⟩ hl

/-! ### The calls of the host -/

theorem step_of_call {s : State} {c : HostCall} {rest : List HostCall} (h : s.calls = c :: rest) :
    step s = hostCall c { s with calls := rest } := by
  simp [step, blockStep, h]

theorem throughSlot_of_present {slot : Slot} {s : State} (call : State → Result) (h : hasSlot s.cfg.slots slot = true) :
    throughSlot slot call s = call s := withSlot_of_present _ _ h

theorem throughSlot_of_absent {slot : Slot} {s : State} (call : State → Result)
    (h : hasSlot s.cfg.slots slot = false) : throughSlot slot call s = .next (emit (.unsupported slot) s) :=
  withSlot_of_absent _ _ h

/-- A call that must not overlap a run loop is carried out where its slot is present and no loop is in progress
(47_debug_bridge.md R268). -/
theorem exclusive_throughSlot {slot : Slot} {s : State} (call : State → Result) (h : hasSlot s.cfg.slots slot = true)
    (hr : s.run = .idle) : throughSlot slot (exclusive call) s = call s := by
  rw [throughSlot_of_present _ h, exclusive, hr]

theorem advance_of_wire {s : State} {e : WireEvent} {w : List WireEvent} (hr : s.run = .idle) (hw : s.wire = e :: w) :
    advance s = receive e { s with wire := w } := by
  simp [advance, hr, hw]

theorem advance_of_nothing {s : State} (hr : s.run = .idle) (hw : s.wire = []) : advance s = .next s := by
  simp [advance, hr, hw]

/-- At a quiet boundary, and with nothing scheduled, the host does nothing (logs 6, 25). -/
theorem step_of_quiet {s : State} {rest : List HostCall} (h : s.calls = .quiet :: rest ∨ s.calls = [] ∧ rest = []) :
    step s = advance { s with calls := rest } := by
  obtain hc | ⟨hc, rfl⟩ := h
  · exact step_of_call hc
  · have hs : { s with calls := [] } = s := by rw [← hc]
    rw [hs, step_of_no_call hc]

/-- The slot a call of the host goes through (47_debug_bridge.md R260). -/
def HostCall.slot : HostCall → Option Slot
  | .quiet => none
  | .kill => some .kill
  | .intr => some .intr
  | .stepi => some .stepi
  | .cont => some .cont
  | .question => some .question
  | .getRegs => some .getRegs
  | .readMem _ _ => some .readMem

/-- A call through an absent slot leaves a log line (47_debug_bridge.md R260; log 18). -/
theorem step_of_absent_slot {s : State} {c : HostCall} {rest : List HostCall} {slot : Slot} (hc : s.calls = c :: rest)
    (hslot : c.slot = some slot) (h : hasSlot s.cfg.slots slot = false) :
    step s = .next { s with calls := rest, out := s.out ++ [.unsupported slot] } := by
  rw [step_of_call hc]
  cases c with
  | quiet => cases hslot
  | _ =>
    cases hslot
    exact throughSlot_of_absent _ h

/-- Settles O57, call by call, with the slot and without it. -/
theorem hostCallsDoWhatTheirSlotSays : Obligations.HostCallsDoWhatTheirSlotSays := by
  unfold Obligations.HostCallsDoWhatTheirSlotSays
  intro s rest
  refine ⟨fun hc h => ?kill, fun hc h => ?intr, fun hc h hr => ?stepi, fun hc h hr => ?cont, fun hc h => ?question,
    fun p hc h hr hp => ?getRegs, fun a n hc h hr => ?readMem, fun slot h => ?absent, fun h => ?quiet⟩
  case kill | intr | question => exact (step_of_call hc).trans (throughSlot_of_present _ h)
  case stepi | cont | readMem =>
    exact (step_of_call hc).trans (exclusive_throughSlot _ h hr)
  case getRegs =>
    have hdump : getRegs { s with calls := rest } = some p := hp
    refine (step_of_call hc).trans ?_
    refine (exclusive_throughSlot (slot := .getRegs) (s := { s with calls := rest }) _ h hr).trans ?_
    rw [hdump]
    rfl
  case absent =>
    obtain ⟨rfl, hc, hs⟩ | ⟨rfl, hc, hs⟩ | ⟨rfl, hc, hs⟩ | ⟨rfl, hc, hs⟩ | ⟨rfl, hc, hs⟩ | ⟨rfl, hc, hs⟩ |
      ⟨rfl, ⟨a, n, hc⟩, hs⟩ := h <;> exact step_of_absent_slot hc rfl hs
  case quiet =>
    rw [step_of_quiet h]
    exact ⟨fun hr => advance_of_loop hr, fun e w hr hw => advance_of_wire hr hw, fun hr hw => advance_of_nothing hr hw⟩

end Sys2Proof.Machine

/-! ### Errors -/

namespace Sys2Proof.Machine

/-- The number of an error is the code its class has in the list of codes (60_exceptions.md R281). -/
theorem StepError.getElem?_toList (c : ErrCodes) (e : StepError) : c.toList[e.ctorIdx]? = some (e.code c) := by
  cases e <;> rfl

/-- Settles O37: the six codes stand in one list, each class at a place of its own. -/
theorem errorCodesAreNegativeAndDistinct : Obligations.ErrorCodesAreNegativeAndDistinct := by
  unfold Obligations.ErrorCodesAreNegativeAndDistinct
  intro c hc
  simp only [ErrCodes.wf, Bool.and_eq_true, List.all_eq_true, decide_eq_true_eq] at hc
  obtain ⟨hneg, hnodup⟩ := hc
  refine ⟨fun e => hneg _ (List.mem_of_getElem? (e.getElem?_toList c)), fun e e' he => ?_, rfl, rfl⟩
  have hclass := e.getElem?_toList c
  obtain ⟨hlt, -⟩ := List.getElem?_eq_some_iff.1 hclass
  exact (List.getElem?_inj hlt hnodup).1 (by rw [hclass, he, e'.getElem?_toList])

/-- A run loop that an error ended is idle and has reported the status string (60_exceptions.md R286). -/
theorem Halted.reports {e : StepError} {s t : State} (h : Halted e s t) :
    t.run = .idle ∧ t.out = s.out ++ [statusReport s] := by
  obtain ⟨u, ⟨heq, -⟩, rfl⟩ := h
  rw [heq]
  exact ⟨rfl, rfl⟩

/-- Settles O10: an error of the decoder ends the run loop with the error of its class. -/
theorem failedDecodeRaises : Obligations.FailedDecodeRaises := by
  unfold Obligations.FailedDecodeRaises
  intro s e hr hd
  obtain ⟨t, ht, hhalted⟩ := halted_of_decode_error hr hd
  obtain ⟨hidle, hout⟩ := hhalted.reports
  exact ⟨t, ht, hidle, hout, by cases e <;> exact hhalted⟩

/-- A repeated STOSW that ends in an error changes DI, CX and memory besides the result (44_string.md R200). -/
theorem repeatedStosw_error {s u : State} {e : StepError} (hrep : s.drep ≠ .none) (hu : exec .stosw s = .next u)
    (he : u.res = some (.error e)) :
    ∃ regs bus, u = { s with regs := regs, bus := bus, res := some (.error e) } ∧
      ∀ r, r ∉ [Reg16.di, .cx] → regs.get r = s.regs.get r := by
  obtain ⟨regs, bus, heq, hregs, -⟩ := stosLoop_frame s.regs.cx.toNat s
  rw [exec_stosw, execStosw_of_repeated hrep, heq] at hu
  cases hend : (stosLoop s.regs.cx.toNat s).2 with
  | none =>
    rw [hend] at hu
    cases hu
    cases he
  | some e' =>
    rw [hend] at hu
    cases hu
    cases he
    exact ⟨regs, bus, rfl, hregs⟩

/-- A call of the interpreter that ends in an error changes at most DI, CX and memory besides the result
(60_exceptions.md R285). -/
theorem interp_error {s u : State} {e : StepError} (hu : interp s = .next u) (he : u.res = some (.error e)) :
    ∃ regs bus, u = { s with regs := regs, bus := bus, res := some (.error e) } ∧
      ∀ r, r ∉ [Reg16.di, .cx] → regs.get r = s.regs.get r := by
  by_cases hs : decode s.cfg (fetch s).1 = .ok .stosw ∧ s.drep ≠ .none
  · obtain ⟨hd, hrep⟩ := hs
    exact repeatedStosw_error (s := (fetch s).2) hrep ((interp_of_ok hd).symm.trans hu) he
  · rw [not_and_or, not_not] at hs
    exact ⟨_, _, interp_precise hs u e hu he, fun _ _ => rfl⟩

/-- A repeated STOSW that ends in an error has completed the iterations before the first whose word is cut
(44_string.md R200; 60_exceptions.md R285). -/
theorem repeatedStosw_completed {s u : State} {e : StepError} (hrep : s.drep ≠ .none) (hwf : s.bus.wf s.cfg = true)
    (hu : exec .stosw s = .next u) (he : u.res = some (.error e)) :
    ∃ k < s.regs.cx.toNat, StosFilled k s u ∧ u.regs.cx.toNat = s.regs.cx.toNat - k ∧
      u.regs.di = s.regs.di + BitVec.ofNat 16 (2 * k) := by
  have hcut : ∃ k, k < s.regs.cx.toNat ∧ (stosView s k).len ≠ 2 := by
    by_contra hfit
    push Not at hfit
    obtain ⟨t, ht, -, -, -, -, ⟨-, -, -, hdone⟩, -⟩ := repeatedStoswFillsMemory s hrep hwf hfit
    cases hu.symm.trans ht
    cases he.symm.trans hdone
  classical
  obtain ⟨hk, hlen⟩ := Nat.find_spec hcut
  have hfit : ∀ j < Nat.find hcut, (stosView s j).len = 2 := fun j hj => by
    by_contra hne
    exact Nat.find_min hcut hj ⟨hj.trans hk, hne⟩
  obtain ⟨t, ht, -, hfilled, hcx, hdi, -⟩ := repeatedStoswKeepsCompletedIterations s _ hrep hwf hk hfit
    ((resolve_len_le _ _ 2).lt_of_ne hlen)
  cases hu.symm.trans ht
  exact ⟨_, hk, hfilled, hcx, hdi⟩

/-- What the stores of a repeated STOSW have filled is the same before the fetch, which changes no byte. -/
theorem StosFilled.of_fetch {n : Nat} {s t : State} (h : StosFilled n (fetch s).2 t) : StosFilled n s t := by
  obtain ⟨hstored, hrest⟩ := h
  exact ⟨hstored, fun r k hk => (hrest r k hk).trans (Bus.get_grow _ _ r k)⟩

/-- Settles O35: an error is found before anything is written, or by an iteration of a repeated STOSW; the run loop ends
with it. -/
theorem errorsArePrecise : Obligations.ErrorsArePrecise := by
  unfold Obligations.ErrorsArePrecise
  intro s t e hr ht he
  obtain ⟨u, hu, rfl⟩ := running_step hr ht
  obtain ⟨l, o, heq⟩ := afterStep_eq u
  have hres : u.res = some (.error e) := by rw [heq] at he; exact he
  rw [afterStep_of_error hres]
  refine ⟨fun hs => ?_, fun hd hrep hwf => ?_, ?_⟩
  · obtain ⟨v, hv, hraised⟩ := raised_after_fetch s e
    cases hv
    exact ⟨_, hraised, congrArg endRun (interp_precise hs u e hu hres)⟩
  · obtain ⟨k, hk, hfilled, hcx, hdi⟩ := repeatedStosw_completed (s := (fetch s).2) hrep (Bus.wf_grow _ hwf)
      ((interp_of_ok hd).symm.trans hu) hres
    exact ⟨k, hk, hfilled.of_fetch, hcx, hdi⟩
  · obtain ⟨regs, bus, rfl, hregs⟩ := interp_error hu hres
    exact ⟨rfl, rfl, rfl, rfl, rfl, hregs, fun _ _ => rfl, fun _ _ => rfl, ⟨rfl, rfl, rfl, rfl, rfl, rfl, rfl⟩,
      ⟨rfl, rfl, rfl, rfl, rfl, rfl⟩⟩

end Sys2Proof.Machine

/-! ### The CPU outside a run loop -/

namespace Sys2Proof.Machine

/-- From `s` to `t` the CPU and every byte of memory rest, and no run loop starts or ends (70_reset_and_hazards.md
R311). -/
def AtRest (s t : State) : Prop := SameCpu s t ∧ SameBytes s t ∧ t.run = s.run

namespace AtRest

variable {s t : State}

theorem refl (s : State) : AtRest s s := ⟨⟨rfl, rfl, rfl, rfl, rfl, rfl, rfl⟩, fun _ _ => rfl, rfl⟩

theorem of_engineOnly (h : EngineOnly s t) : AtRest s t := by
  obtain ⟨-, -, -, hrun, -⟩ := h.control
  exact ⟨h.cpu, h.sameBytes, hrun⟩

theorem emit (o : Output) (s : State) : AtRest s (emit o s) := of_engineOnly ((EngineOnly.refl s).emit o)

theorem run_ne {l : RunLoop} (h : AtRest s t) (hs : s.run = .idle) (hl : l ≠ .idle) : t.run ≠ l := by
  obtain ⟨-, -, hrun⟩ := h
  rw [hrun, hs]
  exact hl.symm

/-- A call of the host lets the CPU rest if it does so where its slot is present. -/
theorem throughSlot {slot : Slot} {call : State → Result} (hc : ∀ t, call s = .next t → AtRest s t)
    (h : throughSlot slot call s = .next t) : AtRest s t := by
  obtain ⟨-, h⟩ | rfl := throughSlot_cases h
  · exact hc t h
  · exact emit _ s

/-- With no run loop in progress and the host doing nothing, the engine moves or nobody does (R311). -/
theorem advance (hs : s.run = .idle) (h : advance s = .next t) : AtRest s t := by
  cases hw : s.wire with
  | nil =>
    cases (advance_of_nothing hs hw).symm.trans h
    exact refl s
  | cons e rest =>
    rw [advance_of_wire hs hw] at h
    exact of_engineOnly (s := { s with wire := rest }) (receive_engineOnly h)

end AtRest

/-- What a call of the host can do while no run loop is in progress: start the loop it is named after, through its slot,
or let the CPU rest (47_debug_bridge.md R265, R266). -/
theorem hostCall_of_idle {c : HostCall} {s t : State} (hs : s.run = .idle) (h : hostCall c s = .next t) :
    AtRest s t ∨ (c = .stepi ∧ s.cfg.slots.stepi = true ∧ t = { s with run := .stepi }) ∨
      (c = .cont ∧ s.cfg.slots.cont = true ∧ t = { s with run := .cont }) := by
  cases c with
  | quiet => exact .inl (.advance hs h)
  | kill | intr | question =>
    refine .inl (.throughSlot (fun t h => ?_) h)
    cases h
    exact .refl s
  | stepi =>
    obtain ⟨hslot, h⟩ | rfl := throughSlot_cases h
    · cases (exclusive_next h).2
      exact .inr (.inl ⟨rfl, hslot, rfl⟩)
    · exact .inl (.emit _ s)
  | cont =>
    obtain ⟨hslot, h⟩ | rfl := throughSlot_cases h
    · cases (exclusive_next h).2
      exact .inr (.inr ⟨rfl, hslot, rfl⟩)
    · exact .inl (.emit _ s)
  | getRegs =>
    refine .inl (.throughSlot (fun t h => ?_) h)
    have hg := (exclusive_next h).2
    cases hp : getRegs s <;> simp only [hp] at hg <;> cases hg
    exact .emit _ s
  | readMem addr len =>
    refine .inl (.throughSlot (fun t h => ?_) h)
    cases (exclusive_next h).2
    exact .of_engineOnly (((EngineOnly.refl s).readMemory addr len).emit _)

/-- What a step can do while no run loop is in progress: start the loop the host calls for, or let the CPU rest. -/
theorem step_of_idle {s t : State} (hs : s.run = .idle) (h : step s = .next t) :
    AtRest s t ∨ ∃ rest,
      (s.calls = .stepi :: rest ∧ s.cfg.slots.stepi = true ∧ t = { s with calls := rest, run := .stepi }) ∨
      (s.calls = .cont :: rest ∧ s.cfg.slots.cont = true ∧ t = { s with calls := rest, run := .cont }) := by
  cases hc : s.calls with
  | nil => exact .inl (.advance hs ((step_of_no_call hc).symm.trans h))
  | cons c rest =>
    rw [step_of_call hc] at h
    obtain hrest | ⟨rfl, hslot, rfl⟩ | ⟨rfl, hslot, rfl⟩ := hostCall_of_idle (s := { s with calls := rest }) hs h
    · exact .inl hrest
    · exact .inr ⟨rest, .inl ⟨rfl, hslot, rfl⟩⟩
    · exact .inr ⟨rest, .inr ⟨rfl, hslot, rfl⟩⟩

/-- Settles O34: with no run loop in progress only the host's two calls do more than the engine, and each starts its
loop and no more. -/
theorem onlyARunLoopRunsTheCpu : Obligations.OnlyARunLoopRunsTheCpu := by
  unfold Obligations.OnlyARunLoopRunsTheCpu
  refine ⟨fun s t hs h => ?_, fun s t e rest hears h => ?_⟩
  · have hnothing : s.calls = [] → s.wire = [] → t = s := fun hc hw => by
      cases (step_of_nothing hc hs hw).symm.trans h
      rfl
    obtain hrest | ⟨rest, ⟨hc, hslot, rfl⟩ | ⟨hc, hslot, rfl⟩⟩ := step_of_idle hs h
    · obtain ⟨hcpu, hbytes, -⟩ := id hrest
      exact ⟨hcpu, hbytes, fun hl => absurd hl (hrest.run_ne hs (by decide)),
        fun hl => absurd hl (hrest.run_ne hs (by decide)), hnothing⟩
    · exact ⟨⟨rfl, rfl, rfl, rfl, rfl, rfl, rfl⟩, fun _ _ => rfl, fun _ => ⟨hslot, rest, hc⟩, nofun, hnothing⟩
    · exact ⟨⟨rfl, rfl, rfl, rfl, rfl, rfl, rfl⟩, fun _ _ => rfl, nofun, fun _ => ⟨hslot, rest, hc⟩, hnothing⟩
  · have hengine := receive_engineOnly ((step_of_hears hears).symm.trans h)
    obtain ⟨hkill, hintr, hcfg, hrun, -⟩ := hengine.control
    obtain ⟨-, hidle, -⟩ := hears
    exact ⟨hengine.cpu, hengine.sameBytes, hkill, hintr, hrun.trans hidle, hcfg⟩

end Sys2Proof.Machine
